-- ==== Sys2Proof/Word.lean ====
section
/-! DEFINITION. The word types of the block (`00_scope.md` R5, R7). -/

namespace Sys2Proof

/-- `u32`: a register, an address, a length, a word of a block (R5, R7). -/
abbrev Word := BitVec 32

/-- `u8`: a byte of buffer memory, a channel of a pixel (R5, R7). -/
abbrev Byte := BitVec 8

/-- `u64`: a metric accumulator (R6, R35). -/
abbrev Acc := BitVec 64

end Sys2Proof
end

