-- ==== Sys2Proof/Syntax.lean ====
section
/-! DEFINITION. The commands of the block: one constructor per row of `opcode_table.json` (`30_encoding.md` R94). -/

namespace Sys2Proof

/-- The 24 commands of R94, in the order of their opcodes. Operands are implicit registers (R91). The two format-C commands
carry the field `CNT`, and run `CNT + 1` rounds (R92); every value of the field is legal. -/
inductive Instr where
  | nop
  | teaEnc
  | teaDec
  | teaErnd (cnt : BitVec 5)
  | teaDrnd (cnt : BitVec 5)
  | zero
  | keyLd
  | blkLd
  | blkSt
  | wLd
  | wSt
  | pad
  | unpad
  | ecbEnc
  | ecbDec
  | msgEnc
  | msgDec
  | frWrap
  | frUnwrap
  | lsbCap
  | lsbEmbed
  | lsbExtract
  | metDiff
  | metHist
  deriving DecidableEq, Repr

end Sys2Proof
end

