-- ==== Sys2Proof/Decode.lean ====
section
/-! DEFINITION. Decoding of a command word, total on every 32-bit word, and its encoder (`30_encoding.md` R90 to R97). -/

namespace Sys2Proof

/-- Why a command word is illegal (R96). -/
inductive Reject where
  /-- An opcode that R94 does not assign (R93, U12). -/
  | unassignedOpcode
  /-- An assigned opcode, with a one bit where its format requires zero (R90). -/
  | reservedBits
  deriving DecidableEq, Repr

/-- The field OPC, bits 7:0 (R90). -/
def opcField (w : Word) : Byte := w.extractLsb' 0 8

/-- The field CNT, bits 12:8 (R90, R92). -/
def cntField (w : Word) : BitVec 5 := w.extractLsb' 8 5

/-- Format N: bits 31:8 are zero (R90). -/
def decodeN (w : Word) (i : Instr) : Except Reject Instr :=
  if w.extractLsb' 8 24 = 0#24 then .ok i else .error .reservedBits

/-- Format C: bits 31:13 are zero (R90). -/
def decodeC (w : Word) (mk : BitVec 5 → Instr) : Except Reject Instr :=
  if w.extractLsb' 13 19 = 0#19 then .ok (mk (cntField w)) else .error .reservedBits

/-- The decoder of R95. -/
def decode (w : Word) : Except Reject Instr :=
  match (opcField w).toNat with
  | 0x00 => decodeN w .nop
  | 0x01 => decodeN w .teaEnc
  | 0x02 => decodeN w .teaDec
  | 0x03 => decodeC w .teaErnd
  | 0x04 => decodeC w .teaDrnd
  | 0x05 => decodeN w .zero
  | 0x08 => decodeN w .keyLd
  | 0x09 => decodeN w .blkLd
  | 0x0A => decodeN w .blkSt
  | 0x0B => decodeN w .wLd
  | 0x0C => decodeN w .wSt
  | 0x10 => decodeN w .pad
  | 0x11 => decodeN w .unpad
  | 0x18 => decodeN w .ecbEnc
  | 0x19 => decodeN w .ecbDec
  | 0x1A => decodeN w .msgEnc
  | 0x1B => decodeN w .msgDec
  | 0x20 => decodeN w .frWrap
  | 0x21 => decodeN w .frUnwrap
  | 0x28 => decodeN w .lsbCap
  | 0x29 => decodeN w .lsbEmbed
  | 0x2A => decodeN w .lsbExtract
  | 0x30 => decodeN w .metDiff
  | 0x31 => decodeN w .metHist
  | _ => .error .unassignedOpcode

/-- The host's view of the decoder: a command is one 32-bit word (R90, R97), so the bits above `nbits` are zero and the word is
what a write of it to CMD latches. -/
def decodeTableWord (nbits w : Nat) : Option Instr :=
  (decode (BitVec.ofNat 32 (w % 2 ^ nbits))).toOption

/-- The opcode of each command (R94). -/
def opcode : Instr → Byte
  | .nop => 0x00
  | .teaEnc => 0x01
  | .teaDec => 0x02
  | .teaErnd _ => 0x03
  | .teaDrnd _ => 0x04
  | .zero => 0x05
  | .keyLd => 0x08
  | .blkLd => 0x09
  | .blkSt => 0x0A
  | .wLd => 0x0B
  | .wSt => 0x0C
  | .pad => 0x10
  | .unpad => 0x11
  | .ecbEnc => 0x18
  | .ecbDec => 0x19
  | .msgEnc => 0x1A
  | .msgDec => 0x1B
  | .frWrap => 0x20
  | .frUnwrap => 0x21
  | .lsbCap => 0x28
  | .lsbEmbed => 0x29
  | .lsbExtract => 0x2A
  | .metDiff => 0x30
  | .metHist => 0x31

/-- The field CNT of each command: zero, as its format requires, for the commands of format N (R90). -/
def cntOf : Instr → BitVec 5
  | .teaErnd cnt | .teaDrnd cnt => cnt
  | .nop | .teaEnc | .teaDec | .zero | .keyLd | .blkLd | .blkSt | .wLd | .wSt | .pad | .unpad | .ecbEnc | .ecbDec
  | .msgEnc | .msgDec | .frWrap | .frUnwrap | .lsbCap | .lsbEmbed | .lsbExtract | .metDiff | .metHist => 0#5

/-- The command word of a command: reserved bits zero, CNT at bits 12:8, OPC at bits 7:0 (R90). -/
def encode (i : Instr) : Word := 0#19 ++ cntOf i ++ opcode i

/-- A row of `opcode_table.json`: it accepts a word `w` exactly when `w & mask = match` (R95). -/
structure OpcodeRow where
  mnemonic : String
  mask : Word
  pattern : Word
  deriving DecidableEq, Repr

/-- Whether a row of the table accepts a word (R95). -/
def OpcodeRow.accepts (r : OpcodeRow) (w : Word) : Bool := w &&& r.mask == r.pattern

/-- The rows of `opcode_table.json`. -/
def opcodeRows : List OpcodeRow := [
  ⟨"NOP", 0xFFFFFFFF, 0x00000000⟩, ⟨"TEA_ENC", 0xFFFFFFFF, 0x00000001⟩, ⟨"TEA_DEC", 0xFFFFFFFF, 0x00000002⟩,
  ⟨"TEA_ERND", 0xFFFFE0FF, 0x00000003⟩, ⟨"TEA_DRND", 0xFFFFE0FF, 0x00000004⟩, ⟨"ZERO", 0xFFFFFFFF, 0x00000005⟩,
  ⟨"KEY_LD", 0xFFFFFFFF, 0x00000008⟩, ⟨"BLK_LD", 0xFFFFFFFF, 0x00000009⟩, ⟨"BLK_ST", 0xFFFFFFFF, 0x0000000A⟩,
  ⟨"W_LD", 0xFFFFFFFF, 0x0000000B⟩, ⟨"W_ST", 0xFFFFFFFF, 0x0000000C⟩, ⟨"PAD", 0xFFFFFFFF, 0x00000010⟩,
  ⟨"UNPAD", 0xFFFFFFFF, 0x00000011⟩, ⟨"ECB_ENC", 0xFFFFFFFF, 0x00000018⟩, ⟨"ECB_DEC", 0xFFFFFFFF, 0x00000019⟩,
  ⟨"MSG_ENC", 0xFFFFFFFF, 0x0000001A⟩, ⟨"MSG_DEC", 0xFFFFFFFF, 0x0000001B⟩, ⟨"FR_WRAP", 0xFFFFFFFF, 0x00000020⟩,
  ⟨"FR_UNWRAP", 0xFFFFFFFF, 0x00000021⟩, ⟨"LSB_CAP", 0xFFFFFFFF, 0x00000028⟩, ⟨"LSB_EMBED", 0xFFFFFFFF, 0x00000029⟩,
  ⟨"LSB_EXTRACT", 0xFFFFFFFF, 0x0000002A⟩, ⟨"MET_DIFF", 0xFFFFFFFF, 0x00000030⟩, ⟨"MET_HIST", 0xFFFFFFFF, 0x00000031⟩]

/-- The mnemonic of each command (R94). -/
def mnemonic : Instr → String
  | .nop => "NOP"
  | .teaEnc => "TEA_ENC"
  | .teaDec => "TEA_DEC"
  | .teaErnd _ => "TEA_ERND"
  | .teaDrnd _ => "TEA_DRND"
  | .zero => "ZERO"
  | .keyLd => "KEY_LD"
  | .blkLd => "BLK_LD"
  | .blkSt => "BLK_ST"
  | .wLd => "W_LD"
  | .wSt => "W_ST"
  | .pad => "PAD"
  | .unpad => "UNPAD"
  | .ecbEnc => "ECB_ENC"
  | .ecbDec => "ECB_DEC"
  | .msgEnc => "MSG_ENC"
  | .msgDec => "MSG_DEC"
  | .frWrap => "FR_WRAP"
  | .frUnwrap => "FR_UNWRAP"
  | .lsbCap => "LSB_CAP"
  | .lsbEmbed => "LSB_EMBED"
  | .lsbExtract => "LSB_EXTRACT"
  | .metDiff => "MET_DIFF"
  | .metHist => "MET_HIST"

end Sys2Proof
end

