-- ==== Sys2Proof/Config.lean ====
section
/-! DEFINITION. The parameters a platform fixes (`00_scope.md` R6) and the free values the spec leaves unspecified. -/

namespace Sys2Proof

/-- The open parameters of R6 that are values: `MEM_SIZE` and `REG_BASE`. They are carried in the state and no step changes
them, so a statement about every state holds for every choice of them. (`MEM_INIT` is the memory of the first state, and
`LATENCY` is when the schedule lets the block move.) -/
structure Platform where
  /-- `MEM_SIZE`: buffer memory has the addresses `0 .. MEM_SIZE - 1`. -/
  memSize : Nat
  /-- `REG_BASE`: the host address of the register window. -/
  regBase : Nat
  deriving DecidableEq, Repr

/-- A fresh unspecified 32-bit value, applied to the state's count of draws: a busy read of a register a command may write
(R119, U1), and a host temporary that nothing has assigned. -/
opaque Config.freeWord : Nat → BitVec 32

/-- A fresh unspecified choice, applied to the state's count of draws: whether a byte of an aborted command's write footprint
holds the value of the successful completion (`true`) or its value at issue (`false`) (R282, U2). -/
opaque Config.takesNew : Nat → Bool

end Sys2Proof
end

