-- ==== Sys2Proof/Machine/HostScript.lean ====
section
/-! DEFINITION. The host's side as syntax: the named registers of the window (`10_state.md` R22), the statements of a host script
(`30_encoding.md` R98), its assembler source with the pseudo-instructions (R99), and the turns of the two agents (R21). -/

namespace Sys2Proof.Machine

/-- The named registers of R22, in the order of their offsets. -/
inductive Reg where
  | id | ctrl | status | cmd | v0 | v1 | sum
  | k0 | k1 | k2 | k3 | src | dst | len | pixcnt
  | result | raddr | errinfo
  | mBiterrLo | mBiterrHi | mChgpix | mAbsdiffLo | mAbsdiffHi | mSqdiffLo | mSqdiffHi
  | mLaLo | mLaHi | mLbLo | mLbHi | mLalbLo | mLalbHi | mLa2Lo | mLa2Hi | mLb2Lo | mLb2Hi
  deriving DecidableEq, Repr

/-- A host temporary: one the script names, or the one a pseudo-instruction uses inside its own expansion (log 9). -/
inductive Temp where
  | named (n : Nat)
  | scratch
  deriving DecidableEq, Repr

/-- What a host temporary holds: the word a `rd` read into it, or the byte string a `mr` loaded into it, whichever came last (R98;
what such a byte string is as a word is open, log 18). -/
inductive TempVal where
  | word (w : Word)
  | bytes (bs : List Byte)
  deriving DecidableEq, Repr

/-- A label: one the script names, the label `FAIL` that `ok` jumps to, or the label local to the expansion of the `k`-th source
statement (R99). -/
inductive Label where
  | named (n : Nat)
  | fail
  | inside (k : Nat)
  deriving DecidableEq, Repr

/-- A value `v` of a host statement: "a constant, a host temporary, or a temporary plus or minus a constant, computed mod 2^32"
(R98, which says so at `wr`; the `v` of an `if` is the same, and so are the address and the count of `mw` and `mr`, log 19). -/
inductive Val where
  | const (w : Word)
  | temp (t : Temp)
  | plus (t : Temp) (w : Word)
  | minus (t : Temp) (w : Word)
  deriving DecidableEq, Repr

/-- What an `if` looks at: the whole word of a temporary, or one of the register fields of R23, R24 and R90 in it (R98; which
fields those are is DEDUCED, log 16). -/
inductive Field where
  | whole | ie | busy | done | err | padbad | werr | errcode | opc | cnt
  deriving DecidableEq, Repr

/-- The three conditions of an `if` (R98): the field is not zero, equals a value, differs from a value. -/
inductive Cond where
  | nonzero
  | eq (v : Val)
  | ne (v : Val)
  deriving DecidableEq, Repr

/-- One host statement (R98). `busWr` and `busRd` are the bus accesses under `wr` and `rd`, at any address and width in bytes, so
that an access R61 forbids can be written down too. -/
inductive Stmt where
  /-- `wr REG, v` -/
  | wr (r : Reg) (v : Val)
  /-- `rd REG -> t` -/
  | rd (r : Reg) (t : Temp)
  /-- `cmd M` and `cmd M, n` -/
  | cmd (i : Instr)
  /-- `mw a, b0 b1 ...`; that `a` may be any value, also one of a temporary, is the model's choice (log 19). -/
  | mw (a : Val) (bs : List Byte)
  /-- `mr a, n -> t`; that `a` and `n` may be any values, also those of temporaries, is the model's choice (log 19). -/
  | mr (a n : Val) (t : Temp)
  /-- `L:` -/
  | label (l : Label)
  /-- `if t.F goto L`, `if t.F == v goto L`, `if t.F != v goto L` -/
  | branch (t : Temp) (f : Field) (c : Cond) (l : Label)
  /-- `goto L` -/
  | goto (l : Label)
  /-- `halt` -/
  | halt
  /-- A bus write of `width` bytes at a host address (R61). -/
  | busWr (addr width : Nat) (v : Val)
  /-- A bus read of `width` bytes at a host address (R61). -/
  | busRd (addr width : Nat) (t : Temp)
  deriving DecidableEq, Repr

/-- The two format-C commands, as `cmd M, n` names them (R98). -/
inductive RoundOp where
  | ernd
  | drnd
  deriving DecidableEq, Repr

/-- A command as the assembler reads it: `M`, or `M, n` (R98). -/
inductive Spelling where
  | plain (i : Instr)
  | rounds (op : RoundOp) (n : Nat)
  deriving DecidableEq, Repr

/-- A line of assembler source: a statement, or a pseudo-instruction of R99. -/
inductive Asm where
  | stmt (s : Stmt)
  | cmd (c : Spelling)
  | wait
  | run (c : Spelling)
  | ok
  | setblk (a b : Val)
  | setkey (a b c d : Val)
  | ack
  | teaEnc
  | teaDec
  deriving DecidableEq, Repr

/-- Why the assembler refuses a command (R98). -/
inductive AsmReject where
  /-- `cmd M, n` with `n` outside 1 .. 32 "spells no command". -/
  | roundCount
  /-- A format-C command written without its count, where R98's `cmd M` takes a format-N command. -/
  | missingCount
  deriving DecidableEq, Repr

/-- Who moves: the host, the block, or the platform's reset input (R21, R257, R280). -/
inductive Turn where
  | host
  | block
  | hardReset
  deriving DecidableEq, Repr

end Sys2Proof.Machine
end

