-- ==== Sys2Proof/Machine/State.lean ====
section
/-! DEFINITION. The state of the machine (`10_state.md`, `20_memory.md` R60, `30_encoding.md` R98), its faults and refusals, and
its state after reset (`70_reset_and_hazards.md` R280). -/

namespace Sys2Proof.Machine

/-- The stored fields of STATUS (R24). ERR is no field of its own: it "always equals `ERRCODE ≠ 0`". -/
structure Status where
  busy : Bool
  done : Bool
  padbad : Bool
  werr : Bool
  errcode : BitVec 8
  deriving DecidableEq, Repr

/-- The metric accumulators (R35): eight of 64 bits, read as `_LO` and `_HI` halves, and M_CHGPIX of 32 bits. -/
structure Metrics where
  biterr : Acc
  chgpix : Word
  absdiff : Acc
  sqdiff : Acc
  la : Acc
  lb : Acc
  lalb : Acc
  la2 : Acc
  lb2 : Acc
  deriving DecidableEq, Repr

/-- Buffer memory (`20_memory.md` R60): the bytes that differ from what an unlisted address reads as, at strictly rising
addresses (`Memory.wf`). -/
abbrev Memory := List Host.Cell

/-- The host agent (R21, R98): its script, the index of its next statement, and what its temporaries hold. A temporary holds one
value, the last it was assigned (DESIGN CHOICE, log 18). -/
structure HostAgent where
  script : List Stmt
  pc : Nat
  temps : List (Temp × TempVal)
  deriving DecidableEq, Repr

/-- The whole machine: the block's register file (R22), buffer memory, the platform's parameters, the host agent, and the two
fields of the model's own, the schedule (log 2) and the count of free values drawn (log 6). -/
structure State where
  /-- CTRL.IE (R23). SRST is write-only and stores nothing. -/
  ctrlIE : Bool
  status : Status
  cmd : Word
  v0 : Word
  v1 : Word
  sum : Word
  k0 : Word
  k1 : Word
  k2 : Word
  k3 : Word
  src : Word
  dst : Word
  len : Word
  pixcnt : Word
  result : Word
  raddr : Word
  errinfo : Word
  metrics : Metrics
  mem : Memory
  plat : Platform
  host : HostAgent
  schedule : List Turn
  draws : Nat
  deriving DecidableEq, Repr

/-- Why the machine stops with a fault. Each is a host fault: the host program is erroneous and nothing is claimed after it. -/
inductive Fault where
  /-- A host access to the register window that is not one aligned 32-bit word (R61, U4). Raised by `busRead` and `busWrite`.
  Safe: the spec gives it a bus error and no effect on the block. -/
  | registerAccess
  /-- A host access to a byte of the footprint of the command in flight (R286, U3). Raised by `hostLoad` and `hostStore`.
  Safe: the spec calls it a host fault. -/
  | footprintHazard
  /-- A host access to a buffer-memory address that does not exist, `MEM_SIZE` or above (R60, R287). Raised by `hostLoad` and
  `hostStore`. Safe: the machine stops. -/
  | noSuchAddress
  deriving DecidableEq, Repr

/-- Why the machine has no meaning for what it was asked to do. -/
inductive Refusal where
  /-- An instruction whose meaning is not modelled: raised by no arm of `exec`. Safe: the machine stops. -/
  | notModelled (mnemonic : String)
  /-- A bus access that does not touch the block's window: the address belongs to the platform, which the spec does not describe
  (R67). Raised by `busRead` and `busWrite`. Safe: the machine stops. -/
  | outsideWindow
  /-- A host branch to a label that its script does not hold (R98 gives it no meaning). Raised by `jumpTo`. Safe: the machine
  stops. -/
  | noSuchLabel
  deriving DecidableEq, Repr

/-- What a step or a meaning answers. -/
abbrev Out := Host.Outcome State Fault Refusal

/-- STATUS after reset (R24, R280). -/
def Status.reset : Status := ⟨false, false, false, false, 0#8⟩

/-- The metric accumulators after reset (R22, R280). -/
def Metrics.reset : Metrics := ⟨0#64, 0#32, 0#64, 0#64, 0#64, 0#64, 0#64, 0#64, 0#64⟩

/-- The host agent before a script is loaded: a script comes from outside the machine (log 5). -/
def HostAgent.empty : HostAgent := ⟨[], 0, []⟩

/-- The machine at power-on, on a platform and with the initial memory `MEM_INIT`: every register at its reset value (R22, R280),
the host agent empty, no turn scheduled, nothing drawn. -/
def State.powerOn (p : Platform) (memInit : Memory) : State where
  ctrlIE := false
  status := Status.reset
  cmd := 0#32
  v0 := 0#32
  v1 := 0#32
  sum := 0#32
  k0 := 0#32
  k1 := 0#32
  k2 := 0#32
  k3 := 0#32
  src := 0#32
  dst := 0#32
  len := 0#32
  pixcnt := 0#32
  result := 0#32
  raddr := 0#32
  errinfo := 0#32
  metrics := Metrics.reset
  mem := memInit
  plat := p
  host := HostAgent.empty
  schedule := []
  draws := 0

/-- The platform of `State.reset`: DESIGN CHOICE (log 4), the example values of `95_test_vectors.md`. -/
def examplePlatform : Platform := ⟨0x1000, 0⟩

/-- The machine right after reset, with no byte of memory listed (log 3). -/
def State.reset : State := State.powerOn examplePlatform []

end Sys2Proof.Machine
end

