-- ==== Sys2Proof/Machine/Flags.lean ====
section
/-! DEFINITION. The flags: CTRL and STATUS as the words the host reads, and every change of STATUS (`10_state.md` R23, R24, R36;
`40_command.md` R111, R113, R116, R117, R118; `60_exceptions.md` R250, R256). -/

namespace Sys2Proof.Machine

/-- The error kinds of R250. -/
inductive ErrCode where
  | illegal | range | overlap | blklen | capacity | toosmall | invlen | frame
  deriving DecidableEq, Repr

/-- The code STATUS.ERRCODE holds for each error (R250). -/
def errCodeBits : ErrCode → BitVec 8
  | .illegal => 0x01
  | .range => 0x02
  | .overlap => 0x03
  | .blklen => 0x04
  | .capacity => 0x05
  | .toosmall => 0x06
  | .invlen => 0x07
  | .frame => 0x08

/-- STATUS.ERR: "always equals `ERRCODE ≠ 0`" (R24). -/
def Status.err (st : Status) : Bool := st.errcode != 0#8

/-- STATUS as the host reads it: bits 31:16 and 7:5 are reserved and read 0 (R24). -/
def Status.toWord (st : Status) : Word :=
  0#16 ++ st.errcode ++ 0#3 ++ BitVec.ofBool st.werr ++ BitVec.ofBool st.padbad ++ BitVec.ofBool st.err
    ++ BitVec.ofBool st.done ++ BitVec.ofBool st.busy

/-- CTRL as the host reads it: SRST is write-only and bits 31:2 are reserved, so only IE can read 1 (R23). -/
def ctrlWord (ie : Bool) : Word := 0#31 ++ BitVec.ofBool ie

/-- A host write of STATUS: a 1 in bit 1 clears DONE, a 1 in bit 4 clears WERR, and the other bits are ignored (R111). -/
def Status.writeOneClear (st : Status) (v : Word) : Status :=
  { st with done := st.done && !v.getLsbD 1, werr := st.werr && !v.getLsbD 4 }

/-- STATUS at issue: BUSY set, DONE, ERRCODE and PADBAD cleared, WERR kept (R113). -/
def Status.issued (st : Status) : Status :=
  { st with busy := true, done := false, padbad := false, errcode := 0#8 }

/-- STATUS at a successful completion; `padbad` is what the command's rule sets, and false for the commands that set none (R116). -/
def Status.completed (st : Status) (padbad : Bool) : Status :=
  { st with busy := false, done := true, padbad := padbad, errcode := 0#8 }

/-- STATUS at an error completion (R117). -/
def Status.failed (st : Status) (e : ErrCode) : Status :=
  { st with busy := false, done := true, padbad := false, errcode := errCodeBits e }

/-- STATUS after a host write that was refused because the block was busy (R118). -/
def Status.refusedWrite (st : Status) : Status := { st with werr := true }

/-- The interrupt line: `irq = CTRL.IE & STATUS.DONE` (R38, R256). -/
def State.irq (s : State) : Bool := s.ctrlIE && s.status.done

end Sys2Proof.Machine
end

