-- ==== Sys2Proof/Machine/Ops.lean ====
section
/-! DEFINITION. The shared operations: buffer memory, big-endian conversion, the range and overlap checks, issue, successful
completion and error completion (`00_scope.md` R9, R10; `20_memory.md` R60 to R66; `40_command.md` R113 to R117). -/

namespace Sys2Proof.Machine

/-! ## Buffer memory -/

/-- What an address that the memory does not list reads as. The spec leaves the contents of buffer memory at power-on open
(`MEM_INIT`, R280); DESIGN CHOICE 0 (log 3). -/
def Memory.fill : Byte := 0#8

/-- `mem[a]` (R10). -/
def Memory.read : Memory → Nat → Byte
  | [], _ => Memory.fill
  | (a', b) :: m, a => if a = a' then b else if a < a' then Memory.fill else Memory.read m a

/-- `mem[a] <- b` (R10), keeping the canonical form. -/
def Memory.write : Memory → Nat → Byte → Memory
  | [], a, b => if b = Memory.fill then [] else [(a, b)]
  | (a', b') :: m, a, b =>
    if a = a' then (if b = Memory.fill then m else (a, b) :: m)
    else if a < a' then (if b = Memory.fill then (a', b') :: m else (a, b) :: (a', b') :: m)
    else (a', b') :: Memory.write m a b

/-- The canonical form: addresses strictly rising, and no byte listed that an unlisted address reads as. -/
def Memory.wf : Memory → Bool
  | [] => true
  | (a, b) :: m => b != Memory.fill && m.all (fun c => decide (a < c.1)) && Memory.wf m

/-- `MemRead(a, n)` (R10): the bytes at `a .. a + n - 1`. -/
def readBytes (m : Memory) (a : Nat) : Nat → List Byte
  | 0 => []
  | n + 1 => m.read a :: readBytes m (a + 1) n

/-- `MemWrite(a, n, s)` (R10): the bytes of `s` at `a, a + 1, ...`. -/
def writeBytes (m : Memory) (a : Nat) : List Byte → Memory
  | [] => m
  | b :: bs => writeBytes (m.write a b) (a + 1) bs

/-! ## Byte strings and words, big-endian (R9, R62) -/

/-- `BE32(s[j .. j + 4))`. -/
def be32 (s : List Byte) (j : Nat) : Word := s.getD j 0 ++ s.getD (j + 1) 0 ++ s.getD (j + 2) 0 ++ s.getD (j + 3) 0

/-- `BYTES32(w)`. -/
def bytes32 (w : Word) : List Byte := [w.extractLsb' 24 8, w.extractLsb' 16 8, w.extractLsb' 8 8, w.extractLsb' 0 8]

/-- `rep(n, b)`. -/
def rep (n : Nat) (b : Byte) : List Byte := List.replicate n b

/-! ## Address ranges -/

/-- The addresses `[start, start + size)`. -/
structure Range where
  start : Nat
  size : Nat
  deriving DecidableEq, Repr

/-- Whether an address lies in a range. -/
def Range.holds (r : Range) (a : Nat) : Bool := decide (r.start ≤ a) && decide (a < r.start + r.size)

/-- `check_range(a, n)` in exact arithmetic (R64). -/
def checkRange (p : Platform) (a n : Nat) : Bool := decide (n = 0) || decide (a + n ≤ p.memSize)

/-- `overlap(a, n, b, m)`: both ranges non-empty, and they share a byte (R65). -/
def overlap (a n b m : Nat) : Bool := decide (0 < n) && decide (0 < m) && decide (a < b + m) && decide (b < a + n)

/-! ## Issue and completion -/

/-- Issue of the command word `w` (R113). -/
def issue (w : Word) (s : State) : State := { s with cmd := w, status := s.status.issued }

/-- The completion fields of a success: ERRINFO and STATUS (R116). The rule's own register and memory writes are already in `s`. -/
def complete (padbad : Bool) (s : State) : State := { s with errinfo := 0#32, status := s.status.completed padbad }

/-- `raise ERR(info)`, the block's one way to take an error (R117, R253): ERRCODE and ERRINFO save the cause and its detail, the
block is idle and DONE again, and nothing else changes. There is no handler and no return (R254). -/
def raiseErr (e : ErrCode) (info : Word) (s : State) : State := { s with errinfo := info, status := s.status.failed e }

/-- An error a check reports, with its ERRINFO. -/
abbrev Err := ErrCode × Word

/-- One check of a rule: `if bad: raise e(info)`. -/
def failIf (bad : Bool) (e : ErrCode) (info : Word) : Option Err := if bad then some (e, info) else none

/-- The check `if not check_range(a, n): raise ERR_RANGE(a)` (R64). -/
def rangeCheck (s : State) (a : Word) (n : Nat) : Option Err := failIf (!checkRange s.plat a.toNat n) .range a

/-- The check of a forbidden overlap of `[src, src + n)` and `[DST, DST + m)`: `raise ERR_OVERLAP(DST)` (R65). -/
def overlapCheck (s : State) (n m : Nat) : Option Err :=
  failIf (overlap s.src.toNat n s.dst.toNat m) .overlap s.dst

/-- The first check that fails is the one reported (R252). -/
def firstErr : List (Option Err) → Option Err
  | [] => none
  | some e :: _ => some e
  | none :: cs => firstErr cs

/-- A command's end (R115): the first failing check completes it with that error and none of its writes; with no failing check it
completes with all of them. `effect` makes the rule's writes and the completion fields; every check is made before it (R115). -/
def conclude (checks : List (Option Err)) (effect : State → State) (s : State) : Out :=
  match firstErr checks with
  | some (e, info) => .next (raiseErr e info s)
  | none => .next (effect s)

end Sys2Proof.Machine
end

