-- ==== Sys2Proof/Machine/Operands.lean ====
section
/-! DEFINITION. The operands: the register window's map with the value each register reads as (`10_state.md` R22, R35;
`40_command.md` R110), the registers a host write changes (R111), and the fields a host script tests. -/

namespace Sys2Proof.Machine

/-- The identification value, ASCII "TCB1" (R22). ID is hard-wired: no write and no reset changes it. -/
def idValue : Word := 0x54434231#32

/-- The offset of each register in the window (R22). -/
def Reg.offset : Reg → Nat
  | .id => 0x000
  | .ctrl => 0x004
  | .status => 0x008
  | .cmd => 0x00C
  | .v0 => 0x010
  | .v1 => 0x014
  | .sum => 0x018
  | .k0 => 0x020
  | .k1 => 0x024
  | .k2 => 0x028
  | .k3 => 0x02C
  | .src => 0x030
  | .dst => 0x034
  | .len => 0x038
  | .pixcnt => 0x03C
  | .result => 0x040
  | .raddr => 0x044
  | .errinfo => 0x048
  | .mBiterrLo => 0x050
  | .mBiterrHi => 0x054
  | .mChgpix => 0x058
  | .mAbsdiffLo => 0x060
  | .mAbsdiffHi => 0x064
  | .mSqdiffLo => 0x068
  | .mSqdiffHi => 0x06C
  | .mLaLo => 0x070
  | .mLaHi => 0x074
  | .mLbLo => 0x078
  | .mLbHi => 0x07C
  | .mLalbLo => 0x080
  | .mLalbHi => 0x084
  | .mLa2Lo => 0x088
  | .mLa2Hi => 0x08C
  | .mLb2Lo => 0x090
  | .mLb2Hi => 0x094

/-- The register at an offset of the window; the other offsets are reserved (R22). -/
def regAt : Nat → Option Reg
  | 0x000 => some .id
  | 0x004 => some .ctrl
  | 0x008 => some .status
  | 0x00C => some .cmd
  | 0x010 => some .v0
  | 0x014 => some .v1
  | 0x018 => some .sum
  | 0x020 => some .k0
  | 0x024 => some .k1
  | 0x028 => some .k2
  | 0x02C => some .k3
  | 0x030 => some .src
  | 0x034 => some .dst
  | 0x038 => some .len
  | 0x03C => some .pixcnt
  | 0x040 => some .result
  | 0x044 => some .raddr
  | 0x048 => some .errinfo
  | 0x050 => some .mBiterrLo
  | 0x054 => some .mBiterrHi
  | 0x058 => some .mChgpix
  | 0x060 => some .mAbsdiffLo
  | 0x064 => some .mAbsdiffHi
  | 0x068 => some .mSqdiffLo
  | 0x06C => some .mSqdiffHi
  | 0x070 => some .mLaLo
  | 0x074 => some .mLaHi
  | 0x078 => some .mLbLo
  | 0x07C => some .mLbHi
  | 0x080 => some .mLalbLo
  | 0x084 => some .mLalbHi
  | 0x088 => some .mLa2Lo
  | 0x08C => some .mLa2Hi
  | 0x090 => some .mLb2Lo
  | 0x094 => some .mLb2Hi
  | _ => none

/-- Bits 31:0 of an accumulator (R22, R35). -/
def lowHalf (x : Acc) : Word := x.extractLsb' 0 32

/-- Bits 63:32 of an accumulator (R22, R35). -/
def highHalf (x : Acc) : Word := x.extractLsb' 32 32

/-- The current value of a register, formed field by field (R110). -/
def Reg.value (s : State) : Reg → Word
  | .id => idValue
  | .ctrl => ctrlWord s.ctrlIE
  | .status => s.status.toWord
  | .cmd => s.cmd
  | .v0 => s.v0
  | .v1 => s.v1
  | .sum => s.sum
  | .k0 => s.k0
  | .k1 => s.k1
  | .k2 => s.k2
  | .k3 => s.k3
  | .src => s.src
  | .dst => s.dst
  | .len => s.len
  | .pixcnt => s.pixcnt
  | .result => s.result
  | .raddr => s.raddr
  | .errinfo => s.errinfo
  | .mBiterrLo => lowHalf s.metrics.biterr
  | .mBiterrHi => highHalf s.metrics.biterr
  | .mChgpix => s.metrics.chgpix
  | .mAbsdiffLo => lowHalf s.metrics.absdiff
  | .mAbsdiffHi => highHalf s.metrics.absdiff
  | .mSqdiffLo => lowHalf s.metrics.sqdiff
  | .mSqdiffHi => highHalf s.metrics.sqdiff
  | .mLaLo => lowHalf s.metrics.la
  | .mLaHi => highHalf s.metrics.la
  | .mLbLo => lowHalf s.metrics.lb
  | .mLbHi => highHalf s.metrics.lb
  | .mLalbLo => lowHalf s.metrics.lalb
  | .mLalbHi => highHalf s.metrics.lalb
  | .mLa2Lo => lowHalf s.metrics.la2
  | .mLa2Hi => highHalf s.metrics.la2
  | .mLb2Lo => lowHalf s.metrics.lb2
  | .mLb2Hi => highHalf s.metrics.lb2

/-- The registers that read as usual while BUSY = 1; the others read an unspecified value then (R119). -/
def Reg.steady : Reg → Bool
  | .id | .ctrl | .status | .cmd | .src | .dst | .len | .pixcnt => true
  | .v0 | .v1 | .sum | .k0 | .k1 | .k2 | .k3 | .result | .raddr | .errinfo
  | .mBiterrLo | .mBiterrHi | .mChgpix | .mAbsdiffLo | .mAbsdiffHi | .mSqdiffLo | .mSqdiffHi
  | .mLaLo | .mLaHi | .mLbLo | .mLbHi | .mLalbLo | .mLalbHi | .mLa2Lo | .mLa2Hi | .mLb2Lo | .mLb2Hi => false

/-- An idle host write to a register that simply takes the value; a write to a read-only register has no effect (R20, R111).
CTRL, STATUS and CMD have effects of their own (`hostWriteReg`) and store nothing here. -/
def setOperand (r : Reg) (v : Word) (s : State) : State :=
  match r with
  | .v0 => { s with v0 := v }
  | .v1 => { s with v1 := v }
  | .sum => { s with sum := v }
  | .k0 => { s with k0 := v }
  | .k1 => { s with k1 := v }
  | .k2 => { s with k2 := v }
  | .k3 => { s with k3 := v }
  | .src => { s with src := v }
  | .dst => { s with dst := v }
  | .len => { s with len := v }
  | .pixcnt => { s with pixcnt := v }
  | .id | .ctrl | .status | .cmd | .result | .raddr | .errinfo
  | .mBiterrLo | .mBiterrHi | .mChgpix | .mAbsdiffLo | .mAbsdiffHi | .mSqdiffLo | .mSqdiffHi
  | .mLaLo | .mLaHi | .mLbLo | .mLbHi | .mLalbLo | .mLalbHi | .mLa2Lo | .mLa2Hi | .mLb2Lo | .mLb2Hi => s

/-- A field of a temporary, as a word (R23, R24, R90, R98). -/
def Field.get (w : Word) : Field → Word
  | .whole => w
  | .ie => (w.extractLsb' 0 1).setWidth 32
  | .busy => (w.extractLsb' 0 1).setWidth 32
  | .done => (w.extractLsb' 1 1).setWidth 32
  | .err => (w.extractLsb' 2 1).setWidth 32
  | .padbad => (w.extractLsb' 3 1).setWidth 32
  | .werr => (w.extractLsb' 4 1).setWidth 32
  | .errcode => (w.extractLsb' 8 8).setWidth 32
  | .opc => (w.extractLsb' 0 8).setWidth 32
  | .cnt => (w.extractLsb' 8 5).setWidth 32

end Sys2Proof.Machine
end

