-- ==== Sys2Proof/Machine/ByteCodec.lean ====
section
/-! DEFINITION. The byte codec family: KEY_LD, BLK_LD, BLK_ST, W_LD, W_ST (`41_bytecodec.md`). -/

namespace Sys2Proof.Machine

/-- How many key bytes KEY_LD reads: `min(LEN, 16)` (R140). -/
def keyLength (s : State) : Nat := min s.len.toNat 16

/-- The 16 key bytes: truncated, or padded on the right with zeros (R140). -/
def keyBytes (s : State) : List Byte :=
  readBytes s.mem s.src.toNat (keyLength s) ++ rep (16 - keyLength s) 0x00#8

/-- KEY_LD (R140). -/
def execKeyLd (s : State) : Out :=
  let kb := keyBytes s
  conclude [rangeCheck s s.src (keyLength s)]
    (fun s => complete false { s with k0 := be32 kb 0, k1 := be32 kb 4, k2 := be32 kb 8, k3 := be32 kb 12 }) s

/-- BLK_LD (R141). -/
def execBlkLd (s : State) : Out :=
  let b := readBytes s.mem s.src.toNat 8
  conclude [rangeCheck s s.src 8] (fun s => complete false { s with v0 := be32 b 0, v1 := be32 b 4 }) s

/-- BLK_ST (R142). -/
def execBlkSt (s : State) : Out :=
  conclude [rangeCheck s s.dst 8]
    (fun s => complete false { s with mem := writeBytes s.mem s.dst.toNat (bytes32 s.v0 ++ bytes32 s.v1) }) s

/-- W_LD (R143). -/
def execWLd (s : State) : Out :=
  conclude [rangeCheck s s.src 4] (fun s => complete false { s with v0 := be32 (readBytes s.mem s.src.toNat 4) 0 }) s

/-- W_ST (R144). -/
def execWSt (s : State) : Out :=
  conclude [rangeCheck s s.dst 4] (fun s => complete false { s with mem := writeBytes s.mem s.dst.toNat (bytes32 s.v0) }) s

end Sys2Proof.Machine
end

