-- ==== Sys2Proof/Machine/Control.lean ====
section
/-! DEFINITION. The control family: NOP (`40_command.md` R121). -/

namespace Sys2Proof.Machine

/-- NOP: `complete()` (R121). -/
def execNop (s : State) : Out := conclude [] (fun s => complete false s) s

end Sys2Proof.Machine
end

