-- ==== Sys2Proof/Machine/Framer.lean ====
section
/-! DEFINITION. The framer family: FR_WRAP, FR_UNWRAP (`45_framer.md`). -/

namespace Sys2Proof.Machine

/-- `inplace = (SRC = DST + 4)`, in exact arithmetic (R190). -/
def wrapInPlace (s : State) : Bool := decide (s.src.toNat = s.dst.toNat + 4)

/-- FR_WRAP (R190). -/
def execFrWrap (s : State) : Out :=
  let n := s.len.toNat
  conclude
    [rangeCheck s s.src n, rangeCheck s s.dst (n + 4),
     if wrapInPlace s then none else overlapCheck s n (n + 4)]
    (fun s => complete false { s with
      mem := writeBytes s.mem s.dst.toNat (bytes32 s.len ++ readBytes s.mem s.src.toNat n)
      result := BitVec.ofNat 32 (n + 4) }) s

/-- The length the header of a payload declares (R191). -/
def declaredLength (s : State) : Word := be32 (readBytes s.mem s.src.toNat 4) 0

/-- FR_UNWRAP (R191). -/
def execFrUnwrap (s : State) : Out :=
  let l := declaredLength s
  conclude
    [rangeCheck s s.src s.len.toNat, failIf (decide (s.len.toNat < 4)) .frame s.len,
     failIf (decide (s.len.toNat - 4 < l.toNat)) .frame l]
    (fun s => complete false { s with result := l, raddr := BitVec.ofNat 32 (s.src.toNat + 4) }) s

end Sys2Proof.Machine
end

