-- ==== Sys2Proof/Machine/Lsb.lean ====
section
/-! DEFINITION. The LSB codec family: LSB_CAP, LSB_EMBED, LSB_EXTRACT (`46_lsb.md`). -/

namespace Sys2Proof.Machine

/-- The address of the channel that holds embedded bit `i`: pixel `i div 3`, channel `i mod 3` (R200). -/
def chanAddr (base i : Nat) : Nat := base + 4 * (i / 3) + i % 3

/-- Bit `i` of a payload, most significant bit of each byte first (R200). -/
def payloadBit (s : List Byte) (i : Nat) : Bool := (s.getD (i / 8) 0#8).getLsbD (7 - i % 8)

/-- `capacity(P)` in bytes (R201). -/
def capacity (p : Nat) : Nat := 3 * p / 8

/-- A channel byte with its bit 0 replaced (R203). -/
def withLsb (c : Byte) (b : Bool) : Byte := (c &&& 0xFE#8) ||| (BitVec.ofBool b).setWidth 8

/-- Writing the bits `i` of the list, in its order, into their channels (R203). -/
def embedBits (base : Nat) (s : List Byte) (is : List Nat) (m : Memory) : Memory :=
  is.foldl (fun m i => m.write (chanAddr base i) (withLsb (m.read (chanAddr base i)) (payloadBit s i))) m

/-- The embedded bit `i` of the pixels at `base` (R204). -/
def stegoBit (m : Memory) (base i : Nat) : Bool := (m.read (chanAddr base i)).getLsbD 0

/-- `n` embedded bits from bit `i` on, as an unsigned number, most significant bit first (R204). -/
def stegoNumber (m : Memory) (base i n : Nat) : Nat :=
  ((List.range n).map fun b => (stegoBit m base (i + b)).toNat * 2 ^ (n - 1 - b)).sum

/-- The length `L` the embedded header declares (R204). -/
def stegoLength (m : Memory) (base : Nat) : Nat := stegoNumber m base 0 32

/-- The body: `n` bytes from embedded bit 32 on (R204). -/
def stegoBody (m : Memory) (base n : Nat) : List Byte :=
  (List.range n).map fun j => BitVec.ofNat 8 (stegoNumber m base (32 + 8 * j) 8)

/-- The whole bytes the pixels can hold behind the header: `avail` (R204). -/
def availBytes (p : Nat) : Nat := (3 * p - 32) / 8

/-- LSB_CAP (R202). -/
def execLsbCap (s : State) : Out :=
  conclude [] (fun s => complete false { s with result := BitVec.ofNat 32 (capacity s.pixcnt.toNat) }) s

/-- LSB_EMBED (R203). -/
def execLsbEmbed (s : State) : Out :=
  let p := s.pixcnt.toNat
  let n := s.len.toNat
  conclude
    [rangeCheck s s.src n, rangeCheck s s.dst (4 * p), overlapCheck s n (4 * p),
     failIf (decide (capacity p < n)) .capacity (BitVec.ofNat 32 (capacity p))]
    (fun s => complete false { s with
      mem := embedBits s.dst.toNat (readBytes s.mem s.src.toNat n) (List.range (8 * n)) s.mem
      result := s.len }) s

/-- LSB_EXTRACT (R204). -/
def execLsbExtract (s : State) : Out :=
  let p := s.pixcnt.toNat
  let l := stegoLength s.mem s.src.toNat
  conclude
    [rangeCheck s s.src (4 * p), failIf (decide (3 * p < 32)) .toosmall s.pixcnt,
     failIf (decide (l = 0) || decide (availBytes p < l)) .invlen (BitVec.ofNat 32 l),
     rangeCheck s s.dst (4 + l), overlapCheck s (4 * p) (4 + l)]
    (fun s => complete false { s with
      mem := writeBytes s.mem s.dst.toNat (bytes32 (BitVec.ofNat 32 l) ++ stegoBody s.mem s.src.toNat l)
      result := BitVec.ofNat 32 (4 + l) }) s

end Sys2Proof.Machine
end

