-- ==== Sys2Proof/Machine/Padding.lean ====
section
/-! DEFINITION. The padding family: PAD, UNPAD (`42_padding.md`). -/

namespace Sys2Proof.Machine

/-- `padLen` of a string of `n` bytes, 1 .. 8 (R150). -/
def padLength (n : Nat) : Nat := 8 - n % 8

/-- The padding of a string of `n` bytes: `rep(padLen, padLen)` (R150). -/
def padding (n : Nat) : List Byte := rep (padLength n) (BitVec.ofNat 8 (padLength n))

/-- `pad(s)` (R150). -/
def padBytes (s : List Byte) : List Byte := s ++ padding s.length

/-- `unpad(s)`: the unpadded string, or the string itself, and whether the padding is valid. It fails open (R152). -/
def unpadBytes (s : List Byte) : List Byte × Bool :=
  if s.length = 0 then (s, true)
  else
    let last := s.getD (s.length - 1) 0#8
    let p := last.toNat
    if p < 1 ∨ 8 < p then (s, false)
    else if s.length < p then (s, false)
    else if (s.drop (s.length - p)).all (· == last) then (s.take (s.length - p), true)
    else (s, false)

/-- PAD (R151). -/
def execPad (s : State) : Out :=
  let n := s.len.toNat
  conclude [rangeCheck s s.dst (n + padLength n)]
    (fun s => complete false { s with
      mem := writeBytes s.mem (s.dst.toNat + n) (padding n)
      result := BitVec.ofNat 32 (n + padLength n) }) s

/-- UNPAD (R153). -/
def execUnpad (s : State) : Out :=
  conclude [rangeCheck s s.src s.len.toNat]
    (fun s =>
      let u := unpadBytes (readBytes s.mem s.src.toNat s.len.toNat)
      complete (!u.2) { s with result := BitVec.ofNat 32 u.1.length }) s

end Sys2Proof.Machine
end

