-- ==== Sys2Proof/Machine/Tea.lean ====
section
/-! DEFINITION. The block cipher family: TEA_ENC, TEA_DEC, TEA_ERND, TEA_DRND, ZERO (`43_tea.md`). -/

namespace Sys2Proof.Machine

/-- The constant added to the sum every round (R160). -/
def delta : Word := 0x9E3779B9#32

/-- The sum a whole-block decryption starts from, `DELTA × 32 mod 2^32` (R160). -/
def decStart : Word := 0xC6EF3720#32

/-- The key words k[0] .. k[3] (R28). -/
structure Key where
  k0 : Word
  k1 : Word
  k2 : Word
  k3 : Word
  deriving DecidableEq, Repr

/-- What a round transforms: the block (v0, v1) and the running sum (R160). -/
structure TeaState where
  v0 : Word
  v1 : Word
  sum : Word
  deriving DecidableEq, Repr

/-- The key registers as a key. -/
def keyOf (s : State) : Key := ⟨s.k0, s.k1, s.k2, s.k3⟩

/-- `F(x, s, ka, kb)` (R160). -/
def teaF (x s ka kb : Word) : Word := ((x <<< 4) + ka) ^^^ (x + s) ^^^ ((x >>> 5) + kb)

/-- `enc_round`: the sum first, then v0, then v1 from the new v0 (R160). -/
def encRound (k : Key) (t : TeaState) : TeaState :=
  let s := t.sum + delta
  let v0 := t.v0 + teaF t.v1 s k.k0 k.k1
  let v1 := t.v1 + teaF v0 s k.k2 k.k3
  ⟨v0, v1, s⟩

/-- `dec_round`: v1 first, then v0 from the restored v1, the sum last (R160). -/
def decRound (k : Key) (t : TeaState) : TeaState :=
  let v1 := t.v1 - teaF t.v0 t.sum k.k2 k.k3
  let v0 := t.v0 - teaF v1 t.sum k.k0 k.k1
  ⟨v0, v1, t.sum - delta⟩

/-- `encryptBlock(v0, v1, k)`: 32 rounds from sum 0 (R160). -/
def encryptBlock (k : Key) (v0 v1 : Word) : Word × Word :=
  let t := (encRound k)^[32] ⟨v0, v1, 0#32⟩
  (t.v0, t.v1)

/-- `decryptBlock(v0, v1, k)`: 32 rounds from sum 0xC6EF3720 (R160). -/
def decryptBlock (k : Key) (v0 v1 : Word) : Word × Word :=
  let t := (decRound k)^[32] ⟨v0, v1, decStart⟩
  (t.v0, t.v1)

/-- The number of rounds a format-C command runs (R92). -/
def rounds (cnt : BitVec 5) : Nat := cnt.toNat + 1

/-- The registers V0, V1 and SUM as a round's state. -/
def teaOf (s : State) : TeaState := ⟨s.v0, s.v1, s.sum⟩

/-- TEA_ENC (R161). -/
def execTeaEnc (s : State) : Out :=
  let c := encryptBlock (keyOf s) s.v0 s.v1
  conclude [] (fun s => complete false { s with v0 := c.1, v1 := c.2 }) s

/-- TEA_DEC (R162). -/
def execTeaDec (s : State) : Out :=
  let p := decryptBlock (keyOf s) s.v0 s.v1
  conclude [] (fun s => complete false { s with v0 := p.1, v1 := p.2 }) s

/-- TEA_ERND (R163). -/
def execTeaErnd (cnt : BitVec 5) (s : State) : Out :=
  let t := (encRound (keyOf s))^[rounds cnt] (teaOf s)
  conclude [] (fun s => complete false { s with v0 := t.v0, v1 := t.v1, sum := t.sum }) s

/-- TEA_DRND (R164). -/
def execTeaDrnd (cnt : BitVec 5) (s : State) : Out :=
  let t := (decRound (keyOf s))^[rounds cnt] (teaOf s)
  conclude [] (fun s => complete false { s with v0 := t.v0, v1 := t.v1, sum := t.sum }) s

/-- ZERO (R165). -/
def execZero (s : State) : Out :=
  conclude [] (fun s => complete false
    { s with v0 := 0#32, v1 := 0#32, sum := 0#32, k0 := 0#32, k1 := 0#32, k2 := 0#32, k3 := 0#32 }) s

end Sys2Proof.Machine
end

