-- ==== Sys2Proof/Machine/Message.lean ====
section
/-! DEFINITION. The message cipher family: ECB_ENC, ECB_DEC, MSG_ENC, MSG_DEC (`44_message.md`). -/

namespace Sys2Proof.Machine

/-- One 8-byte block through a block function, big-endian in and out (R180). -/
def ecbBlock (f : Word → Word → Word × Word) (b : List Byte) : List Byte :=
  let r := f (be32 b 0) (be32 b 4)
  bytes32 r.1 ++ bytes32 r.2

/-- The first `n` blocks of a byte string, each through the block function on its own, concatenated (R180). -/
def ecbBlocks (f : Word → Word → Word × Word) : Nat → List Byte → List Byte
  | 0, _ => []
  | n + 1, s => ecbBlock f (s.take 8) ++ ecbBlocks f n (s.drop 8)

/-- `ecb_enc(s, k)` of a string of whole blocks (R180). -/
def ecbEnc (k : Key) (s : List Byte) : List Byte := ecbBlocks (encryptBlock k) (s.length / 8) s

/-- `ecb_dec(s, k)` of a string of whole blocks (R180). -/
def ecbDec (k : Key) (s : List Byte) : List Byte := ecbBlocks (decryptBlock k) (s.length / 8) s

/-- The overlap check of the message commands: in place, `SRC = DST`, is allowed (R65, R181 to R184). -/
def messageOverlap (s : State) (m : Nat) : Option Err :=
  if s.src = s.dst then none else overlapCheck s s.len.toNat m

/-- The checks of ECB_ENC, ECB_DEC and MSG_DEC, in their order (R181, R252). -/
def blockChecks (s : State) : List (Option Err) :=
  [rangeCheck s s.src s.len.toNat, rangeCheck s s.dst s.len.toNat, messageOverlap s s.len.toNat,
   failIf (s.len.toNat % 8 != 0) .blklen s.len]

/-- The bytes `[SRC, SRC + LEN)`. -/
def sourceBytes (s : State) : List Byte := readBytes s.mem s.src.toNat s.len.toNat

/-- ECB_ENC (R181). -/
def execEcbEnc (s : State) : Out :=
  conclude (blockChecks s)
    (fun s => complete false { s with
      mem := writeBytes s.mem s.dst.toNat (ecbEnc (keyOf s) (sourceBytes s))
      result := s.len }) s

/-- ECB_DEC (R182). -/
def execEcbDec (s : State) : Out :=
  conclude (blockChecks s)
    (fun s => complete false { s with
      mem := writeBytes s.mem s.dst.toNat (ecbDec (keyOf s) (sourceBytes s))
      result := s.len }) s

/-- The length of the padded plaintext: `N = LEN + 8 - (LEN mod 8)` (R183). -/
def paddedLength (n : Nat) : Nat := n + 8 - n % 8

/-- MSG_ENC (R183). -/
def execMsgEnc (s : State) : Out :=
  let n := paddedLength s.len.toNat
  conclude [rangeCheck s s.src s.len.toNat, rangeCheck s s.dst n, messageOverlap s n]
    (fun s => complete false { s with
      mem := writeBytes s.mem s.dst.toNat (ecbEnc (keyOf s) (padBytes (sourceBytes s)))
      result := BitVec.ofNat 32 n }) s

/-- MSG_DEC (R184): every decrypted byte is written, padding included; the padding decides RESULT and PADBAD alone. -/
def execMsgDec (s : State) : Out :=
  conclude (blockChecks s)
    (fun s =>
      let d := ecbDec (keyOf s) (sourceBytes s)
      let u := unpadBytes d
      complete (!u.2) { s with
        mem := writeBytes s.mem s.dst.toNat d
        result := BitVec.ofNat 32 u.1.length }) s

end Sys2Proof.Machine
end

