-- ==== Sys2Proof/Machine/MetricSums.lean ====
section
/-! DEFINITION. The metrics family: MET_DIFF, MET_HIST (`48_metrics.md`). -/

namespace Sys2Proof.Machine

/-- The luminance of a pixel, exact with ties upward (R230). -/
def lum (r g b : Byte) : Nat := (2126 * r.toNat + 7152 * g.toNat + 722 * b.toNat + 5000) / 10000

/-- The luminance of pixel `p` of the buffer at `base`. -/
def pixelLum (m : Memory) (base p : Nat) : Nat :=
  lum (m.read (base + 4 * p)) (m.read (base + 4 * p + 1)) (m.read (base + 4 * p + 2))

/-- `popcount8(b)` (R8). -/
def popcount8 (b : Byte) : Nat := ((List.range 8).map fun i => (b.getLsbD i).toNat).sum

/-- `|a - b|` of two channels (R231). -/
def channelDiff (a b : Byte) : Nat := (a.toNat - b.toNat) + (b.toNat - a.toNat)

/-- A sum over the pixels `0 .. P - 1`. -/
def sumPixels (p : Nat) (f : Nat → Nat) : Nat := ((List.range p).map f).sum

/-- A sum over the channels R, G, B of the pixels of two buffers; alpha is not read (R231). -/
def sumChannels (m : Memory) (a b p : Nat) (f : Byte → Byte → Nat) : Nat :=
  sumPixels p fun i => f (m.read (a + 4 * i)) (m.read (b + 4 * i))
    + f (m.read (a + 4 * i + 1)) (m.read (b + 4 * i + 1))
    + f (m.read (a + 4 * i + 2)) (m.read (b + 4 * i + 2))

/-- Whether a channel R, G or B of pixel `i` differs between two buffers (R231). -/
def pixelChanged (m : Memory) (a b i : Nat) : Bool :=
  m.read (a + 4 * i) != m.read (b + 4 * i) || m.read (a + 4 * i + 1) != m.read (b + 4 * i + 1)
    || m.read (a + 4 * i + 2) != m.read (b + 4 * i + 2)

/-- The accumulators of two buffers of `p` pixels at `a` (the reference) and `b` (the comparand), from exact integer sums
(R231). -/
def diffMetrics (m : Memory) (a b p : Nat) : Metrics where
  biterr := BitVec.ofNat 64 (sumChannels m a b p fun x y => popcount8 (x ^^^ y))
  chgpix := BitVec.ofNat 32 (sumPixels p fun i => (pixelChanged m a b i).toNat)
  absdiff := BitVec.ofNat 64 (sumChannels m a b p channelDiff)
  sqdiff := BitVec.ofNat 64 (sumChannels m a b p fun x y => channelDiff x y ^ 2)
  la := BitVec.ofNat 64 (sumPixels p fun i => pixelLum m a i)
  lb := BitVec.ofNat 64 (sumPixels p fun i => pixelLum m b i)
  lalb := BitVec.ofNat 64 (sumPixels p fun i => pixelLum m a i * pixelLum m b i)
  la2 := BitVec.ofNat 64 (sumPixels p fun i => pixelLum m a i ^ 2)
  lb2 := BitVec.ofNat 64 (sumPixels p fun i => pixelLum m b i ^ 2)

/-- The luminances of the pixels of a buffer. -/
def lumList (m : Memory) (base p : Nat) : List Nat := (List.range p).map (pixelLum m base)

/-- The 1024 bytes of the luminance histogram: 256 counts, big-endian (R232). -/
def histBytes (ls : List Nat) : List Byte := (List.range 256).flatMap fun j => bytes32 (BitVec.ofNat 32 (ls.count j))

/-- MET_DIFF (R231). -/
def execMetDiff (s : State) : Out :=
  let p := s.pixcnt.toNat
  conclude [rangeCheck s s.src (4 * p), rangeCheck s s.dst (4 * p)]
    (fun s => complete false { s with
      metrics := diffMetrics s.mem s.src.toNat s.dst.toNat p
      result := s.pixcnt }) s

/-- MET_HIST (R232). -/
def execMetHist (s : State) : Out :=
  let p := s.pixcnt.toNat
  conclude [rangeCheck s s.src (4 * p), rangeCheck s s.dst 1024, overlapCheck s (4 * p) 1024]
    (fun s => complete false { s with
      mem := writeBytes s.mem s.dst.toNat (histBytes (lumList s.mem s.src.toNat p))
      result := s.pixcnt }) s

end Sys2Proof.Machine
end

