-- ==== Sys2Proof/Machine/Dispatch.lean ====
section
/-! DEFINITION. What each command does to the state it completes in: one arm per constructor of `Instr`, one meaning per arm. -/

namespace Sys2Proof.Machine

def exec (i : Instr) (s : State) : Host.Outcome State Fault Refusal :=
  match i with
  | .nop => Sys2Proof.Machine.execNop s
  | .teaEnc => Sys2Proof.Machine.execTeaEnc s
  | .teaDec => Sys2Proof.Machine.execTeaDec s
  | .teaErnd cnt => Sys2Proof.Machine.execTeaErnd cnt s
  | .teaDrnd cnt => Sys2Proof.Machine.execTeaDrnd cnt s
  | .zero => Sys2Proof.Machine.execZero s
  | .keyLd => Sys2Proof.Machine.execKeyLd s
  | .blkLd => Sys2Proof.Machine.execBlkLd s
  | .blkSt => Sys2Proof.Machine.execBlkSt s
  | .wLd => Sys2Proof.Machine.execWLd s
  | .wSt => Sys2Proof.Machine.execWSt s
  | .pad => Sys2Proof.Machine.execPad s
  | .unpad => Sys2Proof.Machine.execUnpad s
  | .ecbEnc => Sys2Proof.Machine.execEcbEnc s
  | .ecbDec => Sys2Proof.Machine.execEcbDec s
  | .msgEnc => Sys2Proof.Machine.execMsgEnc s
  | .msgDec => Sys2Proof.Machine.execMsgDec s
  | .frWrap => Sys2Proof.Machine.execFrWrap s
  | .frUnwrap => Sys2Proof.Machine.execFrUnwrap s
  | .lsbCap => Sys2Proof.Machine.execLsbCap s
  | .lsbEmbed => Sys2Proof.Machine.execLsbEmbed s
  | .lsbExtract => Sys2Proof.Machine.execLsbExtract s
  | .metDiff => Sys2Proof.Machine.execMetDiff s
  | .metHist => Sys2Proof.Machine.execMetHist s

end Sys2Proof.Machine
end

