-- ==== Sys2Proof/Machine/Footprint.lean ====
section
/-! DEFINITION. The memory ranges each command reads and writes (`70_reset_and_hazards.md` R286, R287). -/

namespace Sys2Proof.Machine

/-- The ranges a command reads (R287). -/
def readRanges (i : Instr) (s : State) : List Range :=
  match i with
  | .nop | .teaEnc | .teaDec | .teaErnd _ | .teaDrnd _ | .zero | .lsbCap => []
  | .keyLd => [⟨s.src.toNat, keyLength s⟩]
  | .blkLd => [⟨s.src.toNat, 8⟩]
  | .wLd => [⟨s.src.toNat, 4⟩]
  | .blkSt | .wSt | .pad => []
  | .unpad | .ecbEnc | .ecbDec | .msgDec | .msgEnc | .frWrap | .frUnwrap => [⟨s.src.toNat, s.len.toNat⟩]
  | .lsbEmbed => [⟨s.src.toNat, s.len.toNat⟩, ⟨s.dst.toNat, 4 * s.pixcnt.toNat⟩]
  | .lsbExtract | .metHist => [⟨s.src.toNat, 4 * s.pixcnt.toNat⟩]
  | .metDiff => [⟨s.src.toNat, 4 * s.pixcnt.toNat⟩, ⟨s.dst.toNat, 4 * s.pixcnt.toNat⟩]

/-- The ranges a command writes (R287). -/
def writeRanges (i : Instr) (s : State) : List Range :=
  match i with
  | .nop | .teaEnc | .teaDec | .teaErnd _ | .teaDrnd _ | .zero | .lsbCap => []
  | .keyLd | .blkLd | .wLd | .unpad | .frUnwrap | .metDiff => []
  | .blkSt => [⟨s.dst.toNat, 8⟩]
  | .wSt => [⟨s.dst.toNat, 4⟩]
  | .pad => [⟨s.dst.toNat + s.len.toNat, padLength s.len.toNat⟩]
  | .ecbEnc | .ecbDec | .msgDec => [⟨s.dst.toNat, s.len.toNat⟩]
  | .msgEnc => [⟨s.dst.toNat, paddedLength s.len.toNat⟩]
  | .frWrap => [⟨s.dst.toNat, if wrapInPlace s then 4 else 4 + s.len.toNat⟩]
  | .lsbEmbed => [⟨s.dst.toNat, 4 * s.pixcnt.toNat⟩]
  | .lsbExtract => if 32 ≤ 3 * s.pixcnt.toNat then [⟨s.dst.toNat, 4 + availBytes s.pixcnt.toNat⟩] else []
  | .metHist => [⟨s.dst.toNat, 1024⟩]

/-- The footprint of the command in flight, before any check: empty while idle, and for an illegal word, which reads and writes
no memory (R96, R286). -/
def footprint (s : State) : List Range :=
  if s.status.busy then
    match decode s.cmd with
    | .ok i => readRanges i s ++ writeRanges i s
    | .error _ => []
  else []

/-- Whether the host must keep off an address (R286). -/
def hazard (s : State) (a : Nat) : Bool := (footprint s).any fun r => r.holds a

end Sys2Proof.Machine
end

