-- ==== Sys2Proof/Machine/Reset.lean ====
section
/-! DEFINITION. Completion of the word in flight, abort and reset (`40_command.md` R115; `70_reset_and_hazards.md` R280 to R282). -/

namespace Sys2Proof.Machine

/-- The completion of the command word latched in CMD: the command's own rule, or ERR_ILLEGAL with the word (R95, R96, R115). -/
def completeLatched (s : State) : Out :=
  match decode s.cmd with
  | .ok i => exec i s
  | .error _ => .next (raiseErr .illegal s.cmd s)

/-- The `n` bytes from `a` on of an aborted command's write footprint: each keeps its value at issue or takes the value the
successful completion would have written, a free draw per byte (R282, U2). `d` draws were made before. -/
def abortBytes (new : Memory) (d a : Nat) : Nat → Memory → Memory
  | 0, m => m
  | n + 1, m => abortBytes new (d + 1) (a + 1) n (if Config.takesNew d then m.write a (new.read a) else m)

/-- The ranges of the write footprint one after the other, with a fresh draw for each byte. -/
def abortRanges (new : Memory) : List Range → Memory × Nat → Memory × Nat
  | [], md => md
  | r :: rs, md => abortRanges new rs (abortBytes new md.2 r.start r.size md.1, md.2 + r.size)

/-- What an abort does to memory: nothing for a command that would have ended in an error (R282). -/
def abortMemory (s : State) : Memory × Nat :=
  match decode s.cmd with
  | .error _ => (s.mem, s.draws)
  | .ok i =>
    match exec i s with
    | .next t => if t.status.err then (s.mem, s.draws) else abortRanges t.mem (writeRanges i s) (s.mem, s.draws)
    | .fault _ | .refused _ => (s.mem, s.draws)

/-- Abort of the command in flight, if there is one (R280, R282). -/
def abort (s : State) : State :=
  if s.status.busy then
    let md := abortMemory s
    { s with mem := md.1, draws := md.2 }
  else s

/-- Every register of the block at its reset value (R22, R280). Buffer memory, the platform, the host and the schedule are not the
block's registers. -/
def resetRegisters (s : State) : State :=
  { State.powerOn s.plat s.mem with host := s.host, schedule := s.schedule, draws := s.draws }

/-- Hardware reset (R280). -/
def hardReset (s : State) : State := resetRegisters (abort s)

/-- Soft reset, a host write of 1 to CTRL.SRST: the same, idle or busy (R281). -/
def softReset (s : State) : State := hardReset s

end Sys2Proof.Machine
end

