-- ==== Sys2Proof/Machine/HostPort.lean ====
section
/-! DEFINITION. The host's accesses: registers (`40_command.md` R110, R111, R118, R119), the bus to the window (`20_memory.md` R61,
R67) and buffer memory (R60, R286). -/

namespace Sys2Proof.Machine

/-- A fresh unspecified word (U1). -/
def drawWord (s : State) : Word × State := (Config.freeWord s.draws, { s with draws := s.draws + 1 })

/-- A host read of a register or of a reserved offset: idle reads give the current value (R110), and so do the steady registers
while busy; the others give a fresh free value then (R119). Reserved offsets read 0 (R20). -/
def hostReadReg (r : Option Reg) (s : State) : Word × State :=
  match r with
  | none => (0#32, s)
  | some r => if s.status.busy && !r.steady then drawWord s else (r.value s, s)

/-- A host write of CTRL, idle or busy: SRST = 1 resets and discards the rest of the word, SRST = 0 sets IE (R23, R111, R118). -/
def writeCtrl (v : Word) (s : State) : State :=
  if v.getLsbD 1 then softReset s else { s with ctrlIE := v.getLsbD 0 }

/-- A host write of STATUS, idle or busy (R111, R118). -/
def writeStatus (v : Word) (s : State) : State := { s with status := s.status.writeOneClear v }

/-- A host write to any other offset: while busy it is ignored and sets WERR (R118); while idle, CMD issues the command (R113), the
operand registers take the value, and the rest has no effect (R111). -/
def writeOther (r : Option Reg) (v : Word) (s : State) : State :=
  if s.status.busy then { s with status := s.status.refusedWrite }
  else
    match r with
    | none => s
    | some .cmd => issue v s
    | some r => setOperand r v s

/-- A host write of a register or of a reserved offset (R111, R118). -/
def hostWriteReg (r : Option Reg) (v : Word) (s : State) : State :=
  match r with
  | some .ctrl => writeCtrl v s
  | some .status => writeStatus v s
  | r => writeOther r v s

/-- The size of the register window in bytes (R22). -/
def windowBytes : Nat := 256

/-- Where a bus access of `width` bytes at `addr` goes: past the window (no byte of it in the window, R67), to the register at an
offset (one aligned word), or to a bus error (R61). -/
inductive BusTarget where
  | outside
  | register (r : Option Reg)
  | busError
  deriving DecidableEq, Repr

/-- The target of a bus access (R61, R67). -/
def busTarget (p : Platform) (addr width : Nat) : BusTarget :=
  if overlap addr width p.regBase windowBytes then
    if width = 4 ∧ p.regBase ≤ addr ∧ (addr - p.regBase) % 4 = 0 then .register (regAt (addr - p.regBase)) else .busError
  else .outside

/-- A host write on the bus. -/
def busWrite (addr width : Nat) (v : Word) (s : State) : Out :=
  match busTarget s.plat addr width with
  | .register r => .next (hostWriteReg r v s)
  | .busError => .fault .registerAccess
  | .outside => .refused .outsideWindow

/-- A host read on the bus: the value read goes to `k`, which stores it. -/
def busRead (addr width : Nat) (k : Word → State → State) (s : State) : Out :=
  match busTarget s.plat addr width with
  | .register r => let vs := hostReadReg r s; .next (k vs.1 vs.2)
  | .busError => .fault .registerAccess
  | .outside => .refused .outsideWindow

/-- Whether a host access to the `n` bytes at `a` may be made: every byte exists (R60) and none is in the footprint of the command
in flight (R69, R286). -/
def hostAccessFault (s : State) (a n : Nat) : Option Fault :=
  if !checkRange s.plat a n then some .noSuchAddress
  else if (footprint s).any fun r => overlap a n r.start r.size then some .footprintHazard
  else none

/-- A host store to buffer memory (R98 `mw`). -/
def hostStore (a : Nat) (bs : List Byte) (s : State) : Out :=
  match hostAccessFault s a bs.length with
  | some f => .fault f
  | none => .next { s with mem := writeBytes s.mem a bs }

/-- A host load from buffer memory (R98 `mr`): the bytes go to `k`, which stores them. -/
def hostLoad (a n : Nat) (k : List Byte → State → State) (s : State) : Out :=
  match hostAccessFault s a n with
  | some f => .fault f
  | none => .next (k (readBytes s.mem a n) s)

end Sys2Proof.Machine
end

