-- ==== Sys2Proof/WellFormed.lean ====
section
/-! DEFINITION. The checks a term must pass to stand for something the spec describes: the platform's parameters (`00_scope.md`
R6), a command as the assembler spells it and a host script (`30_encoding.md` R98). Every term of `Instr` is well formed: its only
field is CNT, and "no value of CNT is illegal" (R92). -/

namespace Sys2Proof

/-- R6: `1 ≤ MEM_SIZE ≤ 2^32 - 1`. -/
def Platform.wf (p : Platform) : Bool := decide (1 ≤ p.memSize) && decide (p.memSize < 2 ^ 32)

namespace Machine

/-- Whether a command is of format C (R90). -/
def formatC : Instr → Bool
  | .teaErnd _ | .teaDrnd _ => true
  | .nop | .teaEnc | .teaDec | .zero | .keyLd | .blkLd | .blkSt | .wLd | .wSt | .pad | .unpad | .ecbEnc | .ecbDec
  | .msgEnc | .msgDec | .frWrap | .frUnwrap | .lsbCap | .lsbEmbed | .lsbExtract | .metDiff | .metHist => false

/-- R98: `cmd M` spells a format-N command, and `cmd M, n` a format-C command with `1 ≤ n ≤ 32`. -/
def Spelling.wf : Spelling → Bool
  | .plain i => !formatC i
  | .rounds _ n => decide (1 ≤ n) && decide (n ≤ 32)

/-- How often a script defines a label. -/
def labelCount (l : Label) (ss : List Stmt) : Nat := ss.countP (fun s => decide (s = .label l))

/-- The label a statement may jump to. -/
def Stmt.target? : Stmt → Option Label
  | .branch _ _ _ l | .goto l => some l
  | .wr _ _ | .rd _ _ | .cmd _ | .mw _ _ | .mr _ _ _ | .label _ | .halt | .busWr _ _ _ | .busRd _ _ _ => none

/-- R98: every label a script jumps to, it defines exactly once. -/
def scriptWf (ss : List Stmt) : Bool :=
  ss.all fun s => match s.target? with
    | none => true
    | some l => labelCount l ss == 1

end Machine

end Sys2Proof
end

