-- ==== Sys2Proof/Machine/HostAgent.lean ====
section
/-! DEFINITION. The host agent: one statement of its script per turn (`30_encoding.md` R98), and the assembler with the expansions
of the pseudo-instructions (R99). -/

namespace Sys2Proof.Machine

/-- The value of a key in a list of named values. -/
def lookupTemp {α : Type} (t : Temp) : List (Temp × α) → Option α
  | [] => none
  | (t', v) :: l => if t = t' then some v else lookupTemp t l

/-- Assign a value to a key: in its place if it has one, else at the end. -/
def assignTemp {α : Type} (t : Temp) (v : α) : List (Temp × α) → List (Temp × α)
  | [] => [(t, v)]
  | (t', v') :: l => if t = t' then (t, v) :: l else (t', v') :: assignTemp t v l

/-- Store a value in a host temporary, in place of the one it held, word or byte string (DESIGN CHOICE, log 18). -/
def setTemp (t : Temp) (v : TempVal) (s : State) : State :=
  { s with host := { s.host with temps := assignTemp t v s.host.temps } }

/-- The word a host temporary holds. One that nothing has assigned has no stated value (log 8), and neither has, as a word, one that
holds a byte string of `mr` (log 18): both give a free draw. -/
def readTemp (t : Temp) (s : State) : Word × State :=
  match lookupTemp t s.host.temps with
  | some (.word w) => (w, s)
  | some (.bytes _) | none => drawWord s

/-- A value of a host statement, computed mod 2^32 (R98). -/
def evalVal (v : Val) (s : State) : Word × State :=
  match v with
  | .const w => (w, s)
  | .temp t => readTemp t s
  | .plus t w => let r := readTemp t s; (r.1 + w, r.2)
  | .minus t w => let r := readTemp t s; (r.1 - w, r.2)

/-- Whether the condition of an `if` holds of a field's value `x` (R98). -/
def evalCond (c : Cond) (x : Word) (s : State) : Bool × State :=
  match c with
  | .nonzero => (x != 0#32, s)
  | .eq v => let r := evalVal v s; (x == r.1, r.2)
  | .ne v => let r := evalVal v s; (x != r.1, r.2)

/-- On to the next statement. -/
def advance (s : State) : State := { s with host := { s.host with pc := s.host.pc + 1 } }

/-- The index of a label in a script. -/
def labelIndex (l : Label) (ss : List Stmt) : Option Nat := ss.findIdx? fun st => decide (st = .label l)

/-- A jump to a label of the script: to its first place, and refused where it has none (DESIGN CHOICE, log 13). -/
def jumpTo (l : Label) (s : State) : Out :=
  match labelIndex l s.host.script with
  | some k => .next { s with host := { s.host with pc := k } }
  | none => .refused .noSuchLabel

/-- One host statement (R98). -/
def execStmt (st : Stmt) (s : State) : Out :=
  match st with
  | .wr r v => let w := evalVal v s; busWrite (s.plat.regBase + r.offset) 4 w.1 (advance w.2)
  | .rd r t => busRead (s.plat.regBase + r.offset) 4 (fun w => setTemp t (.word w)) (advance s)
  | .cmd i => busWrite (s.plat.regBase + Reg.cmd.offset) 4 (encode i) (advance s)
  | .mw a bs => let x := evalVal a s; hostStore x.1.toNat bs (advance x.2)
  | .mr a n t =>
    let x := evalVal a s
    let y := evalVal n x.2
    hostLoad x.1.toNat y.1.toNat (fun bs => setTemp t (.bytes bs)) (advance y.2)
  | .label _ => .next (advance s)
  | .branch t f c l =>
    let w := readTemp t s
    let b := evalCond c (f.get w.1) w.2
    if b.1 then jumpTo l b.2 else .next (advance b.2)
  | .goto l => jumpTo l s
  | .halt => .next s
  | .busWr addr width v => let w := evalVal v s; busWrite addr width w.1 (advance w.2)
  | .busRd addr width t => busRead addr width (fun w => setTemp t (.word w)) (advance s)

/-- One turn of the host: its next statement; a script that has ended does nothing more (R98 `halt`, R289;
log 15). -/
def hostTurn (s : State) : Out :=
  match s.host.script[s.host.pc]? with
  | some st => execStmt st s
  | none => .next s

/-- One turn of the block: the completion step, enabled whenever BUSY = 1 (R21, R120, R290). -/
def blockTurn (s : State) : Out := if s.status.busy then completeLatched s else .next s

/-! ## The assembler -/

/-- The command a spelling stands for (R98). -/
def assembleCommand : Spelling → Except AsmReject Instr
  | .plain i => if formatC i then .error .missingCount else .ok i
  | .rounds op n =>
    if 1 ≤ n ∧ n ≤ 32 then
      match op with
      | .ernd => .ok (.teaErnd (BitVec.ofNat 5 (n - 1)))
      | .drnd => .ok (.teaDrnd (BitVec.ofNat 5 (n - 1)))
    else .error .roundCount

/-- `wait`, with the label local to its expansion (R99). -/
def waitStmts (k : Nat) : List Stmt :=
  [.label (.inside k), .rd .status .scratch, .branch .scratch .busy .nonzero (.inside k)]

/-- `cmd M ; wait` (R99). -/
def runStmts (k : Nat) (i : Instr) : List Stmt := .cmd i :: waitStmts k

/-- The statements of the `k`-th line of source (R99). -/
def expand (k : Nat) : Asm → Except AsmReject (List Stmt)
  | .stmt s => .ok [s]
  | .cmd c => (assembleCommand c).map fun i => [.cmd i]
  | .wait => .ok (waitStmts k)
  | .run c => (assembleCommand c).map (runStmts k)
  | .ok => .ok [.rd .status .scratch, .branch .scratch .errcode (.ne (.const 0#32)) .fail]
  | .setblk a b => .ok [.wr .v0 a, .wr .v1 b]
  | .setkey a b c d => .ok [.wr .k0 a, .wr .k1 b, .wr .k2 c, .wr .k3 d]
  | .ack => .ok [.wr .status (.const 0x00000012#32)]
  | .teaEnc => .ok (runStmts k .teaEnc)
  | .teaDec => .ok (runStmts k .teaDec)

/-- The script of a source whose first line has number `k`. -/
def assembleFrom (k : Nat) : List Asm → Except AsmReject (List Stmt)
  | [] => .ok []
  | a :: as =>
    match expand k a, assembleFrom (k + 1) as with
    | .ok ss, .ok rest => .ok (ss ++ rest)
    | .error e, _ => .error e
    | .ok _, .error e => .error e

/-- The script of a source (R98, R99). -/
def assemble (as : List Asm) : Except AsmReject (List Stmt) := assembleFrom 0 as

/-- The machine with a script loaded and the host at its first statement (log 5). -/
def loadScript (ss : List Stmt) (s : State) : State := { s with host := ⟨ss, 0, []⟩ }

end Sys2Proof.Machine
end

