-- ==== Sys2Proof/Machine/Step.lean ====
section
/-! DEFINITION. One step of the machine: one turn of one agent (`10_state.md` R21; `60_exceptions.md` R257). -/

namespace Sys2Proof.Machine

/-- The agent that moves next when the schedule names none: the block if a command is in flight, else the host (log 2). -/
def defaultTurn (s : State) : Turn := if s.status.busy then .block else .host

/-- The turn of the next step (log 2). -/
def nextTurn (s : State) : Turn := s.schedule.headD (defaultTurn s)

/-- The state with the next turn taken off the schedule. -/
def tick (s : State) : State := { s with schedule := s.schedule.tail }

/-- One agent's turn. -/
def takeTurn (t : Turn) (s : State) : Out :=
  match t with
  | .host => hostTurn s
  | .block => blockTurn s
  | .hardReset => .next (hardReset s)

/-- One step. -/
def step (s : State) : Host.Outcome State Fault Refusal := takeTurn (nextTurn s) (tick s)

/-- The state in which the very next step completes the given command word: the word issued by a write to CMD (R113), and the block
scheduled to move next. The block fetches nothing from memory (R72), so nothing else changes. -/
def State.withFetchWord (s : State) (nbits w : Nat) : State :=
  let t := issue (BitVec.ofNat 32 (w % 2 ^ nbits)) s
  { t with schedule := .block :: s.schedule }

end Sys2Proof.Machine
end

