-- ==== Sys2Proof/Laws/PerInstr.lean ====
section
/-! SUPPORT. The per-instruction family `RoundTrip`: the encoding of each command decodes to it. -/

namespace Sys2Proof.Laws.RoundTrip

/-- The word of a command decodes to that command, with its CNT. -/
def Statement (i : Instr) : Prop := decode (encode i) = .ok i

theorem nop : Statement .nop := by unfold Statement; decide
theorem teaEnc : Statement .teaEnc := by unfold Statement; decide
theorem teaDec : Statement .teaDec := by unfold Statement; decide
theorem teaErnd (cnt : BitVec 5) : Statement (.teaErnd cnt) := by unfold Statement; decide +revert +kernel
theorem teaDrnd (cnt : BitVec 5) : Statement (.teaDrnd cnt) := by unfold Statement; decide +revert +kernel
theorem zero : Statement .zero := by unfold Statement; decide
theorem keyLd : Statement .keyLd := by unfold Statement; decide
theorem blkLd : Statement .blkLd := by unfold Statement; decide
theorem blkSt : Statement .blkSt := by unfold Statement; decide
theorem wLd : Statement .wLd := by unfold Statement; decide
theorem wSt : Statement .wSt := by unfold Statement; decide
theorem pad : Statement .pad := by unfold Statement; decide
theorem unpad : Statement .unpad := by unfold Statement; decide
theorem ecbEnc : Statement .ecbEnc := by unfold Statement; decide
theorem ecbDec : Statement .ecbDec := by unfold Statement; decide
theorem msgEnc : Statement .msgEnc := by unfold Statement; decide
theorem msgDec : Statement .msgDec := by unfold Statement; decide
theorem frWrap : Statement .frWrap := by unfold Statement; decide
theorem frUnwrap : Statement .frUnwrap := by unfold Statement; decide
theorem lsbCap : Statement .lsbCap := by unfold Statement; decide
theorem lsbEmbed : Statement .lsbEmbed := by unfold Statement; decide
theorem lsbExtract : Statement .lsbExtract := by unfold Statement; decide
theorem metDiff : Statement .metDiff := by unfold Statement; decide
theorem metHist : Statement .metHist := by unfold Statement; decide

end Sys2Proof.Laws.RoundTrip
end

