-- ==== Sys2Proof/Safety.lean ====
section
/-! DEFINITION. What claims call a sound state and a run of the machine. -/

namespace Sys2Proof.Machine

/-- Every byte the memory lists has an address that exists (`20_memory.md` R60). -/
def Memory.inside (p : Platform) (m : Memory) : Bool := m.all fun c => decide (c.1 < p.memSize)

/-- A sound state: the platform's parameters are in range (R6), memory is canonical and holds no byte outside its address space
(R60), STATUS.ERRCODE is a code the block produces (R250, U13), a busy block shows no outcome yet (R113), PADBAD is never set
beside an error (R24), and an idle block without an error code has no error detail (R34). -/
structure State.Inv (s : State) : Prop where
  platform : s.plat.wf = true
  canonical : Memory.wf s.mem = true
  inside : Memory.inside s.plat s.mem = true
  knownCode : s.status.errcode.toNat ≤ 8
  busyClean : s.status.busy = true → s.status.done = false ∧ s.status.padbad = false ∧ s.status.errcode = 0#8
  padNoError : s.status.padbad = true → s.status.errcode = 0#8
  quietDetail : s.status.busy = false → s.status.errcode = 0#8 → s.errinfo = 0#32

/-- The bounds of R35 on the accumulators, for `p` pixels. -/
structure Metrics.Within (m : Metrics) (p : Nat) : Prop where
  biterr : m.biterr.toNat ≤ 24 * p
  chgpix : m.chgpix.toNat ≤ p
  absdiff : m.absdiff.toNat ≤ 765 * p
  sqdiff : m.sqdiff.toNat ≤ 195075 * p
  la : m.la.toNat ≤ 255 * p
  lb : m.lb.toNat ≤ 255 * p
  lalb : m.lalb.toNat ≤ 65025 * p
  la2 : m.la2.toNat ≤ 65025 * p
  lb2 : m.lb2.toNat ≤ 65025 * p

/-- The states the machine can pass through from `s`, in any number of steps that each answer a next state. -/
inductive Reaches (s : State) : State → Prop where
  | here : Reaches s s
  | step {t u : State} : Reaches s t → step t = .next u → Reaches s u

/-- A safe run: from `s`, however many steps are made, no step is a host fault (R61, R286). -/
def SafeFrom (s : State) : Prop := ∀ t, Reaches s t → ∀ f, step t ≠ .fault f

end Sys2Proof.Machine
end

