-- ==== Sys2Proof/Certificates/Slice0/Obligations.lean ====
section
/-! DEFINITION. The statements for the provers. Each holds for every state, also one that no run reaches, under the hypotheses it
names: `Memory.wf` (memory in its canonical form) where memory is written, `Platform.wf` where a length must fit in 32 bits. -/

namespace Sys2Proof.Spec

open Sys2Proof.Machine

/-- The state a successful completion leaves, given the state with the rule's own writes (`40_command.md` R116). -/
def afterSuccess (padbad : Bool) (s : State) : State :=
  { s with errinfo := 0#32, status := ⟨false, true, padbad, s.status.werr, 0#8⟩ }

/-- The state an error completion leaves (`40_command.md` R117). -/
def afterError (code : BitVec 8) (info : Word) (s : State) : State :=
  { s with errinfo := info, status := ⟨false, true, false, s.status.werr, code⟩ }

/-- `check_range(a, n)` holds (`20_memory.md` R64). -/
abbrev Fits (s : State) (a n : Nat) : Prop := n = 0 ∨ a + n ≤ s.plat.memSize

/-- `overlap(a, n, b, m)` holds (`20_memory.md` R65). -/
abbrev Shares (a n b m : Nat) : Prop := 0 < n ∧ 0 < m ∧ a < b + m ∧ b < a + n

/-- The big-endian word at an address (`20_memory.md` R62). -/
def wordAt (m : Memory) (a : Nat) : Word := m.read a ++ m.read (a + 1) ++ m.read (a + 2) ++ m.read (a + 3)

/-- Every byte outside `[a, a + n)` reads as before. -/
def SameOutside (m m' : Memory) (a n : Nat) : Prop := ∀ x, x < a ∨ a + n ≤ x → m'.read x = m.read x

/-- The length of the padded form of `n` bytes, `n + 8 - (n mod 8)` (`42_padding.md` R150). -/
abbrev padded (n : Nat) : Nat := n + (8 - n % 8)

/-- The message commands' ranges are apart, or the command runs in place (`44_message.md` R181 to R184). -/
abbrev ApartOrInPlace (s : State) (n m : Nat) : Prop := s.src = s.dst ∨ ¬ Shares s.src.toNat n s.dst.toNat m

/-- The last `p` of the `n` bytes at `a` are a valid padding of length `p` (`42_padding.md` R152). -/
def PaddingOf (m : Memory) (a n p : Nat) : Prop :=
  1 ≤ p ∧ p ≤ 8 ∧ p ≤ n ∧ ∀ i < p, m.read (a + n - 1 - i) = BitVec.ofNat 8 p

/-- What `unpad` says of the `n` bytes at `a` (`42_padding.md` R152): the unpadded length `r`, and whether the padding is bad. -/
def Unpads (m : Memory) (a n : Nat) (r : Word) (bad : Bool) : Prop :=
  (n = 0 → r.toNat = 0 ∧ bad = false)
    ∧ (∀ p, PaddingOf m a n p → r.toNat = n - p ∧ bad = false)
    ∧ (0 < n → (∀ p, ¬ PaddingOf m a n p) → r.toNat = n ∧ bad = true)

/-- Embedded bit `i` of the pixels at `base` (`46_lsb.md` R200). -/
def lsbAt (m : Memory) (base i : Nat) : Bool := (m.read (base + 4 * (i / 3) + i % 3)).getLsbD 0

/-- The header of the pixels at `base`: 32 embedded bits, big-endian, unsigned (`46_lsb.md` R204). -/
def headerAt (m : Memory) (base : Nat) : Nat := ∑ i ∈ Finset.range 32, (lsbAt m base i).toNat * 2 ^ (31 - i)

/-- The luminance of the pixel at `a`, as `48_metrics.md` R230 writes it. -/
def lumAt (m : Memory) (a : Nat) : Nat :=
  (2126 * (m.read a).toNat + 7152 * (m.read (a + 1)).toNat + 722 * (m.read (a + 2)).toNat + 5000) / 10000

/-- The registers a host write sets while the block is idle (`40_command.md` R111). -/
def writable : List Reg := [.v0, .v1, .sum, .k0, .k1, .k2, .k3, .src, .dst, .len, .pixcnt]

/-- The registers that read as usual while the block is busy (`40_command.md` R119). -/
def steadyRegs : List Reg := [.id, .ctrl, .status, .cmd, .src, .dst, .len, .pixcnt]

/-- The error codes each command can end in, ERR_ILLEGAL apart (`60_exceptions.md` R251). -/
def possibleCodes : Instr → List (BitVec 8)
  | .nop | .teaEnc | .teaDec | .teaErnd _ | .teaDrnd _ | .zero | .lsbCap => []
  | .keyLd | .blkLd | .wLd | .unpad | .blkSt | .wSt | .pad | .metDiff => [0x02]
  | .ecbEnc | .ecbDec | .msgDec => [0x02, 0x03, 0x04]
  | .msgEnc | .frWrap | .metHist => [0x02, 0x03]
  | .frUnwrap => [0x02, 0x08]
  | .lsbEmbed => [0x02, 0x03, 0x05]
  | .lsbExtract => [0x02, 0x03, 0x06, 0x07]

/-- The bits of a byte at an index of the key string, zero past its end (`41_bytecodec.md` R140). -/
def keyByte (s : State) (j : Nat) : Byte := if j < s.len.toNat then s.mem.read (s.src.toNat + j) else 0#8

/-- Byte `j` of the padded plaintext of MSG_ENC (`42_padding.md` R150, `44_message.md` R183). -/
def paddedByte (s : State) (j : Nat) : Byte :=
  if j < s.len.toNat then s.mem.read (s.src.toNat + j) else BitVec.ofNat 8 (8 - s.len.toNat % 8)

/-- The big-endian word of four padded plaintext bytes from `j` on. -/
def paddedWord (s : State) (j : Nat) : Word :=
  paddedByte s j ++ paddedByte s (j + 1) ++ paddedByte s (j + 2) ++ paddedByte s (j + 3)

/-- Each 8-byte block at `b` in `m'` is the block function of the block at `a` in `m` (`44_message.md` R180). -/
def BlocksThrough (f : Word → Word → Word × Word) (m m' : Memory) (a b n : Nat) : Prop :=
  ∀ j, 8 * j < n → (wordAt m' (b + 8 * j), wordAt m' (b + 8 * j + 4)) = f (wordAt m (a + 8 * j)) (wordAt m (a + 8 * j + 4))

/-- The named offsets of the window, with the register each holds, as the table of `10_state.md` R22 lists them. -/
def windowMap : List (Nat × Reg) :=
  [(0x000, .id), (0x004, .ctrl), (0x008, .status), (0x00C, .cmd), (0x010, .v0), (0x014, .v1), (0x018, .sum)]
  ++ [(0x020, .k0), (0x024, .k1), (0x028, .k2), (0x02C, .k3), (0x030, .src), (0x034, .dst), (0x038, .len), (0x03C, .pixcnt)]
  ++ [(0x040, .result), (0x044, .raddr), (0x048, .errinfo), (0x050, .mBiterrLo), (0x054, .mBiterrHi), (0x058, .mChgpix)]
  ++ [(0x060, .mAbsdiffLo), (0x064, .mAbsdiffHi), (0x068, .mSqdiffLo), (0x06C, .mSqdiffHi), (0x070, .mLaLo), (0x074, .mLaHi),
    (0x078, .mLbLo), (0x07C, .mLbHi)]
  ++ [(0x080, .mLalbLo), (0x084, .mLalbHi), (0x088, .mLa2Lo), (0x08C, .mLa2Hi), (0x090, .mLb2Lo), (0x094, .mLb2Hi)]

/-- The reserved offsets of the window (`10_state.md` R22). -/
abbrev ReservedOffset (o : Nat) : Prop := o = 0x01C ∨ o = 0x04C ∨ o = 0x05C ∨ (0x098 ≤ o ∧ o ≤ 0x0FC ∧ o % 4 = 0)

/-- Address `x` lies in `[a, a + n)`. -/
abbrev Within (x a n : Nat) : Prop := a ≤ x ∧ x < a + n

/-- Address `x` lies in a range the command reads, by the table of `70_reset_and_hazards.md` R287. -/
def ReadsAt (s : State) (x : Nat) : Instr → Prop
  | .nop | .teaEnc | .teaDec | .teaErnd _ | .teaDrnd _ | .zero | .lsbCap | .blkSt | .wSt | .pad => False
  | .keyLd => Within x s.src.toNat (min s.len.toNat 16)
  | .blkLd => Within x s.src.toNat 8
  | .wLd => Within x s.src.toNat 4
  | .unpad | .ecbEnc | .ecbDec | .msgEnc | .msgDec | .frWrap | .frUnwrap => Within x s.src.toNat s.len.toNat
  | .lsbEmbed => Within x s.src.toNat s.len.toNat ∨ Within x s.dst.toNat (4 * s.pixcnt.toNat)
  | .lsbExtract | .metHist => Within x s.src.toNat (4 * s.pixcnt.toNat)
  | .metDiff => Within x s.src.toNat (4 * s.pixcnt.toNat) ∨ Within x s.dst.toNat (4 * s.pixcnt.toNat)

/-- Address `x` lies in the range the command writes, by the table of `70_reset_and_hazards.md` R287. -/
def WritesAt (s : State) (x : Nat) : Instr → Prop
  | .nop | .teaEnc | .teaDec | .teaErnd _ | .teaDrnd _ | .zero | .lsbCap | .keyLd | .blkLd | .wLd | .unpad | .frUnwrap
  | .metDiff => False
  | .blkSt => Within x s.dst.toNat 8
  | .wSt => Within x s.dst.toNat 4
  | .pad => Within x (s.dst.toNat + s.len.toNat) (8 - s.len.toNat % 8)
  | .ecbEnc | .ecbDec | .msgDec => Within x s.dst.toNat s.len.toNat
  | .msgEnc => Within x s.dst.toNat (padded s.len.toNat)
  | .frWrap => Within x s.dst.toNat (if s.src.toNat = s.dst.toNat + 4 then 4 else 4 + s.len.toNat)
  | .lsbEmbed => Within x s.dst.toNat (4 * s.pixcnt.toNat)
  | .lsbExtract => 32 ≤ 3 * s.pixcnt.toNat ∧ Within x s.dst.toNat (4 + (3 * s.pixcnt.toNat - 32) / 8)
  | .metHist => Within x s.dst.toNat 1024

/-- The host temporary `t` holds the word `w`. -/
abbrev HoldsWord (s : State) (t : Temp) (w : Word) : Prop := lookupTemp t s.host.temps = some (.word w)

/-- `w` is the value of `v`, whose temporary, if it has one, holds a word (`30_encoding.md` R98). -/
def ValueIs (s : State) (w : Word) : Val → Prop
  | .const c => w = c
  | .temp t => HoldsWord s t w
  | .plus t c => ∃ x, HoldsWord s t x ∧ w = x + c
  | .minus t c => ∃ x, HoldsWord s t x ∧ w = x - c

/-- The temporaries `l'` are `l` with `y` assigned to `t`. -/
def Assigned (t : Temp) (y : TempVal) (l l' : List (Temp × TempVal)) : Prop :=
  lookupTemp t l' = some y ∧ ∀ t', t' ≠ t → lookupTemp t' l' = lookupTemp t' l

/-- The host goes on at the label `l` of its script, or is refused where the script defines none (log 13). -/
def Jumps (s : State) (l : Label) (o : Out) : Prop :=
  (∀ k, labelIndex l s.host.script = some k → o = .next { s with host := { s.host with pc := k } })
    ∧ (labelIndex l s.host.script = none → o = .refused .noSuchLabel)

end Sys2Proof.Spec

open Sys2Proof Sys2Proof.Machine Sys2Proof.Spec

/-! ## Encoding -/

/-- Words written from R94 decode to their commands, and three illegal ones are refused. -/
def Obligations.ListedWordsDecode : Prop :=
  [0x00000000#32, 0x00000002#32, 0x00001E03#32, 0x00000104#32, 0x0000000C#32, 0x00000011#32, 0x0000001B#32, 0x00000020#32,
   0x0000002A#32, 0x00000031#32, 0x00000007#32, 0x00000108#32, 0x00004003#32].map decode
    = [.ok .nop, .ok .teaDec, .ok (.teaErnd 30#5), .ok (.teaDrnd 1#5), .ok .wSt, .ok .unpad, .ok .msgDec, .ok .frWrap,
       .ok .lsbExtract, .ok .metHist, .error .unassignedOpcode, .error .reservedBits, .error .reservedBits]

/-- Decode and encode agree, both ways: a word decodes to a command exactly when it is that command's encoding. -/
def Obligations.DecodeEncodeAgree : Prop := ∀ (w : Word) (i : Instr), decode w = .ok i ↔ w = encode i

/-- R95: the decoder accepts for a row of the opcode table exactly the words with `w & mask = match`, and no word is accepted by
two rows. -/
def Obligations.DecoderIsTheOpcodeTable : Prop :=
  (∀ w, ∀ r ∈ opcodeRows, r.accepts w = true ↔ ∃ i, decode w = .ok i ∧ mnemonic i = r.mnemonic)
    ∧ ∀ w, ∀ r ∈ opcodeRows, ∀ r' ∈ opcodeRows, r.accepts w = true → r'.accepts w = true → r = r'

/-! ## A step, and the lifecycle of a command -/

/-- R115: a step in which a busy block moves completes the command latched in CMD. That the block moves first when the schedule is
empty is the model's choice (log 2). The last clause is about the model's own `withFetchWord` (log 5, DESIGN CHOICE): it issues a
word, whatever BUSY is (a host write to CMD of a busy block is refused, R118, but this is no host write), and schedules the block;
the word is the one that runs, and runs with STATUS as an issue leaves it (R113). -/
def Obligations.StepRunsTheWordInFlight : Prop :=
  (∀ s i, s.status.busy = true → decode s.cmd = .ok i →
    (∀ rest, s.schedule = .block :: rest → step s = exec i { s with schedule := rest })
      ∧ (s.schedule = [] → step s = exec i s))
  ∧ ∀ (s : State) (w : Word) i, decode w = .ok i →
      step (s.withFetchWord 32 w.toNat) = exec i { s with cmd := w, status := ⟨true, false, false, s.status.werr, 0#8⟩ }

/-- R113: issue latches the word, legal or not, sets BUSY, clears DONE, ERRCODE and PADBAD, and keeps every other register; the
interrupt output falls. -/
def Obligations.IssueLatchesTheCommand : Prop :=
  ∀ (w : Word) (s : State), s.status.busy = false →
    hostWriteReg (some .cmd) w s = { s with cmd := w, status := ⟨true, false, false, s.status.werr, 0#8⟩ }
      ∧ (hostWriteReg (some .cmd) w s).irq = false

/-- R96: a word no row of the table accepts is issued all the same, and then completes with ERR_ILLEGAL and the word as its
detail, changing nothing else. -/
def Obligations.IllegalWordsCompleteWithErrIllegal : Prop :=
  ∀ (w : Word) (s : State), s.status.busy = false → (∀ r ∈ opcodeRows, r.accepts w = false) →
    (hostWriteReg (some .cmd) w s).status.busy = true
      ∧ blockTurn (hostWriteReg (some .cmd) w s) = .next (afterError 0x01#8 w { s with cmd := w })

/-- R115, R120: every command completes, in one step of the block, and leaves it idle and DONE. -/
def Obligations.EveryCommandCompletes : Prop :=
  ∀ i s, ∃ t, exec i s = .next t ∧ t.status.busy = false ∧ t.status.done = true

/-- R117: an error completion writes the code, the detail and the completion fields, so that ERR reads 1 and the block is idle;
memory and every other register keep their values. -/
def Obligations.ErrorsChangeOnlyStatusAndErrinfo : Prop :=
  ∀ i s t, exec i s = .next t → t.status.errcode ≠ 0#8 →
    t = afterError t.status.errcode t.errinfo s ∧ (hostReadReg (some .status) t).1.getLsbD 2 = true

/-- R116, R29 to R31: a successful completion leaves ERRINFO 0 and the block idle and DONE, PADBAD set by UNPAD and MSG_DEC alone,
and CTRL, CMD, SRC, DST, LEN, PIXCNT, WERR, the platform and the host as they were. -/
def Obligations.SuccessLeavesTheOperands : Prop :=
  ∀ i s t, exec i s = .next t → t.status.errcode = 0#8 →
    t.errinfo = 0#32 ∧ t.status.busy = false ∧ t.status.done = true ∧ t.status.werr = s.status.werr
      ∧ (t.status.padbad = true → i = .unpad ∨ i = .msgDec)
      ∧ t.ctrlIE = s.ctrlIE ∧ t.cmd = s.cmd ∧ t.src = s.src ∧ t.dst = s.dst ∧ t.len = s.len ∧ t.pixcnt = s.pixcnt
      ∧ t.plat = s.plat ∧ t.host = s.host ∧ t.schedule = s.schedule ∧ t.draws = s.draws

/-- R251: each command ends in success or in one of the codes the table lists for it. -/
def Obligations.ErrorCodesByCommand : Prop :=
  ∀ i s t, exec i s = .next t → t.status.errcode = 0#8 ∨ t.status.errcode ∈ possibleCodes i

/-- R22's last column: which commands change V0, V1, SUM, K0 to K3, RESULT, RADDR and the accumulators. -/
def Obligations.RegistersWrittenByCommands : Prop :=
  ∀ i s t, exec i s = .next t →
    (t.v0 ≠ s.v0 → mnemonic i ∈ ["TEA_ENC", "TEA_DEC", "TEA_ERND", "TEA_DRND", "ZERO", "BLK_LD", "W_LD"])
      ∧ (t.v1 ≠ s.v1 → mnemonic i ∈ ["TEA_ENC", "TEA_DEC", "TEA_ERND", "TEA_DRND", "ZERO", "BLK_LD"])
      ∧ (t.sum ≠ s.sum → mnemonic i ∈ ["TEA_ERND", "TEA_DRND", "ZERO"])
      ∧ (keyOf t ≠ keyOf s → mnemonic i ∈ ["KEY_LD", "ZERO"])
      ∧ (t.result ≠ s.result → mnemonic i ∈ ["PAD", "UNPAD", "ECB_ENC", "ECB_DEC", "MSG_ENC", "MSG_DEC", "FR_WRAP", "FR_UNWRAP",
          "LSB_CAP", "LSB_EMBED", "LSB_EXTRACT", "MET_DIFF", "MET_HIST"])
      ∧ (t.raddr ≠ s.raddr → mnemonic i ∈ ["FR_UNWRAP"])
      ∧ (t.metrics ≠ s.metrics → mnemonic i ∈ ["MET_DIFF"])

/-- R287: a command changes no byte outside the write ranges of its footprint. -/
def Obligations.StoresStayInTheWriteFootprint : Prop :=
  ∀ i s t x, Memory.wf s.mem = true → exec i s = .next t → (∀ r ∈ writeRanges i s, r.holds x = false) →
    t.mem.read x = s.mem.read x

/-- R124: a command's outcome depends on memory only through the bytes of its read footprint. Run on two memories that agree there,
it ends alike in every register, and each byte of memory either ends alike too or was left alone in both. -/
def Obligations.OutcomeDependsOnTheReadFootprint : Prop :=
  ∀ i (s : State) (m : Memory) t t', Memory.wf s.mem = true → Memory.wf m = true →
    (∀ r ∈ readRanges i s, ∀ x, r.holds x = true → m.read x = s.mem.read x) →
    exec i s = .next t → exec i { s with mem := m } = .next t' →
    t' = { t with mem := t'.mem }
      ∧ ∀ x, t'.mem.read x = t.mem.read x ∨ (t.mem.read x = s.mem.read x ∧ t'.mem.read x = m.read x)

/-- R38, R256: the line is the conjunction of IE and DONE; it is low while a command is in flight in a sound state, and after any
completion, success or error, it equals IE. -/
def Obligations.InterruptFollowsCompletion : Prop :=
  (∀ s : State, s.irq = true ↔ s.ctrlIE = true ∧ s.status.done = true)
    ∧ (∀ s : State, s.Inv → s.status.busy = true → s.irq = false)
    ∧ ∀ i s t, exec i s = .next t → t.irq = s.ctrlIE

/-! ## The host's accesses -/

/-- R111: the host's writes while the block is idle. CTRL resets by SRST or takes IE; STATUS clears DONE and WERR by ones; CMD
issues; each operand register takes the value, which the next read returns, and nothing else of the whole state changes; a write of
a read-only register or of a reserved offset has no effect. -/
def Obligations.IdleRegisterWrites : Prop :=
  ∀ (s : State) (v : Word), s.status.busy = false →
    (v.getLsbD 1 = true → hostWriteReg (some .ctrl) v s = hardReset s)
    ∧ (v.getLsbD 1 = false → hostWriteReg (some .ctrl) v s = { s with ctrlIE := v.getLsbD 0 })
    ∧ hostWriteReg (some .status) v s
        = { s with status := ⟨false, s.status.done && !v.getLsbD 1, s.status.padbad, s.status.werr && !v.getLsbD 4,
                              s.status.errcode⟩ }
    ∧ hostWriteReg (some .cmd) v s = { s with cmd := v, status := ⟨true, false, false, s.status.werr, 0#8⟩ }
    ∧ hostWriteReg (some .v0) v s = { s with v0 := v } ∧ hostWriteReg (some .v1) v s = { s with v1 := v }
    ∧ hostWriteReg (some .sum) v s = { s with sum := v }
    ∧ hostWriteReg (some .k0) v s = { s with k0 := v } ∧ hostWriteReg (some .k1) v s = { s with k1 := v }
    ∧ hostWriteReg (some .k2) v s = { s with k2 := v } ∧ hostWriteReg (some .k3) v s = { s with k3 := v }
    ∧ hostWriteReg (some .src) v s = { s with src := v } ∧ hostWriteReg (some .dst) v s = { s with dst := v }
    ∧ hostWriteReg (some .len) v s = { s with len := v } ∧ hostWriteReg (some .pixcnt) v s = { s with pixcnt := v }
    ∧ (∀ r ∈ writable, (hostReadReg (some r) (hostWriteReg (some r) v s)).1 = v
      ∧ ∀ r', r' ≠ r → (hostReadReg (some r') (hostWriteReg (some r) v s)).1 = (hostReadReg (some r') s).1)
    ∧ ∀ o, (∀ r, o = some r → r ∉ writable ∧ r ≠ .ctrl ∧ r ≠ .status ∧ r ≠ .cmd) → hostWriteReg o v s = s

/-- R118: while busy, a write of CTRL sets IE or resets, a write of STATUS clears DONE and WERR by ones, and every other write is
ignored and sets WERR. -/
def Obligations.BusyWrites : Prop :=
  ∀ (s : State) (v : Word), s.status.busy = true →
    (v.getLsbD 1 = false → hostWriteReg (some .ctrl) v s = { s with ctrlIE := v.getLsbD 0 })
      ∧ (v.getLsbD 1 = true → hostWriteReg (some .ctrl) v s = hardReset s)
      ∧ hostWriteReg (some .status) v s
          = { s with status := ⟨true, s.status.done && !v.getLsbD 1, s.status.padbad, s.status.werr && !v.getLsbD 4,
                                s.status.errcode⟩ }
      ∧ ∀ o, o ≠ some .ctrl → o ≠ some .status →
          hostWriteReg o v s
            = { s with status := ⟨true, s.status.done, s.status.padbad, true, s.status.errcode⟩ }

/-- R119: while busy, the steady registers and the reserved offsets read as usual, and a read of any other register tells nothing
of the state: two busy states with as many draws behind them answer the same. No read changes more than the count of draws. (That
count is the model's, log 6.) -/
def Obligations.BusyReadsRevealNothing : Prop :=
  ∀ s, s.status.busy = true →
    (∀ r ∈ steadyRegs, hostReadReg (some r) s = (r.value s, s)) ∧ hostReadReg none s = (0#32, s)
      ∧ (∀ r, { (hostReadReg r s).2 with draws := s.draws } = s)
      ∧ ∀ s', s'.status.busy = true → s'.draws = s.draws → ∀ r, r ∉ steadyRegs →
          (hostReadReg (some r) s).1 = (hostReadReg (some r) s').1

/-- R110, R22 to R25, R35: what a host read returns. Every bit of the words CTRL and STATUS read as, idle or busy, reserved bits
reading 0; and, while the block is idle, the value of each other register, an accumulator as its bits 31:0 and 63:32, a reserved
offset as 0. No such read changes the state. -/
def Obligations.StatusAndCtrlLayout : Prop :=
  ∀ s : State,
    (∀ i < 32, ((hostReadReg (some .status) s).1.getLsbD i =
        if i = 0 then s.status.busy else if i = 1 then s.status.done else if i = 2 then decide (s.status.errcode ≠ 0#8)
        else if i = 3 then s.status.padbad else if i = 4 then s.status.werr
        else if 8 ≤ i ∧ i < 16 then s.status.errcode.getLsbD (i - 8) else false)
      ∧ (hostReadReg (some .ctrl) s).1.getLsbD i = (decide (i = 0) && s.ctrlIE))
    ∧ (hostReadReg (some .status) s).2 = s ∧ (hostReadReg (some .ctrl) s).2 = s
    ∧ (s.status.busy = false → ∀ r v, (r, v) ∈
        [(none, 0#32), (some Reg.id, 0x54434231#32), (some .cmd, s.cmd), (some .v0, s.v0), (some .v1, s.v1), (some .sum, s.sum)]
        ++ [(some .k0, s.k0), (some .k1, s.k1), (some .k2, s.k2), (some .k3, s.k3)]
        ++ [(some .src, s.src), (some .dst, s.dst), (some .len, s.len), (some .pixcnt, s.pixcnt)]
        ++ [(some .result, s.result), (some .raddr, s.raddr), (some .errinfo, s.errinfo), (some .mChgpix, s.metrics.chgpix)]
        ++ [(some .mBiterrLo, s.metrics.biterr.extractLsb' 0 32), (some .mBiterrHi, s.metrics.biterr.extractLsb' 32 32)]
        ++ [(some .mAbsdiffLo, s.metrics.absdiff.extractLsb' 0 32), (some .mAbsdiffHi, s.metrics.absdiff.extractLsb' 32 32)]
        ++ [(some .mSqdiffLo, s.metrics.sqdiff.extractLsb' 0 32), (some .mSqdiffHi, s.metrics.sqdiff.extractLsb' 32 32)]
        ++ [(some .mLaLo, s.metrics.la.extractLsb' 0 32), (some .mLaHi, s.metrics.la.extractLsb' 32 32)]
        ++ [(some .mLbLo, s.metrics.lb.extractLsb' 0 32), (some .mLbHi, s.metrics.lb.extractLsb' 32 32)]
        ++ [(some .mLalbLo, s.metrics.lalb.extractLsb' 0 32), (some .mLalbHi, s.metrics.lalb.extractLsb' 32 32)]
        ++ [(some .mLa2Lo, s.metrics.la2.extractLsb' 0 32), (some .mLa2Hi, s.metrics.la2.extractLsb' 32 32)]
        ++ [(some .mLb2Lo, s.metrics.lb2.extractLsb' 0 32), (some .mLb2Hi, s.metrics.lb2.extractLsb' 32 32)] →
      hostReadReg r s = (v, s))

/-- R61, R22: an aligned word access of the window reaches the register that R22 lists at its offset, or a reserved offset, which
reads 0; any other access that touches the window is a host fault. (That an access which only crosses the window's edge is one of
those R61 forbids is the model's reading, log 12.) -/
def Obligations.BusAccessesAreAlignedWords : Prop :=
  ∀ (s : State) (v : Word) (k : Word → State → State),
    (∀ o r, (o, r) ∈ windowMap → busWrite (s.plat.regBase + o) 4 v s = .next (hostWriteReg (some r) v s)
      ∧ busRead (s.plat.regBase + o) 4 k s = .next (k (hostReadReg (some r) s).1 (hostReadReg (some r) s).2))
    ∧ (∀ o, ReservedOffset o → busWrite (s.plat.regBase + o) 4 v s = .next (hostWriteReg none v s)
      ∧ busRead (s.plat.regBase + o) 4 k s = .next (k 0#32 s))
    ∧ ∀ addr width, Shares addr width s.plat.regBase 256 →
        (width ≠ 4 ∨ ∀ j < 64, addr ≠ s.plat.regBase + 4 * j) →
        busWrite addr width v s = .fault .registerAccess ∧ busRead addr width k s = .fault .registerAccess

/-- R60, R69, R286: a host access to buffer memory is a host fault when a byte of it does not exist or lies in the footprint of the
command in flight; else a store writes its bytes and no other, and a load returns the bytes. R287: the footprint is the ranges of
the table's row, and there is none while idle. (That an address past MEM_SIZE is a host fault is the model's reading, log 10, and
so is that an illegal word in flight has no footprint, log 17.) -/
def Obligations.HostMemoryAccesses : Prop :=
  ∀ (s : State) (a : Nat) (bs : List Byte) (k : List Byte → State → State), Memory.wf s.mem = true →
    (∀ i x, ((∃ r ∈ readRanges i s, r.holds x = true) ↔ ReadsAt s x i) ∧ ((∃ r ∈ writeRanges i s, r.holds x = true) ↔ WritesAt s x i))
    ∧ (∀ i x, s.status.busy = true → decode s.cmd = .ok i → (hazard s x = true ↔ ReadsAt s x i ∨ WritesAt s x i))
    ∧ (∀ x, s.status.busy = false ∨ (∀ i, decode s.cmd ≠ .ok i) → hazard s x = false)
    ∧ (¬ Fits s a bs.length →
      hostStore a bs s = .fault .noSuchAddress ∧ hostLoad a bs.length k s = .fault .noSuchAddress)
    ∧ (Fits s a bs.length → (∃ x, a ≤ x ∧ x < a + bs.length ∧ hazard s x = true) →
      hostStore a bs s = .fault .footprintHazard ∧ hostLoad a bs.length k s = .fault .footprintHazard)
    ∧ (Fits s a bs.length → (∀ x, a ≤ x → x < a + bs.length → hazard s x = false) →
      (∃ m, hostStore a bs s = .next { s with mem := m } ∧ (∀ i < bs.length, m.read (a + i) = bs.getD i 0#8)
        ∧ SameOutside s.mem m a bs.length)
      ∧ ∃ l : List Byte, l.length = bs.length ∧ (∀ i < bs.length, l.getD i 0#8 = s.mem.read (a + i))
          ∧ hostLoad a bs.length k s = .next (k l s))

/-- R98: what each host statement does, one per host turn. `wr` writes its value, a constant, a temporary, or one plus or minus a
constant; `cmd` issues; `rd` reads into its temporary and into no other; `mw` and `mr` reach buffer memory; a label does nothing; an
`if` jumps when its condition holds of the field, and else goes on; `goto` jumps; `halt` stays; each also where a temporary it uses
holds no word. The model's choices in it: that the host moves is a turn of the schedule (log 2), a store or load of several bytes is
one step (log 11), an address or count of `mw` and `mr` may be any value (log 19), a temporary holds one value and is free as a word where it holds none (logs 8,
18), a jump goes to the label's first place and is refused where there is none (log 13), `halt` changes nothing but the schedule
(log 15), the fields are those of `Field.get` (log 16). -/
def Obligations.HostStatementsReachTheRegisters : Prop :=
  ∀ (s : State) (st : Stmt) (rest : List Turn), s.schedule = .host :: rest → s.host.script[s.host.pc]? = some st →
    let v := { s with schedule := rest }
    let u := { s with schedule := rest, host := { s.host with pc := s.host.pc + 1 } }
    (∀ r x w, st = .wr r x → ValueIs s w x → step s = .next (hostWriteReg (some r) w u))
    ∧ (∀ r x, st = .wr r x → ∃ w d, step s = .next (hostWriteReg (some r) w { u with draws := d }))
    ∧ (∀ i, st = .cmd i → step s = .next (hostWriteReg (some .cmd) (encode i) u))
    ∧ (∀ r t, st = .rd r t → ∃ l, step s = .next { (hostReadReg (some r) u).2 with host := { u.host with temps := l } }
        ∧ Assigned t (.word (hostReadReg (some r) u).1) s.host.temps l)
    ∧ (∀ x bs a, st = .mw x bs → ValueIs s a x → step s = hostStore a.toNat bs u)
    ∧ (∀ x y t a n, st = .mr x y t → ValueIs s a x → ValueIs s n y →
        ∃ k, step s = hostLoad a.toNat n.toNat k u
          ∧ ∀ bs z, ∃ l, k bs z = { z with host := { z.host with temps := l } } ∧ Assigned t (.bytes bs) z.host.temps l)
    ∧ (∀ x bs, st = .mw x bs → ∃ a d, step s = hostStore a bs { u with draws := d })
    ∧ (∀ x y t, st = .mr x y t → ∃ a n d k, step s = hostLoad a n k { u with draws := d }
        ∧ ∀ bs z, ∃ l, k bs z = { z with host := { z.host with temps := l } } ∧ Assigned t (.bytes bs) z.host.temps l)
    ∧ (∀ l, st = .label l → step s = .next u)
    ∧ (∀ t w f c l, st = .branch t f c l → HoldsWord s t w →
        (c = .nonzero → (f.get w ≠ 0#32 → Jumps v l (step s)) ∧ (f.get w = 0#32 → step s = .next u))
        ∧ ∀ x y, ValueIs s y x →
          (c = .eq x → (f.get w = y → Jumps v l (step s)) ∧ (f.get w ≠ y → step s = .next u))
          ∧ (c = .ne x → (f.get w ≠ y → Jumps v l (step s)) ∧ (f.get w = y → step s = .next u)))
    ∧ (∀ t f c l, st = .branch t f c l →
        ∃ d, Jumps { v with draws := d } l (step s) ∨ step s = .next { u with draws := d })
    ∧ (∀ l, st = .goto l → Jumps v l (step s))
    ∧ (st = .halt → step s = .next v)

/-- R120, R254: no command, no completion and no reset stops the machine; only a turn of the host can. (Whose turn it is when the
schedule is empty is the model's choice, log 2.) -/
def Obligations.OnlyHostTurnsStop : Prop :=
  ∀ s, (∀ t, step s ≠ .next t) → s.schedule.head? = some .host ∨ (s.schedule = [] ∧ s.status.busy = false)

/-! ## Control and block cipher -/

/-- R121, R165, R202: NOP, ZERO and LSB_CAP complete from every state, and what they write. -/
def Obligations.NopZeroAndCapacity : Prop :=
  ∀ s, exec .nop s = .next (afterSuccess false s)
    ∧ exec .zero s = .next (afterSuccess false
        { s with v0 := 0#32, v1 := 0#32, sum := 0#32, k0 := 0#32, k1 := 0#32, k2 := 0#32, k3 := 0#32 })
    ∧ ∃ r : Word, exec .lsbCap s = .next (afterSuccess false { s with result := r }) ∧ r.toNat = 3 * s.pixcnt.toNat / 8
        ∧ r.toNat ≤ 1610612735

/-- R160, R163, R164: one stepped round, written out. -/
def Obligations.OneTeaRound : Prop :=
  ∀ s : State,
    let f := fun x c ka kb : Word => ((x <<< 4) + ka) ^^^ (x + c) ^^^ ((x >>> 5) + kb)
    let sum := s.sum + 0x9E3779B9#32
    let e0 := s.v0 + f s.v1 sum s.k0 s.k1
    let e1 := s.v1 + f e0 sum s.k2 s.k3
    let d1 := s.v1 - f s.v0 s.sum s.k2 s.k3
    let d0 := s.v0 - f d1 s.sum s.k0 s.k1
    exec (.teaErnd 0#5) s = .next (afterSuccess false { s with v0 := e0, v1 := e1, sum := sum })
      ∧ exec (.teaDrnd 0#5) s = .next (afterSuccess false { s with v0 := d0, v1 := d1, sum := s.sum - 0x9E3779B9#32 })

/-- R166 law 3: `n` rounds and then `m` rounds are `n + m` rounds, encrypting and decrypting. -/
def Obligations.TeaRoundsCompose : Prop :=
  ∀ (c d e : BitVec 5) s t u, (c.toNat + 1) + (d.toNat + 1) = e.toNat + 1 →
    (exec (.teaErnd c) s = .next t → exec (.teaErnd d) t = .next u → exec (.teaErnd e) s = .next u)
      ∧ (exec (.teaDrnd c) s = .next t → exec (.teaDrnd d) t = .next u → exec (.teaDrnd e) s = .next u)

/-- R163, R164: the stepped commands complete from every state, write V0, V1 and SUM alone, and move SUM by the round count times
DELTA. -/
def Obligations.SteppedRoundsMoveSum : Prop :=
  ∀ (cnt : BitVec 5) s,
    (∃ a b, exec (.teaErnd cnt) s = .next (afterSuccess false
      { s with v0 := a, v1 := b, sum := s.sum + BitVec.ofNat 32 (cnt.toNat + 1) * 0x9E3779B9#32 }))
    ∧ ∃ a b, exec (.teaDrnd cnt) s = .next (afterSuccess false
      { s with v0 := a, v1 := b, sum := s.sum - BitVec.ofNat 32 (cnt.toNat + 1) * 0x9E3779B9#32 })

/-- R161 to R164: TEA_ENC is 32 stepped encrypt rounds from SUM = 0, which leave SUM = 0xC6EF3720, and TEA_DEC is 32 stepped decrypt
rounds from SUM = 0xC6EF3720, which leave SUM = 0; neither touches SUM itself. -/
def Obligations.WholeBlockIs32Rounds : Prop :=
  ∀ s : State,
    (∃ t, exec (.teaErnd 31#5) { s with sum := 0#32 } = .next t ∧ t.sum = 0xC6EF3720#32
      ∧ exec .teaEnc s = .next (afterSuccess false { s with v0 := t.v0, v1 := t.v1 }))
    ∧ ∃ t, exec (.teaDrnd 31#5) { s with sum := 0xC6EF3720#32 } = .next t ∧ t.sum = 0#32
      ∧ exec .teaDec s = .next (afterSuccess false { s with v0 := t.v0, v1 := t.v1 })

/-- R166 law 1, TC's primary correctness invariant: TEA_DEC undoes TEA_ENC, and TEA_ENC undoes TEA_DEC, for every block and key. -/
def Obligations.TeaDecInvertsTeaEnc : Prop :=
  ∀ s t u, (exec .teaEnc s = .next t → exec .teaDec t = .next u → u = afterSuccess false s)
    ∧ (exec .teaDec s = .next t → exec .teaEnc t = .next u → u = afterSuccess false s)

/-- R166 law 4: keys that differ in bit 31 of both K0 and K1, or of both K2 and K3, encrypt alike. -/
def Obligations.EquivalentKeysEncryptAlike : Prop :=
  ∀ s t u : State, exec .teaEnc s = .next t →
    (exec .teaEnc { s with k0 := s.k0 ^^^ 0x80000000#32, k1 := s.k1 ^^^ 0x80000000#32 } = .next u → u.v0 = t.v0 ∧ u.v1 = t.v1)
      ∧ (exec .teaEnc { s with k2 := s.k2 ^^^ 0x80000000#32, k3 := s.k3 ^^^ 0x80000000#32 } = .next u →
          u.v0 = t.v0 ∧ u.v1 = t.v1)

/-! ## Byte codec and padding -/

/-- R140: KEY_LD reads `min(LEN, 16)` bytes, pads with zeros on the right, and loads four big-endian words. -/
def Obligations.KeyLoadPadsAndTruncates : Prop :=
  ∀ s, Fits s s.src.toNat (min s.len.toNat 16) →
    exec .keyLd s = .next (afterSuccess false { s with
      k0 := keyByte s 0 ++ keyByte s 1 ++ keyByte s 2 ++ keyByte s 3
      k1 := keyByte s 4 ++ keyByte s 5 ++ keyByte s 6 ++ keyByte s 7
      k2 := keyByte s 8 ++ keyByte s 9 ++ keyByte s 10 ++ keyByte s 11
      k3 := keyByte s 12 ++ keyByte s 13 ++ keyByte s 14 ++ keyByte s 15 })

/-- R141, R143: BLK_LD loads V0 and V1, W_LD loads V0 alone, big-endian, at any alignment. -/
def Obligations.LoadsAreBigEndian : Prop :=
  ∀ s, (Fits s s.src.toNat 8 →
      exec .blkLd s = .next (afterSuccess false { s with v0 := wordAt s.mem s.src.toNat, v1 := wordAt s.mem (s.src.toNat + 4) }))
    ∧ (Fits s s.src.toNat 4 → exec .wLd s = .next (afterSuccess false { s with v0 := wordAt s.mem s.src.toNat }))

/-- R142, R144, R146: BLK_ST and W_ST store big-endian at DST, the most significant byte first, and change no other byte. -/
def Obligations.StoresAreBigEndian : Prop :=
  ∀ s, Memory.wf s.mem = true →
    (Fits s s.dst.toNat 8 → ∃ m, exec .blkSt s = .next (afterSuccess false { s with mem := m })
      ∧ (∀ i < 4, m.read (s.dst.toNat + i) = s.v0.extractLsb' (24 - 8 * i) 8
          ∧ m.read (s.dst.toNat + 4 + i) = s.v1.extractLsb' (24 - 8 * i) 8)
      ∧ SameOutside s.mem m s.dst.toNat 8)
    ∧ (Fits s s.dst.toNat 4 → ∃ m, exec .wSt s = .next (afterSuccess false { s with mem := m })
      ∧ (∀ i < 4, m.read (s.dst.toNat + i) = s.v0.extractLsb' (24 - 8 * i) 8)
      ∧ SameOutside s.mem m s.dst.toNat 4)

/-- R140 to R144, R151, R153, R252: the commands with a single check end in ERR_RANGE with the start address when it fails. -/
def Obligations.SingleRangeErrors : Prop :=
  ∀ s, (¬ Fits s s.src.toNat (min s.len.toNat 16) → exec .keyLd s = .next (afterError 0x02#8 s.src s))
    ∧ (¬ Fits s s.src.toNat 8 → exec .blkLd s = .next (afterError 0x02#8 s.src s))
    ∧ (¬ Fits s s.src.toNat 4 → exec .wLd s = .next (afterError 0x02#8 s.src s))
    ∧ (¬ Fits s s.src.toNat s.len.toNat → exec .unpad s = .next (afterError 0x02#8 s.src s))
    ∧ (¬ Fits s s.dst.toNat 8 → exec .blkSt s = .next (afterError 0x02#8 s.dst s))
    ∧ (¬ Fits s s.dst.toNat 4 → exec .wSt s = .next (afterError 0x02#8 s.dst s))
    ∧ (¬ Fits s s.dst.toNat (padded s.len.toNat) → exec .pad s = .next (afterError 0x02#8 s.dst s))

/-- R151: PAD appends `padLen` bytes that each equal `padLen` at DST + LEN, and RESULT is the padded length. -/
def Obligations.PadAppendsThePadding : Prop :=
  ∀ s, Memory.wf s.mem = true → s.plat.wf = true → Fits s s.dst.toNat (padded s.len.toNat) →
    ∃ m r, exec .pad s = .next (afterSuccess false { s with mem := m, result := r }) ∧ r.toNat = padded s.len.toNat
      ∧ (∀ i < 8 - s.len.toNat % 8, m.read (s.dst.toNat + s.len.toNat + i) = BitVec.ofNat 8 (8 - s.len.toNat % 8))
      ∧ SameOutside s.mem m (s.dst.toNat + s.len.toNat) (8 - s.len.toNat % 8)

/-- R152, R153: UNPAD strips a valid padding, and fails open with PADBAD on an invalid one; no byte of memory changes. -/
def Obligations.UnpadFailsOpen : Prop :=
  ∀ s, Fits s s.src.toNat s.len.toNat →
    ∃ r bad, exec .unpad s = .next (afterSuccess bad { s with result := r }) ∧ Unpads s.mem s.src.toNat s.len.toNat r bad

/-- R154: PAD at DST, then UNPAD of what it left, gives the length back and a valid padding. -/
def Obligations.UnpadInvertsPad : Prop :=
  ∀ s t u, Memory.wf s.mem = true → s.plat.wf = true → exec .pad s = .next t → t.status.errcode = 0#8 →
    exec .unpad { t with src := t.dst, len := t.result } = .next u →
    u.status.errcode = 0#8 ∧ u.status.padbad = false ∧ u.result = s.len

/-! ## Message cipher and framer -/

/-- R180 to R182: ECB_ENC and ECB_DEC put each block of `[SRC, SRC + LEN)` through the block function into `[DST, DST + LEN)`, apart or
in place, and change no other byte. -/
def Obligations.EcbTransformsEachBlock : Prop :=
  ∀ s, Memory.wf s.mem = true → Fits s s.src.toNat s.len.toNat → Fits s s.dst.toNat s.len.toNat →
    ApartOrInPlace s s.len.toNat s.len.toNat → s.len.toNat % 8 = 0 →
    (∃ m, exec .ecbEnc s = .next (afterSuccess false { s with mem := m, result := s.len })
      ∧ BlocksThrough (encryptBlock (keyOf s)) s.mem m s.src.toNat s.dst.toNat s.len.toNat
      ∧ SameOutside s.mem m s.dst.toNat s.len.toNat)
    ∧ ∃ m, exec .ecbDec s = .next (afterSuccess false { s with mem := m, result := s.len })
      ∧ BlocksThrough (decryptBlock (keyOf s)) s.mem m s.src.toNat s.dst.toNat s.len.toNat
      ∧ SameOutside s.mem m s.dst.toNat s.len.toNat

/-- R185: in place, ECB_DEC after ECB_ENC gives back the whole memory. -/
def Obligations.EcbDecInvertsEcbEnc : Prop :=
  ∀ s t u, Memory.wf s.mem = true → s.src = s.dst → exec .ecbEnc s = .next t → t.status.errcode = 0#8 →
    exec .ecbDec t = .next u → u = afterSuccess false { s with result := s.len }

/-- R183: MSG_ENC encrypts the padded plaintext into `[DST, DST + N)`, N = LEN + 8 - (LEN mod 8), apart or in place, and changes no
other byte; RESULT is N. -/
def Obligations.MsgEncPadsAndEncrypts : Prop :=
  ∀ s, Memory.wf s.mem = true → s.plat.wf = true → Fits s s.src.toNat s.len.toNat →
    Fits s s.dst.toNat (padded s.len.toNat) → ApartOrInPlace s s.len.toNat (padded s.len.toNat) →
    ∃ m r, exec .msgEnc s = .next (afterSuccess false { s with mem := m, result := r }) ∧ r.toNat = padded s.len.toNat
      ∧ (∀ j, 8 * j < padded s.len.toNat →
          (wordAt m (s.dst.toNat + 8 * j), wordAt m (s.dst.toNat + 8 * j + 4))
            = encryptBlock (keyOf s) (paddedWord s (8 * j)) (paddedWord s (8 * j + 4)))
      ∧ SameOutside s.mem m s.dst.toNat (padded s.len.toNat)

/-- R184: MSG_DEC decrypts every block into `[DST, DST + LEN)`, padding included, and RESULT and PADBAD are what unpad says of the
decrypted bytes. -/
def Obligations.MsgDecDecryptsAndUnpads : Prop :=
  ∀ s, Memory.wf s.mem = true → Fits s s.src.toNat s.len.toNat → Fits s s.dst.toNat s.len.toNat →
    ApartOrInPlace s s.len.toNat s.len.toNat → s.len.toNat % 8 = 0 →
    ∃ m r bad, exec .msgDec s = .next (afterSuccess bad { s with mem := m, result := r })
      ∧ BlocksThrough (decryptBlock (keyOf s)) s.mem m s.src.toNat s.dst.toNat s.len.toNat
      ∧ SameOutside s.mem m s.dst.toNat s.len.toNat ∧ Unpads m s.dst.toNat s.len.toNat r bad

/-- R185, TC's message round trip: MSG_DEC of what MSG_ENC wrote, under the same key, into the same or a separate buffer, succeeds
and gives the message and its length back with PADBAD = 0. -/
def Obligations.MsgDecInvertsMsgEnc : Prop :=
  ∀ (s t u : State) (d : Word), Memory.wf s.mem = true → s.plat.wf = true →
    exec .msgEnc s = .next t → t.status.errcode = 0#8 →
    Fits s d.toNat (padded s.len.toNat) →
    (d = s.dst ∨ ¬ Shares s.dst.toNat (padded s.len.toNat) d.toNat (padded s.len.toNat)) →
    exec .msgDec { t with src := t.dst, dst := d, len := t.result } = .next u →
    u.status.errcode = 0#8 ∧ u.status.padbad = false ∧ u.result = s.len
      ∧ ∀ j < s.len.toNat, u.mem.read (d.toNat + j) = s.mem.read (s.src.toNat + j)

/-- R181 to R184, R190, R252: the errors of the message commands and of FR_WRAP, in the order of their checks. -/
def Obligations.MessageErrorOrder : Prop :=
  ∀ s, (∀ i ∈ [Instr.ecbEnc, .ecbDec, .msgDec],
      (¬ Fits s s.src.toNat s.len.toNat → exec i s = .next (afterError 0x02#8 s.src s))
      ∧ (Fits s s.src.toNat s.len.toNat → ¬ Fits s s.dst.toNat s.len.toNat → exec i s = .next (afterError 0x02#8 s.dst s))
      ∧ (Fits s s.src.toNat s.len.toNat → Fits s s.dst.toNat s.len.toNat → ¬ ApartOrInPlace s s.len.toNat s.len.toNat →
          exec i s = .next (afterError 0x03#8 s.dst s))
      ∧ (Fits s s.src.toNat s.len.toNat → Fits s s.dst.toNat s.len.toNat → ApartOrInPlace s s.len.toNat s.len.toNat →
          s.len.toNat % 8 ≠ 0 → exec i s = .next (afterError 0x04#8 s.len s)))
    ∧ (¬ Fits s s.src.toNat s.len.toNat →
        exec .msgEnc s = .next (afterError 0x02#8 s.src s) ∧ exec .frWrap s = .next (afterError 0x02#8 s.src s))
    ∧ (Fits s s.src.toNat s.len.toNat → ¬ Fits s s.dst.toNat (padded s.len.toNat) →
        exec .msgEnc s = .next (afterError 0x02#8 s.dst s))
    ∧ (Fits s s.src.toNat s.len.toNat → Fits s s.dst.toNat (padded s.len.toNat) →
        ¬ ApartOrInPlace s s.len.toNat (padded s.len.toNat) → exec .msgEnc s = .next (afterError 0x03#8 s.dst s))
    ∧ (Fits s s.src.toNat s.len.toNat → ¬ Fits s s.dst.toNat (s.len.toNat + 4) →
        exec .frWrap s = .next (afterError 0x02#8 s.dst s))
    ∧ (Fits s s.src.toNat s.len.toNat → Fits s s.dst.toNat (s.len.toNat + 4) → s.src.toNat ≠ s.dst.toNat + 4 →
        Shares s.src.toNat s.len.toNat s.dst.toNat (s.len.toNat + 4) → exec .frWrap s = .next (afterError 0x03#8 s.dst s))

/-- R190: FR_WRAP writes the big-endian length and then the bytes of `[SRC, SRC + LEN)` at DST, apart or in place at SRC = DST + 4, and
changes no other byte; RESULT is LEN + 4. -/
def Obligations.FrWrapWritesHeaderAndBody : Prop :=
  ∀ s, Memory.wf s.mem = true → s.plat.wf = true → Fits s s.src.toNat s.len.toNat →
    Fits s s.dst.toNat (s.len.toNat + 4) →
    (s.src.toNat = s.dst.toNat + 4 ∨ ¬ Shares s.src.toNat s.len.toNat s.dst.toNat (s.len.toNat + 4)) →
    ∃ m r, exec .frWrap s = .next (afterSuccess false { s with mem := m, result := r }) ∧ r.toNat = s.len.toNat + 4
      ∧ wordAt m s.dst.toNat = s.len
      ∧ (∀ j < s.len.toNat, m.read (s.dst.toNat + 4 + j) = s.mem.read (s.src.toNat + j))
      ∧ SameOutside s.mem m s.dst.toNat (s.len.toNat + 4)

/-- R191: FR_UNWRAP gives the declared length and the address behind the header, and its errors in the order of their checks; it
changes no byte of memory. -/
def Obligations.FrUnwrapLocatesTheBody : Prop :=
  ∀ s, (Fits s s.src.toNat s.len.toNat → 4 ≤ s.len.toNat → (wordAt s.mem s.src.toNat).toNat ≤ s.len.toNat - 4 →
      exec .frUnwrap s
        = .next (afterSuccess false { s with result := wordAt s.mem s.src.toNat, raddr := s.src + 4#32 }))
    ∧ (¬ Fits s s.src.toNat s.len.toNat → exec .frUnwrap s = .next (afterError 0x02#8 s.src s))
    ∧ (Fits s s.src.toNat s.len.toNat → s.len.toNat < 4 → exec .frUnwrap s = .next (afterError 0x08#8 s.len s))
    ∧ (Fits s s.src.toNat s.len.toNat → 4 ≤ s.len.toNat → s.len.toNat - 4 < (wordAt s.mem s.src.toNat).toNat →
        exec .frUnwrap s = .next (afterError 0x08#8 (wordAt s.mem s.src.toNat) s))

/-- R192: FR_UNWRAP of what FR_WRAP wrote never fails and finds the body and its length. -/
def Obligations.FrUnwrapInvertsFrWrap : Prop :=
  ∀ s t u, Memory.wf s.mem = true → s.plat.wf = true → exec .frWrap s = .next t → t.status.errcode = 0#8 →
    exec .frUnwrap { t with src := t.dst, len := t.result } = .next u →
    u.status.errcode = 0#8 ∧ u.result = s.len ∧ u.raddr = s.dst + 4#32
      ∧ ∀ j < s.len.toNat, u.mem.read (u.raddr.toNat + j) = s.mem.read (s.src.toNat + j)

/-! ## LSB codec -/

/-- R200, R203, R205 law 3: LSB_EMBED puts bit `i` of the payload, most significant bit of each byte first, into bit 0 of channel
`i mod 3` of pixel `i div 3`, keeps that channel's other bits, and changes no other byte. -/
def Obligations.EmbedWritesOnlyTheLsbs : Prop :=
  ∀ s, Memory.wf s.mem = true → Fits s s.src.toNat s.len.toNat → Fits s s.dst.toNat (4 * s.pixcnt.toNat) →
    ¬ Shares s.src.toNat s.len.toNat s.dst.toNat (4 * s.pixcnt.toNat) → s.len.toNat ≤ 3 * s.pixcnt.toNat / 8 →
    ∃ m, exec .lsbEmbed s = .next (afterSuccess false { s with mem := m, result := s.len })
      ∧ (∀ i < 8 * s.len.toNat,
          lsbAt m s.dst.toNat i = (s.mem.read (s.src.toNat + i / 8)).getLsbD (7 - i % 8)
          ∧ ∀ b, 1 ≤ b → (m.read (s.dst.toNat + 4 * (i / 3) + i % 3)).getLsbD b
              = (s.mem.read (s.dst.toNat + 4 * (i / 3) + i % 3)).getLsbD b)
      ∧ ∀ x, (∀ i < 8 * s.len.toNat, x ≠ s.dst.toNat + 4 * (i / 3) + i % 3) → m.read x = s.mem.read x

/-- R204: LSB_EXTRACT writes the header and the body it declares, bit by bit, at DST, and changes no other byte; RESULT is their
length. -/
def Obligations.ExtractReadsTheFramedPayload : Prop :=
  ∀ s, Memory.wf s.mem = true → s.plat.wf = true → Fits s s.src.toNat (4 * s.pixcnt.toNat) → 32 ≤ 3 * s.pixcnt.toNat →
    headerAt s.mem s.src.toNat ≠ 0 → headerAt s.mem s.src.toNat ≤ (3 * s.pixcnt.toNat - 32) / 8 →
    Fits s s.dst.toNat (4 + headerAt s.mem s.src.toNat) →
    ¬ Shares s.src.toNat (4 * s.pixcnt.toNat) s.dst.toNat (4 + headerAt s.mem s.src.toNat) →
    ∃ m r, exec .lsbExtract s = .next (afterSuccess false { s with mem := m, result := r })
      ∧ r.toNat = 4 + headerAt s.mem s.src.toNat ∧ (wordAt m s.dst.toNat).toNat = headerAt s.mem s.src.toNat
      ∧ (∀ j < headerAt s.mem s.src.toNat, ∀ b < 8,
          (m.read (s.dst.toNat + 4 + j)).getLsbD (7 - b) = lsbAt s.mem s.src.toNat (32 + 8 * j + b))
      ∧ SameOutside s.mem m s.dst.toNat (4 + headerAt s.mem s.src.toNat)

/-- R203, R204, R252: the errors of LSB_EMBED and LSB_EXTRACT, in the order of their checks. -/
def Obligations.LsbErrorOrder : Prop :=
  ∀ s, (¬ Fits s s.src.toNat s.len.toNat → exec .lsbEmbed s = .next (afterError 0x02#8 s.src s))
    ∧ (Fits s s.src.toNat s.len.toNat → ¬ Fits s s.dst.toNat (4 * s.pixcnt.toNat) →
        exec .lsbEmbed s = .next (afterError 0x02#8 s.dst s))
    ∧ (Fits s s.src.toNat s.len.toNat → Fits s s.dst.toNat (4 * s.pixcnt.toNat) →
        Shares s.src.toNat s.len.toNat s.dst.toNat (4 * s.pixcnt.toNat) → exec .lsbEmbed s = .next (afterError 0x03#8 s.dst s))
    ∧ (Fits s s.src.toNat s.len.toNat → Fits s s.dst.toNat (4 * s.pixcnt.toNat) →
        ¬ Shares s.src.toNat s.len.toNat s.dst.toNat (4 * s.pixcnt.toNat) → 3 * s.pixcnt.toNat / 8 < s.len.toNat →
        exec .lsbEmbed s = .next (afterError 0x05#8 (BitVec.ofNat 32 (3 * s.pixcnt.toNat / 8)) s))
    ∧ (¬ Fits s s.src.toNat (4 * s.pixcnt.toNat) → exec .lsbExtract s = .next (afterError 0x02#8 s.src s))
    ∧ (Fits s s.src.toNat (4 * s.pixcnt.toNat) → 3 * s.pixcnt.toNat < 32 →
        exec .lsbExtract s = .next (afterError 0x06#8 s.pixcnt s))
    ∧ (Fits s s.src.toNat (4 * s.pixcnt.toNat) → 32 ≤ 3 * s.pixcnt.toNat →
        (headerAt s.mem s.src.toNat = 0 ∨ (3 * s.pixcnt.toNat - 32) / 8 < headerAt s.mem s.src.toNat) →
        exec .lsbExtract s = .next (afterError 0x07#8 (BitVec.ofNat 32 (headerAt s.mem s.src.toNat)) s))
    ∧ (Fits s s.src.toNat (4 * s.pixcnt.toNat) → 32 ≤ 3 * s.pixcnt.toNat → headerAt s.mem s.src.toNat ≠ 0 →
        headerAt s.mem s.src.toNat ≤ (3 * s.pixcnt.toNat - 32) / 8 → ¬ Fits s s.dst.toNat (4 + headerAt s.mem s.src.toNat) →
        exec .lsbExtract s = .next (afterError 0x02#8 s.dst s))
    ∧ (Fits s s.src.toNat (4 * s.pixcnt.toNat) → 32 ≤ 3 * s.pixcnt.toNat → headerAt s.mem s.src.toNat ≠ 0 →
        headerAt s.mem s.src.toNat ≤ (3 * s.pixcnt.toNat - 32) / 8 → Fits s s.dst.toNat (4 + headerAt s.mem s.src.toNat) →
        Shares s.src.toNat (4 * s.pixcnt.toNat) s.dst.toNat (4 + headerAt s.mem s.src.toNat) →
        exec .lsbExtract s = .next (afterError 0x03#8 s.dst s))

/-- R205 law 2, TC's fourth property: LSB_EXTRACT of the buffer into which LSB_EMBED put a framed payload with a non-empty body
succeeds and gives that payload and its length back. -/
def Obligations.ExtractInvertsEmbed : Prop :=
  ∀ (s t u : State) (d : Word), Memory.wf s.mem = true → s.plat.wf = true →
    exec .lsbEmbed s = .next t → t.status.errcode = 0#8 →
    5 ≤ s.len.toNat → (wordAt s.mem s.src.toNat).toNat + 4 = s.len.toNat →
    Fits s d.toNat s.len.toNat → ¬ Shares s.dst.toNat (4 * s.pixcnt.toNat) d.toNat s.len.toNat →
    exec .lsbExtract { t with src := t.dst, dst := d } = .next u →
    u.status.errcode = 0#8 ∧ u.result = s.len
      ∧ ∀ j < s.len.toNat, u.mem.read (d.toNat + j) = s.mem.read (s.src.toNat + j)

/-! ## Metrics -/

/-- R230: the luminance is the weighted sum of the channels, rounded to the nearest integer with ties upward, at most 255. -/
def Obligations.LuminanceRoundsTiesUpward : Prop :=
  ∀ r g b : Byte,
    let x := 2126 * r.toNat + 7152 * g.toNat + 722 * b.toNat
    lum r g b ≤ 255 ∧ 10000 * lum r g b ≤ x + 5000 ∧ x + 5000 < 10000 * lum r g b + 10000

/-- R231, R35: MET_DIFF gives the exact integer sums over the channels R, G, B of the pixels, no accumulator wraps, and it changes no
byte of memory. -/
def Obligations.MetDiffSumsExactly : Prop :=
  ∀ s, Fits s s.src.toNat (4 * s.pixcnt.toNat) → Fits s s.dst.toNat (4 * s.pixcnt.toNat) →
    let px := Finset.range s.pixcnt.toNat
    let a := fun p c : Nat => s.mem.read (s.src.toNat + 4 * p + c)
    let b := fun p c : Nat => s.mem.read (s.dst.toNat + 4 * p + c)
    let d := fun p c : Nat => ((a p c).toNat - (b p c).toNat : Int).natAbs
    let la := fun p : Nat => lumAt s.mem (s.src.toNat + 4 * p)
    let lb := fun p : Nat => lumAt s.mem (s.dst.toNat + 4 * p)
    ∃ m, exec .metDiff s = .next (afterSuccess false { s with metrics := m, result := s.pixcnt })
      ∧ m.biterr.toNat = ∑ p ∈ px, ∑ c ∈ Finset.range 3, ∑ i ∈ Finset.range 8, ((a p c ^^^ b p c).getLsbD i).toNat
      ∧ m.chgpix.toNat = (px.filter fun p => ∃ c ∈ Finset.range 3, a p c ≠ b p c).card
      ∧ m.absdiff.toNat = ∑ p ∈ px, ∑ c ∈ Finset.range 3, d p c
      ∧ m.sqdiff.toNat = ∑ p ∈ px, ∑ c ∈ Finset.range 3, d p c ^ 2
      ∧ m.la.toNat = ∑ p ∈ px, la p ∧ m.lb.toNat = ∑ p ∈ px, lb p
      ∧ m.lalb.toNat = ∑ p ∈ px, la p * lb p ∧ m.la2.toNat = ∑ p ∈ px, la p ^ 2 ∧ m.lb2.toNat = ∑ p ∈ px, lb p ^ 2
      ∧ m.Within s.pixcnt.toNat

/-- R231, R236: MET_DIFF of a buffer against itself. -/
def Obligations.MetDiffOfABufferWithItself : Prop :=
  ∀ s, s.src = s.dst → Fits s s.src.toNat (4 * s.pixcnt.toNat) →
    ∃ m, exec .metDiff s = .next (afterSuccess false { s with metrics := m, result := s.pixcnt })
      ∧ m.biterr = 0#64 ∧ m.chgpix = 0#32 ∧ m.absdiff = 0#64 ∧ m.sqdiff = 0#64 ∧ m.la = m.lb ∧ m.la2 = m.lb2 ∧ m.la2 = m.lalb

/-- R232: MET_HIST writes, for each luminance `j`, the number of pixels that have it, big-endian at DST + 4j; the counts sum to the
number of pixels, and no other byte changes. -/
def Obligations.MetHistCountsLuminances : Prop :=
  ∀ s, Memory.wf s.mem = true → Fits s s.src.toNat (4 * s.pixcnt.toNat) → Fits s s.dst.toNat 1024 →
    ¬ Shares s.src.toNat (4 * s.pixcnt.toNat) s.dst.toNat 1024 →
    ∃ m, exec .metHist s = .next (afterSuccess false { s with mem := m, result := s.pixcnt })
      ∧ (∀ j < 256, (wordAt m (s.dst.toNat + 4 * j)).toNat
          = ((Finset.range s.pixcnt.toNat).filter fun p => lumAt s.mem (s.src.toNat + 4 * p) = j).card)
      ∧ ∑ j ∈ Finset.range 256, (wordAt m (s.dst.toNat + 4 * j)).toNat = s.pixcnt.toNat
      ∧ SameOutside s.mem m s.dst.toNat 1024

/-- R231, R232, R252: the errors of MET_DIFF and MET_HIST, in the order of their checks. -/
def Obligations.MetricErrorOrder : Prop :=
  ∀ s, (¬ Fits s s.src.toNat (4 * s.pixcnt.toNat) →
      exec .metDiff s = .next (afterError 0x02#8 s.src s) ∧ exec .metHist s = .next (afterError 0x02#8 s.src s))
    ∧ (Fits s s.src.toNat (4 * s.pixcnt.toNat) → ¬ Fits s s.dst.toNat (4 * s.pixcnt.toNat) →
        exec .metDiff s = .next (afterError 0x02#8 s.dst s))
    ∧ (Fits s s.src.toNat (4 * s.pixcnt.toNat) → ¬ Fits s s.dst.toNat 1024 →
        exec .metHist s = .next (afterError 0x02#8 s.dst s))
    ∧ (Fits s s.src.toNat (4 * s.pixcnt.toNat) → Fits s s.dst.toNat 1024 →
        Shares s.src.toNat (4 * s.pixcnt.toNat) s.dst.toNat 1024 → exec .metHist s = .next (afterError 0x03#8 s.dst s))

/-! ## Reset, abort and invariants -/

/-- R22, R280: after reset every register reads its reset value, ID its identification and all others 0, and the line is low. -/
def Obligations.ResetRegisterValues : Prop :=
  (∀ r : Reg, (hostReadReg (some r) State.reset).1 = if r = .id then 0x54434231#32 else 0#32) ∧ State.reset.irq = false

/-- R280, R281: a turn of the reset input, and a host write of 1 to SRST, from any state, idle or busy, are a hardware reset: every
register at its reset value, IE among them, the line low, memory untouched unless a command was in flight. (That the host is not
reset: the model's reading, log 14. That the reset input is a turn of the schedule: the model's form, log 2.) -/
def Obligations.ResetFromAnyState : Prop :=
  ∀ s : State, (∀ r : Reg, r.value (hardReset s) = if r = .id then 0x54434231#32 else 0#32)
    ∧ (hardReset s).status = ⟨false, false, false, false, 0#8⟩ ∧ (hardReset s).irq = false
    ∧ (hardReset s).plat = s.plat ∧ (hardReset s).host = s.host
    ∧ (s.status.busy = false → (hardReset s).mem = s.mem)
    ∧ (∀ v : Word, v.getLsbD 1 = true → hostWriteReg (some .ctrl) v s = hardReset s)
    ∧ ∀ rest, s.schedule = .hardReset :: rest → step s = .next (hardReset { s with schedule := rest })

/-- R282: after an abort each byte holds its value at issue, or, inside the write footprint of a command that would have succeeded,
the value that success would have written; every byte keeps its value if the command would have failed. -/
def Obligations.AbortLeavesOldOrNewBytes : Prop :=
  ∀ s x, Memory.wf s.mem = true → s.status.busy = true →
    (hardReset s).mem.read x = s.mem.read x
      ∨ ∃ i t, decode s.cmd = .ok i ∧ exec i s = .next t ∧ t.status.errcode = 0#8
          ∧ (∃ r ∈ writeRanges i s, r.holds x = true) ∧ (hardReset s).mem.read x = t.mem.read x

/-- The sound-state invariant holds after reset. (That the platform and the memory of `State.reset` are in range rests on logs 3 and
4, the model's choices.) -/
def Obligations.ResetIsSound : Prop := State.reset.Inv

/-- Every step, of any agent, keeps the sound-state invariant: memory canonical and inside its address space, ERRCODE a code of R250,
no outcome shown while busy, PADBAD never beside an error, no error detail without an error. -/
def Obligations.StepKeepsStatesSound : Prop := ∀ s t, s.Inv → step s = .next t → t.Inv

/-- R35: the bounds of the accumulators, for any PIXCNT below 2^32, are kept by every step. -/
def Obligations.StepKeepsAccumulatorBounds : Prop :=
  ∀ s t, s.metrics.Within (2 ^ 32 - 1) → step s = .next t → t.metrics.Within (2 ^ 32 - 1)
end

