-- ==== Sys2Proof/Laws/Memory.lean ====
section
/-! SUPPORT. The laws of buffer memory: reading after writing, the canonical form, and the addresses that exist. -/

namespace Sys2Proof.Laws

open Sys2Proof.Machine

/-- Every listed address is above `a`. -/
abbrev Above (a : Nat) (m : Memory) : Prop := ∀ c ∈ m, a < c.1

theorem wf_cons {a : Nat} {b : Byte} {m : Memory} :
    Memory.wf ((a, b) :: m) = true ↔ b ≠ Memory.fill ∧ Above a m ∧ Memory.wf m = true := by
  simp [Memory.wf, Above, and_assoc]

/-- An address below every listed one reads as the fill. -/
theorem read_of_above {m : Memory} {a x : Nat} (h : Above a m) (hx : x ≤ a) : m.read x = Memory.fill := by
  cases m with
  | nil => rfl
  | cons c m =>
    have := h c (by simp)
    simp [Memory.read, show ¬ x = c.1 by omega, show x < c.1 by omega]

@[simp] theorem read_write_same (m : Memory) (a : Nat) (b : Byte) (h : Memory.wf m = true) : (m.write a b).read a = b := by
  induction m with
  | nil => by_cases hb : b = Memory.fill <;> simp [Memory.write, hb, Memory.read]
  | cons c m ih =>
    obtain ⟨a', b'⟩ := c
    obtain ⟨-, hab, hm⟩ := wf_cons.1 h
    by_cases h1 : a = a'
    · subst h1
      by_cases hb : b = Memory.fill
      · simp [Memory.write, hb, read_of_above hab le_rfl]
      · simp [Memory.write, hb, Memory.read]
    · by_cases h2 : a < a'
      · by_cases hb : b = Memory.fill <;> simp [Memory.write, h1, h2, hb, Memory.read]
      · simp [Memory.write, h1, h2, Memory.read, ih hm]

theorem read_write_ne (m : Memory) (a x : Nat) (b : Byte) (h : Memory.wf m = true) (hx : x ≠ a) :
    (m.write a b).read x = m.read x := by
  induction m with
  | nil => by_cases hb : b = Memory.fill <;> simp [Memory.write, hb, Memory.read, hx]
  | cons c m ih =>
    obtain ⟨a', b'⟩ := c
    obtain ⟨-, hab, hm⟩ := wf_cons.1 h
    by_cases h1 : a = a'
    · subst h1
      by_cases hb : b = Memory.fill
      · by_cases hlt : x < a
        · simp [Memory.write, hb, Memory.read, hx, hlt, read_of_above hab hlt.le]
        · simp [Memory.write, hb, Memory.read, hx, hlt]
      · simp [Memory.write, hb, Memory.read, hx]
    · by_cases h2 : a < a'
      · by_cases hb : b = Memory.fill
        · simp [Memory.write, h1, h2, hb]
        · by_cases hlt : x < a
          · simp [Memory.write, h1, h2, hb, Memory.read, hx, hlt, show ¬ x = a' by omega, show x < a' by omega]
          · simp [Memory.write, h1, h2, hb, Memory.read, hx, hlt]
      · simp [Memory.write, h1, h2, Memory.read, ih hm]

/-- One write, read anywhere. -/
theorem read_write (m : Memory) (a x : Nat) (b : Byte) (h : Memory.wf m = true) :
    (m.write a b).read x = if x = a then b else m.read x := by
  by_cases hx : x = a
  · subst hx; simp [h]
  · simp [hx, read_write_ne m a x b h hx]

/-- A write lists no address but its own and those listed before. -/
theorem mem_write {m : Memory} {a : Nat} {b : Byte} {c : Host.Cell} (h : c ∈ m.write a b) : c.1 = a ∨ c ∈ m := by
  induction m with
  | nil => by_cases hb : b = Memory.fill <;> simp_all [Memory.write]
  | cons c' m ih =>
    obtain ⟨a', b'⟩ := c'
    by_cases h1 : a = a'
    · by_cases hb : b = Memory.fill <;> simp_all [Memory.write]
      rcases h with h | h <;> simp_all
    · by_cases h2 : a < a'
      · by_cases hb : b = Memory.fill
        · simp_all [Memory.write]
        · simp only [Memory.write, h1, h2, hb, if_true, if_false, List.mem_cons] at h
          rcases h with h | h
          · exact .inl (by simp [h])
          · exact .inr (by simpa using h)
      · simp only [Memory.write, h1, h2, if_false, List.mem_cons] at h
        rcases h with h | h
        · exact .inr (by simp [h])
        · rcases ih h with h | h
          · exact .inl h
          · exact .inr (by simp [h])

/-- A write keeps the canonical form. -/
@[simp] theorem write_wf (m : Memory) (a : Nat) (b : Byte) (h : Memory.wf m = true) : Memory.wf (m.write a b) = true := by
  induction m with
  | nil => by_cases hb : b = Memory.fill <;> simp [Memory.write, hb, Memory.wf]
  | cons c m ih =>
    obtain ⟨a', b'⟩ := c
    obtain ⟨hb', hab, hm⟩ := wf_cons.1 h
    by_cases h1 : a = a'
    · subst h1
      by_cases hb : b = Memory.fill
      · simpa [Memory.write, hb] using hm
      · simpa [Memory.write, hb] using wf_cons.2 ⟨hb, hab, hm⟩
    · by_cases h2 : a < a'
      · by_cases hb : b = Memory.fill
        · simpa [Memory.write, h1, h2, hb] using h
        · have : Above a ((a', b') :: m) := by
            intro c hc
            rcases List.mem_cons.1 hc with rfl | hc
            · exact h2
            · exact h2.trans (hab c hc)
          simpa [Memory.write, h1, h2, hb] using wf_cons.2 ⟨hb, this, h⟩
      · have : Above a' (Memory.write m a b) := by
          intro c hc
          rcases mem_write hc with h3 | h3
          · omega
          · exact hab c h3
        simpa [Memory.write, h1, h2] using wf_cons.2 ⟨hb', this, ih hm⟩

/-- A write to an address that exists keeps memory inside its address space. -/
theorem write_inside (p : Platform) (m : Memory) (a : Nat) (b : Byte) (h : Memory.inside p m = true) (ha : a < p.memSize) :
    Memory.inside p (m.write a b) = true := by
  simp only [Memory.inside, List.all_eq_true, decide_eq_true_eq] at *
  intro c hc
  rcases mem_write hc with h1 | h1
  · omega
  · exact h c h1

/-- Writing the fill lists no new address. -/
theorem mem_write_fill {m : Memory} {a : Nat} {c : Host.Cell} (h : c ∈ m.write a Memory.fill) : c ∈ m := by
  induction m with
  | nil => simp [Memory.write] at h
  | cons c' m ih =>
    obtain ⟨a', b'⟩ := c'
    by_cases h1 : a = a'
    · simp [Memory.write, h1] at h; exact List.mem_cons_of_mem _ h
    · by_cases h2 : a < a'
      · simpa [Memory.write, h1, h2] using h
      · simp only [Memory.write, h1, h2, if_false, List.mem_cons] at h
        rcases h with h | h
        · exact List.mem_cons.2 (.inl h)
        · exact List.mem_cons_of_mem _ (ih h)

/-- An address that does not exist reads as the fill. -/
theorem read_outside {p : Platform} {m : Memory} (h : Memory.inside p m = true) {a : Nat} (ha : p.memSize ≤ a) :
    m.read a = Memory.fill := by
  induction m with
  | nil => rfl
  | cons c m ih =>
    obtain ⟨a', b'⟩ := c
    simp only [Memory.inside, List.all_cons, Bool.and_eq_true, decide_eq_true_eq] at h
    rw [Memory.read, if_neg (by omega), if_neg (by omega)]
    exact ih h.2

/-- Copying a byte of one memory into another keeps both inside the address space, wherever the byte stands. -/
theorem write_read_inside {p : Platform} {new m : Memory} (a : Nat) (hn : Memory.inside p new = true) (h : Memory.inside p m = true) :
    Memory.inside p (m.write a (new.read a)) = true := by
  by_cases ha : a < p.memSize
  · exact write_inside p m _ _ h ha
  · rw [read_outside hn (by omega)]
    simp only [Memory.inside, List.all_eq_true] at *
    exact fun c hc => h c (mem_write_fill hc)

/-- Two canonical memories that read the same everywhere are equal. -/
theorem memory_ext {m m' : Memory} (h : Memory.wf m = true) (h' : Memory.wf m' = true) (hr : ∀ a, m.read a = m'.read a) :
    m = m' := by
  induction m generalizing m' with
  | nil =>
    cases m' with
    | nil => rfl
    | cons c m' =>
      obtain ⟨a, b⟩ := c
      have := hr a
      exact absurd (by simpa [Memory.read] using this.symm) (wf_cons.1 h').1
  | cons c m ih =>
    obtain ⟨a, b⟩ := c
    obtain ⟨hb, hab, hm⟩ := wf_cons.1 h
    cases m' with
    | nil =>
      have := hr a
      exact absurd (by simpa [Memory.read] using this) hb
    | cons c' m' =>
      obtain ⟨a', b'⟩ := c'
      obtain ⟨hb', hab', hm'⟩ := wf_cons.1 h'
      have haa : a = a' := by
        rcases lt_trichotomy a a' with hlt | heq | hgt
        · have := hr a
          exact absurd (by simpa [Memory.read, show ¬ a = a' by omega, hlt] using this) hb
        · exact heq
        · have := hr a'
          exact absurd (by simpa [Memory.read, show ¬ a' = a by omega, hgt] using this.symm) hb'
      subst haa
      have hbb : b = b' := by simpa [Memory.read] using hr a
      subst hbb
      have : m = m' := by
        refine ih hm hm' fun x => ?_
        by_cases hx : x ≤ a
        · rw [read_of_above hab hx, read_of_above hab' hx]
        · simpa [Memory.read, show ¬ x = a by omega, show ¬ x < a by omega] using hr x
      rw [this]

/-! ## Byte strings -/

@[simp] theorem length_readBytes (m : Memory) (a n : Nat) : (readBytes m a n).length = n := by
  induction n generalizing a with
  | zero => rfl
  | succ n ih => simp [readBytes, ih]

/-- Byte `i` of `MemRead(a, n)`. -/
theorem getElem_readBytes (m : Memory) (a n i : Nat) (h : i < (readBytes m a n).length) :
    (readBytes m a n)[i] = m.read (a + i) := by
  induction n generalizing a i with
  | zero => simp [readBytes] at h
  | succ n ih =>
    cases i with
    | zero => simp [readBytes]
    | succ i => simp [readBytes, ih, Nat.add_comm 1, Nat.add_assoc]

theorem getD_readBytes (m : Memory) (a n i : Nat) (h : i < n) : (readBytes m a n).getD i 0#8 = m.read (a + i) := by
  rw [List.getD_eq_getElem _ _ (by simpa using h), getElem_readBytes]

/-- `MemWrite` keeps the canonical form. -/
@[simp] theorem writeBytes_wf (m : Memory) (a : Nat) (bs : List Byte) (h : Memory.wf m = true) :
    Memory.wf (writeBytes m a bs) = true := by
  induction bs generalizing m a with
  | nil => exact h
  | cons b bs ih => exact ih _ _ (write_wf m a b h)

/-- `MemWrite` inside the address space keeps memory inside it. -/
theorem writeBytes_inside (p : Platform) (m : Memory) (a : Nat) (bs : List Byte) (h : Memory.inside p m = true)
    (ha : bs = [] ∨ a + bs.length ≤ p.memSize) : Memory.inside p (writeBytes m a bs) = true := by
  induction bs generalizing m a with
  | nil => exact h
  | cons b bs ih =>
    have hl : a + (bs.length + 1) ≤ p.memSize := by simpa using ha
    exact ih _ _ (write_inside p m a b h (by omega)) (.inr (by omega))

/-- `MemWrite` read anywhere: byte `x - a` of the string inside its range, memory as before outside it. -/
theorem read_writeBytes (m : Memory) (a : Nat) (bs : List Byte) (x : Nat) (h : Memory.wf m = true) :
    (writeBytes m a bs).read x = if a ≤ x ∧ x < a + bs.length then bs.getD (x - a) 0#8 else m.read x := by
  induction bs generalizing m a with
  | nil => simp [writeBytes, show ¬ (a ≤ x ∧ x < a) by omega]
  | cons b bs ih =>
    rw [writeBytes, ih _ _ (write_wf m a b h), read_write m a x b h]
    by_cases hx : x = a
    · subst hx; simp [show ¬ (x + 1 ≤ x) by omega]
    · by_cases h1 : a ≤ x ∧ x < a + (bs.length + 1)
      · have h2 : a + 1 ≤ x ∧ x < a + 1 + bs.length := by omega
        have h3 : x - a = (x - (a + 1)) + 1 := by omega
        simp [h2, h1, h3]
      · have h2 : ¬ (a + 1 ≤ x ∧ x < a + 1 + bs.length) := by omega
        rw [if_neg h2, if_neg hx, if_neg (by simpa using h1)]

theorem read_writeBytes_at (m : Memory) (a : Nat) (bs : List Byte) (i : Nat) (h : Memory.wf m = true) (hi : i < bs.length) :
    (writeBytes m a bs).read (a + i) = bs[i] := by
  rw [read_writeBytes m a bs (a + i) h, if_pos (by omega), Nat.add_sub_cancel_left, List.getD_eq_getElem _ _ hi]

theorem read_writeBytes_out (m : Memory) (a : Nat) (bs : List Byte) (x : Nat) (h : Memory.wf m = true)
    (hx : x < a ∨ a + bs.length ≤ x) : (writeBytes m a bs).read x = m.read x := by
  rw [read_writeBytes m a bs x h, if_neg (by omega)]

end Sys2Proof.Laws
end

