-- ==== Sys2Proof/Laws/State.lean ====
section
/-! SUPPORT. What each update of the state leaves in each field. -/

namespace Sys2Proof.Laws

open Sys2Proof.Machine

/-! ## `issue` -/

@[simp] theorem issue_ctrlIE (w : Word) (s : State) : (issue w s).ctrlIE = s.ctrlIE := rfl
@[simp] theorem issue_status (w : Word) (s : State) : (issue w s).status = s.status.issued := rfl
@[simp] theorem issue_cmd (w : Word) (s : State) : (issue w s).cmd = w := rfl
@[simp] theorem issue_v0 (w : Word) (s : State) : (issue w s).v0 = s.v0 := rfl
@[simp] theorem issue_v1 (w : Word) (s : State) : (issue w s).v1 = s.v1 := rfl
@[simp] theorem issue_sum (w : Word) (s : State) : (issue w s).sum = s.sum := rfl
@[simp] theorem issue_k0 (w : Word) (s : State) : (issue w s).k0 = s.k0 := rfl
@[simp] theorem issue_k1 (w : Word) (s : State) : (issue w s).k1 = s.k1 := rfl
@[simp] theorem issue_k2 (w : Word) (s : State) : (issue w s).k2 = s.k2 := rfl
@[simp] theorem issue_k3 (w : Word) (s : State) : (issue w s).k3 = s.k3 := rfl
@[simp] theorem issue_src (w : Word) (s : State) : (issue w s).src = s.src := rfl
@[simp] theorem issue_dst (w : Word) (s : State) : (issue w s).dst = s.dst := rfl
@[simp] theorem issue_len (w : Word) (s : State) : (issue w s).len = s.len := rfl
@[simp] theorem issue_pixcnt (w : Word) (s : State) : (issue w s).pixcnt = s.pixcnt := rfl
@[simp] theorem issue_result (w : Word) (s : State) : (issue w s).result = s.result := rfl
@[simp] theorem issue_raddr (w : Word) (s : State) : (issue w s).raddr = s.raddr := rfl
@[simp] theorem issue_errinfo (w : Word) (s : State) : (issue w s).errinfo = s.errinfo := rfl
@[simp] theorem issue_metrics (w : Word) (s : State) : (issue w s).metrics = s.metrics := rfl
@[simp] theorem issue_mem (w : Word) (s : State) : (issue w s).mem = s.mem := rfl
@[simp] theorem issue_plat (w : Word) (s : State) : (issue w s).plat = s.plat := rfl
@[simp] theorem issue_host (w : Word) (s : State) : (issue w s).host = s.host := rfl
@[simp] theorem issue_schedule (w : Word) (s : State) : (issue w s).schedule = s.schedule := rfl
@[simp] theorem issue_draws (w : Word) (s : State) : (issue w s).draws = s.draws := rfl

/-! ## `complete` -/

@[simp] theorem complete_ctrlIE (b : Bool) (s : State) : (complete b s).ctrlIE = s.ctrlIE := rfl
@[simp] theorem complete_status (b : Bool) (s : State) : (complete b s).status = s.status.completed b := rfl
@[simp] theorem complete_cmd (b : Bool) (s : State) : (complete b s).cmd = s.cmd := rfl
@[simp] theorem complete_v0 (b : Bool) (s : State) : (complete b s).v0 = s.v0 := rfl
@[simp] theorem complete_v1 (b : Bool) (s : State) : (complete b s).v1 = s.v1 := rfl
@[simp] theorem complete_sum (b : Bool) (s : State) : (complete b s).sum = s.sum := rfl
@[simp] theorem complete_k0 (b : Bool) (s : State) : (complete b s).k0 = s.k0 := rfl
@[simp] theorem complete_k1 (b : Bool) (s : State) : (complete b s).k1 = s.k1 := rfl
@[simp] theorem complete_k2 (b : Bool) (s : State) : (complete b s).k2 = s.k2 := rfl
@[simp] theorem complete_k3 (b : Bool) (s : State) : (complete b s).k3 = s.k3 := rfl
@[simp] theorem complete_src (b : Bool) (s : State) : (complete b s).src = s.src := rfl
@[simp] theorem complete_dst (b : Bool) (s : State) : (complete b s).dst = s.dst := rfl
@[simp] theorem complete_len (b : Bool) (s : State) : (complete b s).len = s.len := rfl
@[simp] theorem complete_pixcnt (b : Bool) (s : State) : (complete b s).pixcnt = s.pixcnt := rfl
@[simp] theorem complete_result (b : Bool) (s : State) : (complete b s).result = s.result := rfl
@[simp] theorem complete_raddr (b : Bool) (s : State) : (complete b s).raddr = s.raddr := rfl
@[simp] theorem complete_errinfo (b : Bool) (s : State) : (complete b s).errinfo = 0#32 := rfl
@[simp] theorem complete_metrics (b : Bool) (s : State) : (complete b s).metrics = s.metrics := rfl
@[simp] theorem complete_mem (b : Bool) (s : State) : (complete b s).mem = s.mem := rfl
@[simp] theorem complete_plat (b : Bool) (s : State) : (complete b s).plat = s.plat := rfl
@[simp] theorem complete_host (b : Bool) (s : State) : (complete b s).host = s.host := rfl
@[simp] theorem complete_schedule (b : Bool) (s : State) : (complete b s).schedule = s.schedule := rfl
@[simp] theorem complete_draws (b : Bool) (s : State) : (complete b s).draws = s.draws := rfl

/-! ## `raiseErr` -/

@[simp] theorem raiseErr_ctrlIE (e : ErrCode) (info : Word) (s : State) : (raiseErr e info s).ctrlIE = s.ctrlIE := rfl
@[simp] theorem raiseErr_status (e : ErrCode) (info : Word) (s : State) : (raiseErr e info s).status = s.status.failed e := rfl
@[simp] theorem raiseErr_cmd (e : ErrCode) (info : Word) (s : State) : (raiseErr e info s).cmd = s.cmd := rfl
@[simp] theorem raiseErr_v0 (e : ErrCode) (info : Word) (s : State) : (raiseErr e info s).v0 = s.v0 := rfl
@[simp] theorem raiseErr_v1 (e : ErrCode) (info : Word) (s : State) : (raiseErr e info s).v1 = s.v1 := rfl
@[simp] theorem raiseErr_sum (e : ErrCode) (info : Word) (s : State) : (raiseErr e info s).sum = s.sum := rfl
@[simp] theorem raiseErr_k0 (e : ErrCode) (info : Word) (s : State) : (raiseErr e info s).k0 = s.k0 := rfl
@[simp] theorem raiseErr_k1 (e : ErrCode) (info : Word) (s : State) : (raiseErr e info s).k1 = s.k1 := rfl
@[simp] theorem raiseErr_k2 (e : ErrCode) (info : Word) (s : State) : (raiseErr e info s).k2 = s.k2 := rfl
@[simp] theorem raiseErr_k3 (e : ErrCode) (info : Word) (s : State) : (raiseErr e info s).k3 = s.k3 := rfl
@[simp] theorem raiseErr_src (e : ErrCode) (info : Word) (s : State) : (raiseErr e info s).src = s.src := rfl
@[simp] theorem raiseErr_dst (e : ErrCode) (info : Word) (s : State) : (raiseErr e info s).dst = s.dst := rfl
@[simp] theorem raiseErr_len (e : ErrCode) (info : Word) (s : State) : (raiseErr e info s).len = s.len := rfl
@[simp] theorem raiseErr_pixcnt (e : ErrCode) (info : Word) (s : State) : (raiseErr e info s).pixcnt = s.pixcnt := rfl
@[simp] theorem raiseErr_result (e : ErrCode) (info : Word) (s : State) : (raiseErr e info s).result = s.result := rfl
@[simp] theorem raiseErr_raddr (e : ErrCode) (info : Word) (s : State) : (raiseErr e info s).raddr = s.raddr := rfl
@[simp] theorem raiseErr_errinfo (e : ErrCode) (info : Word) (s : State) : (raiseErr e info s).errinfo = info := rfl
@[simp] theorem raiseErr_metrics (e : ErrCode) (info : Word) (s : State) : (raiseErr e info s).metrics = s.metrics := rfl
@[simp] theorem raiseErr_mem (e : ErrCode) (info : Word) (s : State) : (raiseErr e info s).mem = s.mem := rfl
@[simp] theorem raiseErr_plat (e : ErrCode) (info : Word) (s : State) : (raiseErr e info s).plat = s.plat := rfl
@[simp] theorem raiseErr_host (e : ErrCode) (info : Word) (s : State) : (raiseErr e info s).host = s.host := rfl
@[simp] theorem raiseErr_schedule (e : ErrCode) (info : Word) (s : State) : (raiseErr e info s).schedule = s.schedule := rfl
@[simp] theorem raiseErr_draws (e : ErrCode) (info : Word) (s : State) : (raiseErr e info s).draws = s.draws := rfl

/-! ## `tick` -/

@[simp] theorem tick_ctrlIE (s : State) : (tick s).ctrlIE = s.ctrlIE := rfl
@[simp] theorem tick_status (s : State) : (tick s).status = s.status := rfl
@[simp] theorem tick_cmd (s : State) : (tick s).cmd = s.cmd := rfl
@[simp] theorem tick_v0 (s : State) : (tick s).v0 = s.v0 := rfl
@[simp] theorem tick_v1 (s : State) : (tick s).v1 = s.v1 := rfl
@[simp] theorem tick_sum (s : State) : (tick s).sum = s.sum := rfl
@[simp] theorem tick_k0 (s : State) : (tick s).k0 = s.k0 := rfl
@[simp] theorem tick_k1 (s : State) : (tick s).k1 = s.k1 := rfl
@[simp] theorem tick_k2 (s : State) : (tick s).k2 = s.k2 := rfl
@[simp] theorem tick_k3 (s : State) : (tick s).k3 = s.k3 := rfl
@[simp] theorem tick_src (s : State) : (tick s).src = s.src := rfl
@[simp] theorem tick_dst (s : State) : (tick s).dst = s.dst := rfl
@[simp] theorem tick_len (s : State) : (tick s).len = s.len := rfl
@[simp] theorem tick_pixcnt (s : State) : (tick s).pixcnt = s.pixcnt := rfl
@[simp] theorem tick_result (s : State) : (tick s).result = s.result := rfl
@[simp] theorem tick_raddr (s : State) : (tick s).raddr = s.raddr := rfl
@[simp] theorem tick_errinfo (s : State) : (tick s).errinfo = s.errinfo := rfl
@[simp] theorem tick_metrics (s : State) : (tick s).metrics = s.metrics := rfl
@[simp] theorem tick_mem (s : State) : (tick s).mem = s.mem := rfl
@[simp] theorem tick_plat (s : State) : (tick s).plat = s.plat := rfl
@[simp] theorem tick_host (s : State) : (tick s).host = s.host := rfl
@[simp] theorem tick_schedule (s : State) : (tick s).schedule = s.schedule.tail := rfl
@[simp] theorem tick_draws (s : State) : (tick s).draws = s.draws := rfl

/-! ## `advance` -/

@[simp] theorem advance_ctrlIE (s : State) : (advance s).ctrlIE = s.ctrlIE := rfl
@[simp] theorem advance_status (s : State) : (advance s).status = s.status := rfl
@[simp] theorem advance_cmd (s : State) : (advance s).cmd = s.cmd := rfl
@[simp] theorem advance_v0 (s : State) : (advance s).v0 = s.v0 := rfl
@[simp] theorem advance_v1 (s : State) : (advance s).v1 = s.v1 := rfl
@[simp] theorem advance_sum (s : State) : (advance s).sum = s.sum := rfl
@[simp] theorem advance_k0 (s : State) : (advance s).k0 = s.k0 := rfl
@[simp] theorem advance_k1 (s : State) : (advance s).k1 = s.k1 := rfl
@[simp] theorem advance_k2 (s : State) : (advance s).k2 = s.k2 := rfl
@[simp] theorem advance_k3 (s : State) : (advance s).k3 = s.k3 := rfl
@[simp] theorem advance_src (s : State) : (advance s).src = s.src := rfl
@[simp] theorem advance_dst (s : State) : (advance s).dst = s.dst := rfl
@[simp] theorem advance_len (s : State) : (advance s).len = s.len := rfl
@[simp] theorem advance_pixcnt (s : State) : (advance s).pixcnt = s.pixcnt := rfl
@[simp] theorem advance_result (s : State) : (advance s).result = s.result := rfl
@[simp] theorem advance_raddr (s : State) : (advance s).raddr = s.raddr := rfl
@[simp] theorem advance_errinfo (s : State) : (advance s).errinfo = s.errinfo := rfl
@[simp] theorem advance_metrics (s : State) : (advance s).metrics = s.metrics := rfl
@[simp] theorem advance_mem (s : State) : (advance s).mem = s.mem := rfl
@[simp] theorem advance_plat (s : State) : (advance s).plat = s.plat := rfl
@[simp] theorem advance_host (s : State) : (advance s).host = { s.host with pc := s.host.pc + 1 } := rfl
@[simp] theorem advance_schedule (s : State) : (advance s).schedule = s.schedule := rfl
@[simp] theorem advance_draws (s : State) : (advance s).draws = s.draws := rfl

/-! ## `Status.issued` -/

@[simp] theorem status_issued_busy (st : Status) : (st.issued).busy = true := rfl
@[simp] theorem status_issued_done (st : Status) : (st.issued).done = false := rfl
@[simp] theorem status_issued_padbad (st : Status) : (st.issued).padbad = false := rfl
@[simp] theorem status_issued_werr (st : Status) : (st.issued).werr = st.werr := rfl
@[simp] theorem status_issued_errcode (st : Status) : (st.issued).errcode = 0#8 := rfl

/-! ## `Status.completed` -/

@[simp] theorem status_completed_busy (st : Status) (b : Bool) : (st.completed b).busy = false := rfl
@[simp] theorem status_completed_done (st : Status) (b : Bool) : (st.completed b).done = true := rfl
@[simp] theorem status_completed_padbad (st : Status) (b : Bool) : (st.completed b).padbad = b := rfl
@[simp] theorem status_completed_werr (st : Status) (b : Bool) : (st.completed b).werr = st.werr := rfl
@[simp] theorem status_completed_errcode (st : Status) (b : Bool) : (st.completed b).errcode = 0#8 := rfl

/-! ## `Status.failed` -/

@[simp] theorem status_failed_busy (st : Status) (e : ErrCode) : (st.failed e).busy = false := rfl
@[simp] theorem status_failed_done (st : Status) (e : ErrCode) : (st.failed e).done = true := rfl
@[simp] theorem status_failed_padbad (st : Status) (e : ErrCode) : (st.failed e).padbad = false := rfl
@[simp] theorem status_failed_werr (st : Status) (e : ErrCode) : (st.failed e).werr = st.werr := rfl
@[simp] theorem status_failed_errcode (st : Status) (e : ErrCode) : (st.failed e).errcode = errCodeBits e := rfl

/-! ## `Status.refusedWrite` -/

@[simp] theorem status_refusedWrite_busy (st : Status) : (st.refusedWrite).busy = st.busy := rfl
@[simp] theorem status_refusedWrite_done (st : Status) : (st.refusedWrite).done = st.done := rfl
@[simp] theorem status_refusedWrite_padbad (st : Status) : (st.refusedWrite).padbad = st.padbad := rfl
@[simp] theorem status_refusedWrite_werr (st : Status) : (st.refusedWrite).werr = true := rfl
@[simp] theorem status_refusedWrite_errcode (st : Status) : (st.refusedWrite).errcode = st.errcode := rfl

/-! ## `setTemp` -/

@[simp] theorem setTemp_ctrlIE (t : Temp) (v : TempVal) (s : State) : (setTemp t v s).ctrlIE = s.ctrlIE := rfl
@[simp] theorem setTemp_status (t : Temp) (v : TempVal) (s : State) : (setTemp t v s).status = s.status := rfl
@[simp] theorem setTemp_cmd (t : Temp) (v : TempVal) (s : State) : (setTemp t v s).cmd = s.cmd := rfl
@[simp] theorem setTemp_v0 (t : Temp) (v : TempVal) (s : State) : (setTemp t v s).v0 = s.v0 := rfl
@[simp] theorem setTemp_v1 (t : Temp) (v : TempVal) (s : State) : (setTemp t v s).v1 = s.v1 := rfl
@[simp] theorem setTemp_sum (t : Temp) (v : TempVal) (s : State) : (setTemp t v s).sum = s.sum := rfl
@[simp] theorem setTemp_k0 (t : Temp) (v : TempVal) (s : State) : (setTemp t v s).k0 = s.k0 := rfl
@[simp] theorem setTemp_k1 (t : Temp) (v : TempVal) (s : State) : (setTemp t v s).k1 = s.k1 := rfl
@[simp] theorem setTemp_k2 (t : Temp) (v : TempVal) (s : State) : (setTemp t v s).k2 = s.k2 := rfl
@[simp] theorem setTemp_k3 (t : Temp) (v : TempVal) (s : State) : (setTemp t v s).k3 = s.k3 := rfl
@[simp] theorem setTemp_src (t : Temp) (v : TempVal) (s : State) : (setTemp t v s).src = s.src := rfl
@[simp] theorem setTemp_dst (t : Temp) (v : TempVal) (s : State) : (setTemp t v s).dst = s.dst := rfl
@[simp] theorem setTemp_len (t : Temp) (v : TempVal) (s : State) : (setTemp t v s).len = s.len := rfl
@[simp] theorem setTemp_pixcnt (t : Temp) (v : TempVal) (s : State) : (setTemp t v s).pixcnt = s.pixcnt := rfl
@[simp] theorem setTemp_result (t : Temp) (v : TempVal) (s : State) : (setTemp t v s).result = s.result := rfl
@[simp] theorem setTemp_raddr (t : Temp) (v : TempVal) (s : State) : (setTemp t v s).raddr = s.raddr := rfl
@[simp] theorem setTemp_errinfo (t : Temp) (v : TempVal) (s : State) : (setTemp t v s).errinfo = s.errinfo := rfl
@[simp] theorem setTemp_metrics (t : Temp) (v : TempVal) (s : State) : (setTemp t v s).metrics = s.metrics := rfl
@[simp] theorem setTemp_mem (t : Temp) (v : TempVal) (s : State) : (setTemp t v s).mem = s.mem := rfl
@[simp] theorem setTemp_plat (t : Temp) (v : TempVal) (s : State) : (setTemp t v s).plat = s.plat := rfl
@[simp] theorem setTemp_host (t : Temp) (v : TempVal) (s : State) : (setTemp t v s).host = { s.host with temps := assignTemp t v s.host.temps } := rfl
@[simp] theorem setTemp_schedule (t : Temp) (v : TempVal) (s : State) : (setTemp t v s).schedule = s.schedule := rfl
@[simp] theorem setTemp_draws (t : Temp) (v : TempVal) (s : State) : (setTemp t v s).draws = s.draws := rfl

end Sys2Proof.Laws
end

