-- ==== Sys2Proof/Laws/Ops.lean ====
section
/-! SUPPORT. One lemma per shared operation: everything it can do. -/

namespace Sys2Proof.Laws

open Sys2Proof.Machine

@[simp] theorem checkRange_iff (p : Platform) (a n : Nat) : checkRange p a n = true ↔ n = 0 ∨ a + n ≤ p.memSize := by
  simp [checkRange]

@[simp] theorem overlap_iff (a n b m : Nat) : overlap a n b m = true ↔ 0 < n ∧ 0 < m ∧ a < b + m ∧ b < a + n := by
  simp [overlap, and_assoc]

@[simp] theorem holds_iff (r : Range) (a : Nat) : r.holds a = true ↔ r.start ≤ a ∧ a < r.start + r.size := by
  simp [Range.holds]

@[simp] theorem failIf_true (e : ErrCode) (info : Word) : failIf true e info = some (e, info) := rfl

@[simp] theorem failIf_false (e : ErrCode) (info : Word) : failIf false e info = none := rfl

@[simp] theorem failIf_eq_none (b : Bool) (e : ErrCode) (info : Word) : failIf b e info = none ↔ b = false := by
  cases b <;> simp [failIf]

/-- An overlap check passes exactly when R65's `overlap` does not hold. -/
theorem overlapCheck_eq_none (s : State) (n m : Nat) :
    overlapCheck s n m = none ↔ ¬ (0 < n ∧ 0 < m ∧ s.src.toNat < s.dst.toNat + m ∧ s.dst.toNat < s.src.toNat + n) := by
  rw [← overlap_iff, overlapCheck, failIf_eq_none, Bool.not_eq_true]

/-- A range check passes exactly when R64's `check_range` does. -/
theorem rangeCheck_eq_none (s : State) (a : Word) (n : Nat) : rangeCheck s a n = none ↔ n = 0 ∨ a.toNat + n ≤ s.plat.memSize := by
  rw [← checkRange_iff, rangeCheck]
  cases checkRange s.plat a.toNat n <;> simp [failIf]

/-- No check fails exactly when every one passes. -/
theorem firstErr_eq_none (cs : List (Option Err)) : firstErr cs = none ↔ ∀ c ∈ cs, c = none := by
  induction cs with
  | nil => simp [firstErr]
  | cons c cs ih => cases c <;> simp [firstErr, ih]

/-- What the checks of a command that succeeds say, one by one. -/
theorem firstErr_cons_eq_none (c : Option Err) (cs : List (Option Err)) :
    firstErr (c :: cs) = none ↔ c = none ∧ firstErr cs = none := by
  cases c <;> simp [firstErr]

/-- An error reported is one of the checks' errors. -/
theorem firstErr_mem {cs : List (Option Err)} {e : Err} (h : firstErr cs = some e) : some e ∈ cs := by
  induction cs with
  | nil => cases h
  | cons c cs ih =>
    cases c with
    | none => exact List.mem_cons_of_mem _ (ih h)
    | some x => simp [firstErr] at h; simp [h]

/-- Everything a command's end can do: succeed with all of its effect, or complete with the first failing check. -/
theorem conclude_cases {cs : List (Option Err)} {effect : State → State} {s t : State} (h : conclude cs effect s = .next t) :
    (firstErr cs = none ∧ t = effect s) ∨ ∃ e info, firstErr cs = some (e, info) ∧ t = raiseErr e info s := by
  unfold conclude at h
  split at h
  · next e info he => exact .inr ⟨e, info, he, by simpa using h.symm⟩
  · next he => exact .inl ⟨he, by simpa using h.symm⟩

theorem conclude_none {cs : List (Option Err)} (effect : State → State) (s : State) (h : firstErr cs = none) :
    conclude cs effect s = .next (effect s) := by
  simp [conclude, h]

theorem conclude_some {cs : List (Option Err)} (effect : State → State) (s : State) {e : ErrCode} {info : Word}
    (h : firstErr cs = some (e, info)) : conclude cs effect s = .next (raiseErr e info s) := by
  simp [conclude, h]

/-- A check that passes drops out. -/
theorem conclude_skip {c : Option Err} {cs : List (Option Err)} {effect : State → State} {s : State} (h : c = none) :
    conclude (c :: cs) effect s = conclude cs effect s := by
  subst h; rfl

/-- The first check that fails is the one reported. -/
theorem conclude_fail {c : Option Err} {cs : List (Option Err)} {effect : State → State} {s : State} {e : ErrCode} {info : Word}
    (h : c = some (e, info)) : conclude (c :: cs) effect s = .next (raiseErr e info s) := by
  subst h; rfl

/-- Every error has a code other than 0, at most 8. -/
theorem errCodeBits_range (e : ErrCode) : errCodeBits e ≠ 0#8 ∧ (errCodeBits e).toNat ≤ 8 := by
  cases e <;> decide

/-! ## Big-endian conversion -/

@[simp] theorem length_bytes32 (w : Word) : (bytes32 w).length = 4 := rfl

/-- `BE32(BYTES32(w)) = w` (R9), whatever follows. -/
@[simp] theorem be32_bytes32 (w : Word) (bs : List Byte) : be32 (bytes32 w ++ bs) 0 = w := by
  simp only [be32, bytes32, List.cons_append, List.nil_append, List.getD_cons_zero, List.getD_cons_succ]
  ext i hi
  simp only [BitVec.getElem_append, BitVec.getElem_extractLsb']
  split_ifs <;> simp [← BitVec.getLsbD_eq_getElem] <;> congr 1 <;> omega

/-- `BYTES32(BE32(s)) = s` for the four bytes of a string (R9). -/
theorem bytes32_be32 (s : List Byte) (j : Nat) :
    bytes32 (be32 s j) = [s.getD j 0#8, s.getD (j + 1) 0#8, s.getD (j + 2) 0#8, s.getD (j + 3) 0#8] := by
  simp only [be32, bytes32, List.cons.injEq, and_true]
  refine ⟨?_, ?_, ?_, ?_⟩ <;>
  · ext i hi
    simp only [BitVec.getElem_extractLsb', BitVec.getLsbD_append]
    split_ifs <;> first | omega | (rw [BitVec.getLsbD_eq_getElem (by omega)]; congr 1; omega)

/-- `BE32` depends on its four bytes alone. -/
theorem be32_congr {l l' : List Byte} {j j' : Nat} (h : ∀ i < 4, l.getD (j + i) 0#8 = l'.getD (j' + i) 0#8) :
    be32 l j = be32 l' j' := by
  have h0 := h 0 (by omega)
  have h1 := h 1 (by omega)
  have h2 := h 2 (by omega)
  have h3 := h 3 (by omega)
  simp only [Nat.add_zero] at h0
  simp only [be32, show (0 : Byte) = 0#8 from rfl, h0, h1, h2, h3]

theorem be32_append_left {l l' : List Byte} {j : Nat} (h : j + 4 ≤ l.length) : be32 (l ++ l') j = be32 l j :=
  be32_congr fun i hi => by rw [List.getD_append _ _ _ _ (by omega)]

theorem be32_append_right {l l' : List Byte} {j : Nat} : be32 (l ++ l') (l.length + j) = be32 l' j :=
  be32_congr fun i hi => by rw [List.getD_append_right _ _ _ _ (by omega)]; congr 1; omega

/-- `MemRead` gives back what `MemWrite` wrote. -/
theorem readBytes_writeBytes {m : Memory} {a n : Nat} {l : List Byte} (hw : Memory.wf m = true) (h : n = l.length) :
    readBytes (writeBytes m a l) a n = l := by
  subst h
  apply List.ext_getElem
  · simp
  · intro i h1 h2
    rw [getElem_readBytes, read_writeBytes_at _ _ _ _ hw h2]

/-- `MemRead` depends on the bytes of its range alone. -/
theorem readBytes_congr {m m' : Memory} {a n : Nat} (h : ∀ x, a ≤ x → x < a + n → m'.read x = m.read x) :
    readBytes m' a n = readBytes m a n := by
  induction n generalizing a with
  | zero => rfl
  | succ n ih => rw [readBytes, readBytes, h a (by omega) (by omega), ih fun x h1 h2 => h x (by omega) (by omega)]

end Sys2Proof.Laws
end

