-- ==== Sys2Proof/Laws/Commands.lean ====
section
/-! SUPPORT. What the helpers of each command family compute, and what every command does in common. -/

namespace Sys2Proof.Laws

open Sys2Proof.Machine

/-! ## The meaning behind each constructor -/

theorem exec_nop (s : State) : exec .nop s = execNop s := rfl
theorem exec_teaEnc (s : State) : exec .teaEnc s = execTeaEnc s := rfl
theorem exec_teaDec (s : State) : exec .teaDec s = execTeaDec s := rfl
theorem exec_teaErnd (cnt : BitVec 5) (s : State) : exec (.teaErnd cnt) s = execTeaErnd cnt s := rfl
theorem exec_teaDrnd (cnt : BitVec 5) (s : State) : exec (.teaDrnd cnt) s = execTeaDrnd cnt s := rfl
theorem exec_zero (s : State) : exec .zero s = execZero s := rfl
theorem exec_keyLd (s : State) : exec .keyLd s = execKeyLd s := rfl
theorem exec_blkLd (s : State) : exec .blkLd s = execBlkLd s := rfl
theorem exec_blkSt (s : State) : exec .blkSt s = execBlkSt s := rfl
theorem exec_wLd (s : State) : exec .wLd s = execWLd s := rfl
theorem exec_wSt (s : State) : exec .wSt s = execWSt s := rfl
theorem exec_pad (s : State) : exec .pad s = execPad s := rfl
theorem exec_unpad (s : State) : exec .unpad s = execUnpad s := rfl
theorem exec_ecbEnc (s : State) : exec .ecbEnc s = execEcbEnc s := rfl
theorem exec_ecbDec (s : State) : exec .ecbDec s = execEcbDec s := rfl
theorem exec_msgEnc (s : State) : exec .msgEnc s = execMsgEnc s := rfl
theorem exec_msgDec (s : State) : exec .msgDec s = execMsgDec s := rfl
theorem exec_frWrap (s : State) : exec .frWrap s = execFrWrap s := rfl
theorem exec_frUnwrap (s : State) : exec .frUnwrap s = execFrUnwrap s := rfl
theorem exec_lsbCap (s : State) : exec .lsbCap s = execLsbCap s := rfl
theorem exec_lsbEmbed (s : State) : exec .lsbEmbed s = execLsbEmbed s := rfl
theorem exec_lsbExtract (s : State) : exec .lsbExtract s = execLsbExtract s := rfl
theorem exec_metDiff (s : State) : exec .metDiff s = execMetDiff s := rfl
theorem exec_metHist (s : State) : exec .metHist s = execMetHist s := rfl

/-! ## Every command -/

/-- What every successful completion leaves alike (R116): the completion fields, and the fields no command writes. -/
structure Completes (padbad : Bool) (s t : State) : Prop where
  status : t.status = s.status.completed padbad
  errinfo : t.errinfo = 0#32
  ctrlIE : t.ctrlIE = s.ctrlIE
  cmd : t.cmd = s.cmd
  src : t.src = s.src
  dst : t.dst = s.dst
  len : t.len = s.len
  pixcnt : t.pixcnt = s.pixcnt
  plat : t.plat = s.plat
  host : t.host = s.host
  schedule : t.schedule = s.schedule
  draws : t.draws = s.draws

/-- Everything a command can do (R115 to R117): its checks, and an effect that completes it. -/
theorem exec_shape (i : Instr) (s : State) :
    ∃ cs effect, exec i s = conclude cs effect s ∧ ∃ padbad, Completes padbad s (effect s) := by
  cases i
  case nop => unfold exec execNop; refine ⟨_, _, rfl, false, ?_⟩; constructor <;> rfl
  case teaEnc => unfold exec execTeaEnc; refine ⟨_, _, rfl, false, ?_⟩; constructor <;> rfl
  case teaDec => unfold exec execTeaDec; refine ⟨_, _, rfl, false, ?_⟩; constructor <;> rfl
  case teaErnd c => unfold exec execTeaErnd; refine ⟨_, _, rfl, false, ?_⟩; constructor <;> rfl
  case teaDrnd c => unfold exec execTeaDrnd; refine ⟨_, _, rfl, false, ?_⟩; constructor <;> rfl
  case zero => unfold exec execZero; refine ⟨_, _, rfl, false, ?_⟩; constructor <;> rfl
  case keyLd => unfold exec execKeyLd; refine ⟨_, _, rfl, false, ?_⟩; constructor <;> rfl
  case blkLd => unfold exec execBlkLd; refine ⟨_, _, rfl, false, ?_⟩; constructor <;> rfl
  case blkSt => unfold exec execBlkSt; refine ⟨_, _, rfl, false, ?_⟩; constructor <;> rfl
  case wLd => unfold exec execWLd; refine ⟨_, _, rfl, false, ?_⟩; constructor <;> rfl
  case wSt => unfold exec execWSt; refine ⟨_, _, rfl, false, ?_⟩; constructor <;> rfl
  case pad => unfold exec execPad; refine ⟨_, _, rfl, false, ?_⟩; constructor <;> rfl
  case unpad => unfold exec execUnpad; refine ⟨_, _, rfl, ?_⟩; exact ⟨_, rfl, rfl, rfl, rfl, rfl, rfl, rfl, rfl, rfl, rfl, rfl, rfl⟩
  case ecbEnc => unfold exec execEcbEnc; refine ⟨_, _, rfl, false, ?_⟩; constructor <;> rfl
  case ecbDec => unfold exec execEcbDec; refine ⟨_, _, rfl, false, ?_⟩; constructor <;> rfl
  case msgEnc => unfold exec execMsgEnc; refine ⟨_, _, rfl, false, ?_⟩; constructor <;> rfl
  case msgDec => unfold exec execMsgDec; refine ⟨_, _, rfl, ?_⟩; exact ⟨_, rfl, rfl, rfl, rfl, rfl, rfl, rfl, rfl, rfl, rfl, rfl, rfl⟩
  case frWrap => unfold exec execFrWrap; refine ⟨_, _, rfl, false, ?_⟩; constructor <;> rfl
  case frUnwrap => unfold exec execFrUnwrap; refine ⟨_, _, rfl, false, ?_⟩; constructor <;> rfl
  case lsbCap => unfold exec execLsbCap; refine ⟨_, _, rfl, false, ?_⟩; constructor <;> rfl
  case lsbEmbed => unfold exec execLsbEmbed; refine ⟨_, _, rfl, false, ?_⟩; constructor <;> rfl
  case lsbExtract => unfold exec execLsbExtract; refine ⟨_, _, rfl, false, ?_⟩; constructor <;> rfl
  case metDiff => unfold exec execMetDiff; refine ⟨_, _, rfl, false, ?_⟩; constructor <;> rfl
  case metHist => unfold exec execMetHist; refine ⟨_, _, rfl, false, ?_⟩; constructor <;> rfl

/-- Every command answers a next state. -/
theorem exec_next (i : Instr) (s : State) : ∃ t, exec i s = .next t := by
  obtain ⟨cs, effect, h, -⟩ := exec_shape i s
  rw [h, conclude]
  split <;> exact ⟨_, rfl⟩

/-! ## TEA -/

/-- A decrypt round undoes an encrypt round (R166 law 1). -/
theorem decRound_encRound (k : Key) (t : TeaState) : decRound k (encRound k t) = t := by
  cases t; simp [encRound, decRound]

/-- An encrypt round undoes a decrypt round (R166 law 1). -/
theorem encRound_decRound (k : Key) (t : TeaState) : encRound k (decRound k t) = t := by
  cases t; simp [encRound, decRound]

/-- `n` decrypt rounds undo `n` encrypt rounds, whatever the sum they start from. -/
theorem decRound_iterate (k : Key) (n : Nat) (t : TeaState) : (decRound k)^[n] ((encRound k)^[n] t) = t :=
  Function.LeftInverse.iterate (decRound_encRound k) n t

theorem encRound_iterate (k : Key) (n : Nat) (t : TeaState) : (encRound k)^[n] ((decRound k)^[n] t) = t :=
  Function.LeftInverse.iterate (encRound_decRound k) n t

/-- `n` encrypt rounds move the sum by `n` times DELTA (R163). -/
theorem encRound_sum (k : Key) (n : Nat) (t : TeaState) : ((encRound k)^[n] t).sum = t.sum + BitVec.ofNat 32 n * delta := by
  induction n generalizing t with
  | zero => simp
  | succ n ih =>
    rw [Function.iterate_succ_apply, ih]
    simp only [encRound, BitVec.ofNat_add]
    rw [BitVec.add_mul, show BitVec.ofNat 32 1 * delta = delta from by decide]
    ac_rfl

/-- `n` decrypt rounds move the sum back by `n` times DELTA (R164). -/
theorem decRound_sum (k : Key) (n : Nat) (t : TeaState) : ((decRound k)^[n] t).sum = t.sum - BitVec.ofNat 32 n * delta := by
  induction n generalizing t with
  | zero => simp
  | succ n ih =>
    rw [Function.iterate_succ_apply, ih]
    simp only [decRound, BitVec.ofNat_add]
    rw [BitVec.add_mul, BitVec.sub_sub, BitVec.add_comm, show BitVec.ofNat 32 1 * delta = delta from by decide]

/-- Decryption of an encrypted block, as a function of words (R166 law 1). -/
theorem decryptBlock_encryptBlock (k : Key) (a b : Word) : decryptBlock k (encryptBlock k a b).1 (encryptBlock k a b).2 = (a, b) := by
  have hs := encRound_sum k 32 ⟨a, b, 0#32⟩
  have hi := decRound_iterate k 32 ⟨a, b, 0#32⟩
  unfold decryptBlock encryptBlock
  generalize (encRound k)^[32] ⟨a, b, 0#32⟩ = q at *
  obtain ⟨x, y, z⟩ := q
  obtain rfl : z = decStart := hs.trans (by show 0#32 + 32#32 * delta = decStart; decide)
  dsimp only
  rw [hi]

theorem encryptBlock_decryptBlock (k : Key) (a b : Word) : encryptBlock k (decryptBlock k a b).1 (decryptBlock k a b).2 = (a, b) := by
  have hs := decRound_sum k 32 ⟨a, b, decStart⟩
  have hi := encRound_iterate k 32 ⟨a, b, decStart⟩
  unfold decryptBlock encryptBlock
  generalize (decRound k)^[32] ⟨a, b, decStart⟩ = q at *
  obtain ⟨x, y, z⟩ := q
  obtain rfl : z = 0#32 := hs.trans (by show decStart - 32#32 * delta = 0#32; decide)
  dsimp only
  rw [hi]

/-! ## Padding -/

theorem padLength_range (n : Nat) : 1 ≤ padLength n ∧ padLength n ≤ 8 := by
  unfold padLength; omega

/-- The padded length is a multiple of 8 (R150). -/
theorem add_padLength (n : Nat) : (n + padLength n) % 8 = 0 := by
  unfold padLength; omega

theorem paddedLength_eq (n : Nat) : paddedLength n = n + padLength n := by
  unfold paddedLength padLength; omega

@[simp] theorem length_padding (n : Nat) : (padding n).length = padLength n := by simp [padding, rep]

@[simp] theorem length_padBytes (s : List Byte) : (padBytes s).length = s.length + padLength s.length := by simp [padBytes]

/-! ## ECB -/

@[simp] theorem length_ecbBlock (f : Word → Word → Word × Word) (b : List Byte) : (ecbBlock f b).length = 8 := rfl

@[simp] theorem length_ecbBlocks (f : Word → Word → Word × Word) (n : Nat) (s : List Byte) : (ecbBlocks f n s).length = 8 * n := by
  induction n generalizing s with
  | zero => rfl
  | succ n ih => simp [ecbBlocks, ih]; omega

/-- The two words of an output block are the block function of the words of the input block (R180). -/
theorem ecbBlock_words (f : Word → Word → Word × Word) (b : List Byte) :
    be32 (ecbBlock f b) 0 = (f (be32 b 0) (be32 b 4)).1 ∧ be32 (ecbBlock f b) 4 = (f (be32 b 0) (be32 b 4)).2 := by
  refine ⟨be32_bytes32 _ _, ?_⟩
  have h := be32_append_right (l := bytes32 (f (be32 b 0) (be32 b 4)).1) (l' := bytes32 (f (be32 b 0) (be32 b 4)).2) (j := 0)
  rw [length_bytes32, Nat.add_zero] at h
  rw [ecbBlock, h]
  simpa using be32_bytes32 (f (be32 b 0) (be32 b 4)).2 []

/-- Block `j` of the output is the block function of block `j` of the input (R180). -/
theorem ecbBlocks_words (f : Word → Word → Word × Word) (n : Nat) (l : List Byte) (j : Nat) (hj : j < n) :
    (be32 (ecbBlocks f n l) (8 * j), be32 (ecbBlocks f n l) (8 * j + 4)) = f (be32 l (8 * j)) (be32 l (8 * j + 4)) := by
  induction n generalizing l j with
  | zero => omega
  | succ n ih =>
    have hlen : (ecbBlock f (l.take 8)).length = 8 := rfl
    rw [ecbBlocks]
    cases j with
    | zero =>
      obtain ⟨h1, h2⟩ := ecbBlock_words f (l.take 8)
      have ht : ∀ j, j < 5 → be32 (l.take 8) j = be32 l j := fun j hj =>
        be32_congr fun i hi => by simp [List.getD_eq_getElem?_getD, show j + i < 8 by omega]
      rw [be32_append_left (by omega), be32_append_left (by omega), Nat.mul_zero, Nat.zero_add, h1, h2, ht 0 (by omega),
        ht 4 (by omega)]
    | succ j =>
      have hd : ∀ k, be32 (l.drop 8) k = be32 l (8 + k) := fun k =>
        be32_congr fun i _ => by simp [List.getD_eq_getElem?_getD, Nat.add_assoc]
      have e1 : 8 * (j + 1) = (ecbBlock f (l.take 8)).length + 8 * j := by omega
      have e2 : 8 * (j + 1) + 4 = (ecbBlock f (l.take 8)).length + (8 * j + 4) := by omega
      have h := ih (l.drop 8) j (by omega)
      rw [hd, hd] at h
      rw [e2, e1, be32_append_right, be32_append_right, h, hlen]

/-- Block by block, an inverse block function undoes the other (R185). -/
theorem ecbBlocks_inverse {f g : Word → Word → Word × Word} (h : ∀ a b, g (f a b).1 (f a b).2 = (a, b)) (n : Nat) (l : List Byte)
    (hl : l.length = 8 * n) : ecbBlocks g n (ecbBlocks f n l) = l := by
  induction n generalizing l with
  | zero => rw [List.length_eq_zero_iff.1 (by omega : l.length = 0)]; rfl
  | succ n ih =>
    have e : (ecbBlock f (l.take 8)).length = 8 := rfl
    have ht : (ecbBlocks f (n + 1) l).take 8 = ecbBlock f (l.take 8) := by rw [ecbBlocks, List.take_left' e]
    have hd : (ecbBlocks f (n + 1) l).drop 8 = ecbBlocks f n (l.drop 8) := by rw [ecbBlocks, List.drop_left' e]
    have hb : ecbBlock g (ecbBlock f (l.take 8)) = l.take 8 := by
      have h8 : (l.take 8).length = 8 := by rw [List.length_take]; omega
      obtain ⟨h1, h2⟩ := ecbBlock_words f (l.take 8)
      rw [ecbBlock, h1, h2, h]
      dsimp only
      rw [bytes32_be32, bytes32_be32]
      match l.take 8, h8 with
      | [_, _, _, _, _, _, _, _], _ => rfl
    rw [ecbBlocks, ht, hd, hb, ih _ (by rw [List.length_drop]; omega), List.take_append_drop]

/-! ## LSB codec -/

/-- Different bits have different channels (R200). -/
theorem chanAddr_injective (base : Nat) {i j : Nat} (h : chanAddr base i = chanAddr base j) : i = j := by
  unfold chanAddr at h; omega

/-- The channels of the first `n` bits lie in the pixels that hold them (R200). -/
theorem chanAddr_bounds (base : Nat) {i p : Nat} (h : i < 3 * p) : base ≤ chanAddr base i ∧ chanAddr base i < base + 4 * p := by
  unfold chanAddr; omega

/-- A channel is never an alpha byte (R200). -/
theorem chanAddr_not_alpha (base i : Nat) : (chanAddr base i - base) % 4 ≠ 3 := by
  unfold chanAddr; omega

theorem withLsb_bit0 (c : Byte) (b : Bool) : (withLsb c b).getLsbD 0 = b := by
  cases b <;> simp [withLsb]

theorem withLsb_other (c : Byte) (b : Bool) (i : Nat) (h : 1 ≤ i) (h8 : i < 8) :
    (withLsb c b).getLsbD i = c.getLsbD i := by
  revert c b i; decide +revert +kernel

/-- Embedding keeps the canonical form. -/
@[simp] theorem embedBits_wf (base : Nat) (s : List Byte) (is : List Nat) (m : Memory) (h : Memory.wf m = true) :
    Memory.wf (embedBits base s is m) = true := by
  induction is generalizing m with
  | nil => exact h
  | cons i is ih => exact ih _ (write_wf m _ _ h)

/-- Embedding leaves every address that is no channel of the embedded bits alone (R205 law 3). -/
theorem read_embedBits_out (base : Nat) (s : List Byte) (is : List Nat) (m : Memory) (x : Nat) (h : Memory.wf m = true)
    (hx : ∀ i ∈ is, x ≠ chanAddr base i) : (embedBits base s is m).read x = m.read x := by
  induction is generalizing m with
  | nil => rfl
  | cons i is ih =>
    have h1 := ih (m.write (chanAddr base i) (withLsb (m.read (chanAddr base i)) (payloadBit s i))) (write_wf m _ _ h)
      fun j hj => hx j (by simp [hj])
    rw [← read_write_ne m (chanAddr base i) x (withLsb (m.read (chanAddr base i)) (payloadBit s i)) h (hx i (by simp))]
    exact h1

/-- Embedding puts each bit into bit 0 of its channel and keeps the channel's other bits (R203). -/
theorem read_embedBits_in (base : Nat) (s : List Byte) (is : List Nat) (m : Memory) (h : Memory.wf m = true) (hnd : is.Nodup)
    {i : Nat} (hi : i ∈ is) :
    (embedBits base s is m).read (chanAddr base i) = withLsb (m.read (chanAddr base i)) (payloadBit s i) := by
  induction is generalizing m with
  | nil => simp at hi
  | cons j is ih =>
    obtain ⟨hj, hnd⟩ := List.nodup_cons.1 hnd
    have hw := write_wf m (chanAddr base j) (withLsb (m.read (chanAddr base j)) (payloadBit s j)) h
    rcases List.mem_cons.1 hi with rfl | hi'
    · refine (read_embedBits_out base s is _ _ hw fun k hk hc => ?_).trans (read_write_same m _ _ h)
      exact hj (chanAddr_injective base hc ▸ hk)
    · have hne : chanAddr base i ≠ chanAddr base j := fun hc => hj (chanAddr_injective base hc ▸ hi')
      refine (ih _ hw hnd hi').trans ?_
      rw [read_write_ne m _ _ _ h hne]

/-! ## Metrics -/

theorem lum_le (r g b : Byte) : lum r g b ≤ 255 := by
  unfold lum; have := r.isLt; have := g.isLt; have := b.isLt; omega

theorem popcount8_le (b : Byte) : popcount8 b ≤ 8 := by
  revert b; decide +kernel

theorem channelDiff_le (a b : Byte) : channelDiff a b ≤ 255 := by
  unfold channelDiff; have := a.isLt; have := b.isLt; omega

@[simp] theorem length_histBytes (ls : List Nat) : (histBytes ls).length = 1024 := by
  simp only [histBytes, List.length_flatMap, length_bytes32, List.map_const', List.length_range, List.sum_replicate]
  rfl

/-- A sum over pixels as a finite sum. -/
theorem sumPixels_eq (p : Nat) (f : Nat → Nat) : sumPixels p f = ∑ i ∈ Finset.range p, f i := by
  unfold sumPixels
  induction p with
  | zero => rfl
  | succ p ih => rw [List.range_succ, List.map_append, List.sum_append, ih, Finset.sum_range_succ]; simp

/-- A sum over pixels of terms that are at most `b` (R35). -/
theorem sumPixels_le (p : Nat) (f : Nat → Nat) (b : Nat) (h : ∀ i, f i ≤ b) : sumPixels p f ≤ b * p := by
  rw [sumPixels_eq]
  calc _ ≤ ∑ _i ∈ Finset.range p, b := Finset.sum_le_sum fun i _ => h i
    _ = b * p := by simp [Nat.mul_comm]

/-! ## What a command does to memory -/

/-- Embedding inside the address space keeps memory inside it. -/
theorem embedBits_inside (p : Platform) (base : Nat) (l : List Byte) (is : List Nat) (m : Memory) (h : Memory.inside p m = true)
    (hi : ∀ i ∈ is, chanAddr base i < p.memSize) : Memory.inside p (embedBits base l is m) = true := by
  induction is generalizing m with
  | nil => exact h
  | cons i is ih => exact ih _ (write_inside p m _ _ h (hi i (by simp))) fun j hj => hi j (by simp [hj])

/-- The three things a command can do to memory: nothing, one byte string written at addresses that exist, or bits embedded at
addresses that exist. -/
theorem exec_memory {i : Instr} {s t : State} (h : exec i s = .next t) :
    t.mem = s.mem
      ∨ (∃ a bs, t.mem = writeBytes s.mem a bs ∧ (bs = [] ∨ a + bs.length ≤ s.plat.memSize))
      ∨ ∃ base l is, t.mem = embedBits base l is s.mem ∧ ∀ i ∈ is, chanAddr base i < s.plat.memSize := by
  cases i
  all_goals
    simp only [exec_nop, exec_teaEnc, exec_teaDec, exec_teaErnd, exec_teaDrnd, exec_zero, exec_keyLd, exec_blkLd, exec_blkSt, exec_wLd,
    exec_wSt, exec_pad, exec_unpad, exec_ecbEnc, exec_ecbDec, exec_msgEnc, exec_msgDec, exec_frWrap, exec_frUnwrap,
    exec_lsbCap, exec_lsbEmbed, exec_lsbExtract, exec_metDiff, exec_metHist, execNop, execTeaEnc, execTeaDec, execTeaErnd,
    execTeaDrnd, execZero, execKeyLd, execBlkLd, execBlkSt, execWLd, execWSt, execPad, execUnpad, execEcbEnc, execEcbDec,
    execMsgEnc, execMsgDec, execFrWrap, execFrUnwrap, execLsbCap, execLsbEmbed, execLsbExtract, execMetDiff, execMetHist] at h
    rcases conclude_cases h with ⟨hne, rfl⟩ | ⟨e, info, -, rfl⟩
    on_goal 2 => exact .inl rfl
    clear h
    rw [complete_mem]
    try simp only [firstErr_cons_eq_none, rangeCheck_eq_none, overlapCheck_eq_none, failIf_eq_none, blockChecks] at hne
  case lsbEmbed =>
    obtain ⟨-, h2, -, h4, -⟩ := hne
    rw [decide_eq_false_iff_not] at h4
    unfold capacity at h4
    refine .inr (.inr ⟨_, _, _, rfl, fun i hi => ?_⟩)
    rw [List.mem_range] at hi
    have := chanAddr_bounds s.dst.toNat (i := i) (p := s.pixcnt.toNat) (by omega)
    omega
  case blkSt => refine .inr (.inl ⟨_, _, rfl, .inr ?_⟩); simp; omega
  case wSt => refine .inr (.inl ⟨_, _, rfl, .inr ?_⟩); simp; omega
  case pad =>
    have := padLength_range s.len.toNat
    refine .inr (.inl ⟨_, _, rfl, .inr ?_⟩)
    rw [length_padding]; omega
  case ecbEnc | ecbDec | msgDec =>
    refine .inr (.inl ⟨_, _, rfl, ?_⟩)
    by_cases h0 : s.len.toNat = 0
    · left; apply List.length_eq_zero_iff.1; simp [ecbEnc, ecbDec, sourceBytes, h0]
    · right; simp [ecbEnc, ecbDec, sourceBytes]; omega
  case msgEnc =>
    refine .inr (.inl ⟨_, _, rfl, .inr ?_⟩)
    simp only [ecbEnc, length_ecbBlocks, length_padBytes, sourceBytes, length_readBytes]
    rw [paddedLength_eq] at hne
    have := padLength_range s.len.toNat
    omega
  case frWrap => refine .inr (.inl ⟨_, _, rfl, .inr ?_⟩); simp; omega
  case lsbExtract =>
    generalize stegoLength s.mem s.src.toNat = l at *
    refine .inr (.inl ⟨_, _, rfl, .inr ?_⟩)
    simp [stegoBody]; omega
  case metHist =>
    generalize hq : histBytes _ = q
    have hl : q.length = 1024 := by rw [← hq, length_histBytes]
    obtain ⟨-, h2, -⟩ := hne
    exact .inr (.inl ⟨_, q, rfl, .inr (by omega)⟩)
  all_goals exact .inl rfl

end Sys2Proof.Laws
end

