-- ==== Sys2Proof/Laws/Step.lean ====
section
/-! SUPPORT. What a step, a turn and the host's accesses can do. -/

namespace Sys2Proof.Laws

open Sys2Proof.Machine

/-- Everything the block's turn can do: nothing while idle, and else the completion of the word in flight (R21, R95, R115). -/
theorem blockTurn_cases {s t : State} (h : blockTurn s = .next t) :
    (s.status.busy = false ∧ t = s)
      ∨ (s.status.busy = true ∧ ∃ i, decode s.cmd = .ok i ∧ exec i s = .next t)
      ∨ (s.status.busy = true ∧ ∃ r, decode s.cmd = .error r ∧ t = raiseErr .illegal s.cmd s) := by
  unfold blockTurn at h
  split at h
  · next hb =>
    unfold completeLatched at h
    split at h
    · next i hi => exact .inr (.inl ⟨hb, i, hi, h⟩)
    · next r hr => exact .inr (.inr ⟨hb, r, hr, by simpa using h.symm⟩)
  · next hb => exact .inl ⟨by simpa using hb, by simpa using h.symm⟩

/-- The block's turn never stops the machine (R120). -/
theorem blockTurn_next (s : State) : ∃ t, blockTurn s = .next t := by
  unfold blockTurn completeLatched
  split
  · split
    · exact exec_next _ _
    · exact ⟨_, rfl⟩
  · exact ⟨_, rfl⟩

/-- A step is one turn: of the host, of the block, or the reset input (R21, R257). -/
theorem step_cases {s t : State} (h : step s = .next t) :
    (nextTurn s = .host ∧ hostTurn (tick s) = .next t) ∨ (nextTurn s = .block ∧ blockTurn (tick s) = .next t)
      ∨ (nextTurn s = .hardReset ∧ t = hardReset (tick s)) := by
  unfold step at h
  cases hn : nextTurn s <;> rw [hn] at h
  · exact .inl ⟨rfl, h⟩
  · exact .inr (.inl ⟨rfl, h⟩)
  · exact .inr (.inr ⟨rfl, by simpa [takeTurn] using h.symm⟩)

/-- An abort changes no more than memory and the count of draws (R282). -/
theorem abort_frame (s : State) : abort s = { s with mem := (abort s).mem, draws := (abort s).draws } := by
  unfold abort; split <;> rfl

/-- The bytes of an abort: outside the range as before, inside it old or new (R282). -/
theorem read_abortBytes (new : Memory) (d a n : Nat) (m : Memory) (x : Nat) (h : Memory.wf m = true) :
    (abortBytes new d a n m).read x = m.read x
      ∨ (a ≤ x ∧ x < a + n ∧ (abortBytes new d a n m).read x = new.read x) := by
  induction n generalizing d a m with
  | zero => exact .inl rfl
  | succ n ih =>
    have key : ∀ m' : Memory, Memory.wf m' = true → (m'.read x = m.read x ∨ (x = a ∧ m'.read x = new.read x)) →
        (abortBytes new (d + 1) (a + 1) n m').read x = m.read x
          ∨ (a ≤ x ∧ x < a + (n + 1) ∧ (abortBytes new (d + 1) (a + 1) n m').read x = new.read x) := by
      intro m' hm' hr
      rcases ih (d + 1) (a + 1) m' hm' with h1 | ⟨h1, h2, h3⟩
      · rcases hr with hr | ⟨hx, hr⟩
        · exact .inl (h1.trans hr)
        · exact .inr ⟨by omega, by omega, h1.trans hr⟩
      · exact .inr ⟨by omega, by omega, h3⟩
    unfold abortBytes
    split
    · refine key _ (write_wf m a _ h) ?_
      by_cases hx : x = a
      · subst hx; exact .inr ⟨rfl, read_write_same m _ _ h⟩
      · exact .inl (read_write_ne m a x _ h hx)
    · exact key m h (.inl rfl)

@[simp] theorem abortBytes_wf (new : Memory) (d a n : Nat) (m : Memory) (h : Memory.wf m = true) :
    Memory.wf (abortBytes new d a n m) = true := by
  induction n generalizing d a m with
  | zero => exact h
  | succ n ih =>
    unfold abortBytes
    split
    · exact ih _ _ _ (write_wf m a _ h)
    · exact ih _ _ _ h

/-- The bytes of an abort over several ranges: each old, or new inside one of them (R282). -/
theorem read_abortRanges (new : Memory) (rs : List Range) (md : Memory × Nat) (x : Nat) (h : Memory.wf md.1 = true) :
    (abortRanges new rs md).1.read x = md.1.read x
      ∨ (∃ r ∈ rs, r.holds x = true) ∧ (abortRanges new rs md).1.read x = new.read x := by
  induction rs generalizing md with
  | nil => exact .inl rfl
  | cons r rs ih =>
    rcases ih (abortBytes new md.2 r.start r.size md.1, md.2 + r.size) (abortBytes_wf _ _ _ _ _ h) with h1 | ⟨⟨r', hr', hx⟩, h1⟩
    · rcases read_abortBytes new md.2 r.start r.size md.1 x h with h2 | ⟨a1, a2, a3⟩
      · exact .inl (h1.trans h2)
      · exact .inr ⟨⟨r, by simp, (holds_iff r x).2 ⟨a1, a2⟩⟩, h1.trans a3⟩
    · exact .inr ⟨⟨r', by simp [hr'], hx⟩, h1⟩

@[simp] theorem abortRanges_wf (new : Memory) (rs : List Range) (md : Memory × Nat) (h : Memory.wf md.1 = true) :
    Memory.wf (abortRanges new rs md).1 = true := by
  induction rs generalizing md with
  | nil => exact h
  | cons r rs ih => exact ih _ (abortBytes_wf _ _ _ _ _ h)

/-- An abort keeps memory inside its address space, also where the write footprint reaches past it (R287). -/
theorem abortRanges_inside (p : Platform) (new : Memory) (rs : List Range) (md : Memory × Nat) (h : Memory.inside p md.1 = true)
    (hn : Memory.inside p new = true) : Memory.inside p (abortRanges new rs md).1 = true := by
  have hb : ∀ d a n m, Memory.inside p m = true → Memory.inside p (abortBytes new d a n m) = true := by
    intro d a n
    induction n generalizing d a with
    | zero => exact fun m hm => hm
    | succ n ih =>
      intro m hm
      unfold abortBytes
      split
      · exact ih _ _ _ (write_read_inside a hn hm)
      · exact ih _ _ _ hm
  induction rs generalizing md with
  | nil => exact h
  | cons r rs ih => exact ih _ (hb _ _ _ _ h)

/-- The offset of every register is in the window's map, and nothing else is (R22). -/
theorem regAt_offset (r : Reg) : regAt r.offset = some r := by cases r <;> rfl

/-- A bus access of one aligned word in the window reaches the register at its offset (R61). -/
theorem busTarget_word (p : Platform) (o : Nat) (h4 : o % 4 = 0) (ho : o < 256) :
    busTarget p (p.regBase + o) 4 = .register (regAt o) := by
  have h1 : overlap (p.regBase + o) 4 p.regBase windowBytes = true := by
    rw [overlap_iff]; unfold windowBytes; omega
  simp [busTarget, h1, h4]

/-- A step whose turn the schedule names is that agent's turn (R21, R257). -/
theorem step_scheduled {s : State} {t : Turn} {rest : List Turn} (h : s.schedule = t :: rest) :
    step s = takeTurn t { s with schedule := rest } := by
  simp [step, nextTurn, tick, h]

/-- A read of a register changes no more than the count of draws (R61). -/
theorem hostReadReg_frame (r : Option Reg) (s : State) :
    (hostReadReg r s).2 = { s with draws := (hostReadReg r s).2.draws } := by
  unfold hostReadReg drawWord
  split
  · rfl
  · split <;> rfl

/-! ## The host's temporaries and values -/

/-- A temporary reads back what was assigned to it. -/
@[simp] theorem lookupTemp_assignTemp_same {α : Type} (t : Temp) (v : α) (l : List (Temp × α)) :
    lookupTemp t (assignTemp t v l) = some v := by
  induction l with
  | nil => simp [assignTemp, lookupTemp]
  | cons c l ih =>
    unfold assignTemp
    split <;> simp_all [lookupTemp]

/-- An assignment leaves the other temporaries alone. -/
theorem lookupTemp_assignTemp_ne {α : Type} {t t' : Temp} (h : t' ≠ t) (v : α) (l : List (Temp × α)) :
    lookupTemp t' (assignTemp t v l) = lookupTemp t' l := by
  induction l with
  | nil => simp [assignTemp, lookupTemp, h]
  | cons c l ih =>
    unfold assignTemp
    split
    · next hc => simp [lookupTemp, h, ← hc]
    · simp [lookupTemp, ih]

/-- A temporary that holds a word gives it. -/
theorem readTemp_word {t : Temp} {w : Word} {s : State} (h : lookupTemp t s.host.temps = some (.word w)) :
    readTemp t s = (w, s) := by
  simp [readTemp, h]

/-- Reading a temporary changes no more than the count of draws. -/
theorem readTemp_frame (t : Temp) (s : State) : (readTemp t s).2 = { s with draws := (readTemp t s).2.draws } := by
  unfold readTemp; split <;> rfl

/-- Evaluating a value changes no more than the count of draws. -/
theorem evalVal_frame (v : Val) (s : State) : (evalVal v s).2 = { s with draws := (evalVal v s).2.draws } := by
  cases v
  · rfl
  all_goals exact readTemp_frame _ _

/-- Evaluating a condition changes no more than the count of draws. -/
theorem evalCond_frame (c : Cond) (x : Word) (s : State) :
    (evalCond c x s).2 = { s with draws := (evalCond c x s).2.draws } := by
  cases c
  · rfl
  all_goals exact evalVal_frame _ _

end Sys2Proof.Laws
end

