-- ==== Sys2Proof/Machine/Pipeline.lean ====
section
/-! DEFINITION. The two pipelines of the host, as source of its script (`47_pipeline.md` R220, R221). -/

namespace Sys2Proof.Machine

/-- The host-chosen buffers and lengths of the pipelines (R220, R221): the key string at `kb` (`kn` bytes), the plaintext at `pt`
(`n` bytes), the ciphertext at `ct`, the payload at `pl`, the cover or stego pixels at `cv` (`p` of them), the output at `out`. -/
structure Buffers where
  kb : Word
  kn : Word
  pt : Word
  n : Word
  ct : Word
  pl : Word
  cv : Word
  p : Word
  out : Word
  deriving DecidableEq, Repr

/-- `wr REG, v` as a line of source. -/
def wrLine (r : Reg) (v : Val) : Asm := .stmt (.wr r v)

/-- `rd REG -> t` as a line of source. -/
def rdLine (r : Reg) (n : Nat) : Asm := .stmt (.rd r (.named n))

/-- `run M` for a format-N command as a line of source. -/
def runLine (i : Instr) : Asm := .run (.plain i)

/-- The end of both pipelines: `halt`, and `FAIL: halt`. -/
def pipelineEnd : List Asm := [.stmt .halt, .stmt (.label .fail), .stmt .halt]

/-- `encryptAndEmbed(plaintext, key, cover)` (R220). Temporary 0 is `c`, the ciphertext length. -/
def encryptAndEmbed (b : Buffers) : List Asm :=
  [wrLine .src (.const b.kb), wrLine .len (.const b.kn), runLine .keyLd, .ok,
   wrLine .src (.const b.pt), wrLine .dst (.const b.ct), wrLine .len (.const b.n), runLine .msgEnc, .ok,
   rdLine .result 0,
   wrLine .src (.const b.ct), wrLine .dst (.const b.pl), wrLine .len (.temp (.named 0)), runLine .frWrap, .ok,
   wrLine .src (.const b.pl), wrLine .len (.plus (.named 0) 4#32), wrLine .dst (.const b.cv), wrLine .pixcnt (.const b.p),
   runLine .lsbEmbed, .ok] ++ pipelineEnd

/-- `extractAndDecrypt(stego, key)` (R221). The temporaries are 0: `m`, 1: `c`, 2: `a`, 3: `n`, 4: `s`. -/
def extractAndDecrypt (b : Buffers) : List Asm :=
  [wrLine .src (.const b.kb), wrLine .len (.const b.kn), runLine .keyLd, .ok,
   wrLine .src (.const b.cv), wrLine .pixcnt (.const b.p), wrLine .dst (.const b.pl), runLine .lsbExtract, .ok,
   rdLine .result 0,
   wrLine .src (.const b.pl), wrLine .len (.temp (.named 0)), runLine .frUnwrap, .ok,
   rdLine .result 1, rdLine .raddr 2,
   wrLine .src (.temp (.named 2)), wrLine .dst (.const b.out), wrLine .len (.temp (.named 1)), runLine .msgDec, .ok,
   rdLine .result 3, rdLine .status 4] ++ pipelineEnd

end Sys2Proof.Machine
end

