-- ==== Sys2Proof/Tests/Slice0.lean ====
section
/-! SUPPORT. Small tests. Expected values come from the encodings of `30_encoding.md` R94 and the vectors of
`95_test_vectors.md`, whose number each test names; never from the model. -/

namespace Sys2Proof.Tests

set_option Elab.async false

open Sys2Proof.Machine

/-! ## Decoding: one word per command, written from R94 (opcode in bits 7:0, CNT in bits 12:8, the rest zero) -/

theorem test_decode_control : decode 0x00000000#32 = .ok .nop := by decide

theorem test_decode_tea :
    [0x00000001#32, 0x00000002#32, 0x00001F03#32, 0x00000F04#32, 0x00000005#32].map decode
      = [.ok .teaEnc, .ok .teaDec, .ok (.teaErnd 31#5), .ok (.teaDrnd 15#5), .ok .zero] := by decide

theorem test_decode_bytecodec :
    [0x00000008#32, 0x00000009#32, 0x0000000A#32, 0x0000000B#32, 0x0000000C#32].map decode
      = [.ok .keyLd, .ok .blkLd, .ok .blkSt, .ok .wLd, .ok .wSt] := by decide

theorem test_decode_padding : [0x00000010#32, 0x00000011#32].map decode = [.ok .pad, .ok .unpad] := by decide

theorem test_decode_message :
    [0x00000018#32, 0x00000019#32, 0x0000001A#32, 0x0000001B#32].map decode
      = [.ok .ecbEnc, .ok .ecbDec, .ok .msgEnc, .ok .msgDec] := by decide

theorem test_decode_framer : [0x00000020#32, 0x00000021#32].map decode = [.ok .frWrap, .ok .frUnwrap] := by decide

theorem test_decode_lsb :
    [0x00000028#32, 0x00000029#32, 0x0000002A#32].map decode = [.ok .lsbCap, .ok .lsbEmbed, .ok .lsbExtract] := by decide

theorem test_decode_metrics : [0x00000030#32, 0x00000031#32].map decode = [.ok .metDiff, .ok .metHist] := by decide

/-- X2, X3, X4, X6: illegal words. -/
theorem test_decode_illegal :
    [0x00000006#32, 0x00000101#32, 0x00002003#32, 0xFFFFFFFF#32].map decode
      = [.error .unassignedOpcode, .error .reservedBits, .error .reservedBits, .error .unassignedOpcode] := by decide

/-! ## WellFormed smoke: an ill-formed term for each check -/

/-- R6: MEM_SIZE = 0 and MEM_SIZE = 2^32 are refused, the bounds between them accepted. -/
theorem test_wf_platform :
    [(⟨0, 0⟩ : Platform), ⟨2 ^ 32, 0⟩, ⟨1, 0⟩, ⟨2 ^ 32 - 1, 0⟩].map Platform.wf = [false, false, true, true] := by decide

/-- R98: a round count outside 1 .. 32, and a format-C command without a count. -/
theorem test_wf_spelling :
    [Spelling.rounds .ernd 0, .rounds .drnd 33, .plain (.teaErnd 0#5), .rounds .ernd 32, .plain .nop].map Spelling.wf
      = [false, false, false, true, true] := by decide

/-- R98: a jump to a label that is missing, and one to a label that stands twice. -/
theorem test_wf_script :
    [[Stmt.goto .fail], [.goto .fail, .label .fail, .label .fail], [.goto .fail, .label .fail]].map scriptWf
      = [false, false, true] := by decide

/-- R98: the assembler refuses `cmd TEA_ERND, 33` and gives `cmd TEA_ERND, 32` the field 31. -/
theorem test_assemble_rounds :
    [Spelling.rounds .ernd 33, .rounds .ernd 32].map assembleCommand = [.error .roundCount, .ok (.teaErnd 31#5)] := by decide

/-! ## One step of each command -/

/-- Bytes put into memory by the host before the command. -/
def poke (a : Nat) (bs : List Byte) (s : State) : State := { s with mem := writeBytes s.mem a bs }

/-- What one step answers for a command word issued in a state. -/
def runWord (w : Nat) (s : State) : Out := step (s.withFetchWord 32 w)

/-- Whether an outcome is a next state with a property. -/
def nextHas (o : Out) (p : State → Bool) : Bool :=
  match o with
  | .next s => p s
  | .fault _ | .refused _ => false

/-- The bytes at an address. -/
def bytesAt (s : State) (a n : Nat) : List Nat := (readBytes s.mem a n).map BitVec.toNat

/-- The key of "0123456789ABCDEF" (BC1). -/
def hiKey (s : State) : State := { s with k0 := 0x30313233, k1 := 0x34353637, k2 := 0x38394142, k3 := 0x43444546 }

/-- The SRC, DST, LEN and PIXCNT operands. -/
def operands (src dst len pix : Nat) (s : State) : State :=
  { s with src := BitVec.ofNat 32 src, dst := BitVec.ofNat 32 dst, len := BitVec.ofNat 32 len, pixcnt := BitVec.ofNat 32 pix }

/-- The block registers. -/
def block (v0 v1 sum : Word) (s : State) : State := { s with v0 := v0, v1 := v1, sum := sum }

/-- "0123456789ABCDEFWXYZ" at 0x100. -/
def keyText (s : State) : State :=
  poke 0x100 [0x30, 0x31, 0x32, 0x33, 0x34, 0x35, 0x36, 0x37, 0x38, 0x39, 0x41, 0x42, 0x43, 0x44, 0x45, 0x46, 0x57, 0x58] s

/-- The ciphertext of the HI scenario. -/
def ct : List Byte := [0x59, 0xD1, 0x8B, 0x01, 0x17, 0xDA, 0x78, 0x04]

/-- X1. -/
theorem test_nop : nextHas (runWord 0x00 State.reset) (fun t => t.status.toWord == 0x2 && t.errinfo == 0) = true := by
  decide +kernel

/-- X2: an illegal word. -/
theorem test_illegal :
    nextHas (runWord 0x06 State.reset) (fun t => t.status.toWord == 0x106 && t.errinfo == 6 && t.cmd == 6) = true := by
  decide +kernel

/-- X7: decoding comes before the range check. -/
theorem test_illegal_first :
    nextHas (runWord 0x109 (operands 0xFFFFFFFF 0 0 0 State.reset)) (fun t => t.status.errcode == 1) = true := by
  decide +kernel

/-- T4. -/
theorem test_teaEnc :
    nextHas (runWord 0x01 (hiKey (block 0x48490606 0x06060606 5 State.reset)))
      (fun t => t.v0 == 0x59D18B01 && t.v1 == 0x17DA7804 && t.sum == 5) = true := by
  decide +kernel

/-- T3, right-hand column. -/
theorem test_teaDec :
    nextHas (runWord 0x02
        { block 0x01234567 0x89ABCDEF 0 State.reset with k0 := 0x00112233, k1 := 0x44556677, k2 := 0x8899AABB, k3 := 0xCCDDEEFF })
      (fun t => t.v0 == 0xBF467633 && t.v1 == 0x9D07A595) = true := by
  decide +kernel

/-- TS3. -/
theorem test_teaErnd :
    nextHas (runWord 0x103 (hiKey (block 0x48490606 0x06060606 0 State.reset)))
      (fun t => t.v0 == 0x1C14C0E9 && t.v1 == 0x56CC9B52 && t.sum == 0x3C6EF372) = true := by
  decide +kernel

/-- TS11: SUM wraps. -/
theorem test_teaErnd_wraps :
    nextHas (runWord 0x1F03 (block 0 0 0xFFFFFFFF State.reset))
      (fun t => t.v0 == 0x2A6F5385 && t.v1 == 0x593B7F74 && t.sum == 0xC6EF371F) = true := by
  decide +kernel

/-- TS8. -/
theorem test_teaDrnd :
    nextHas (runWord 0xF04 (hiKey (block 0x59D18B01 0x17DA7804 0xC6EF3720 State.reset)))
      (fun t => t.v0 == 0x0ECDCBCC && t.v1 == 0xE98D8663 && t.sum == 0xE3779B90) = true := by
  decide +kernel

/-- T11. -/
theorem test_zero :
    nextHas (runWord 0x05 (hiKey (block 0x59D18B01 0x17DA7804 0xC6EF3720 (operands 0x40 0 0 0 State.reset))))
      (fun t => t.v0 == 0 && t.v1 == 0 && t.sum == 0 && t.k0 == 0 && t.k3 == 0 && t.src == 0x40) = true := by
  decide +kernel

/-- BC2: zero-padded on the right. -/
theorem test_keyLd_short :
    nextHas (runWord 0x08 (keyText (operands 0x100 0 2 0 State.reset)))
      (fun t => t.k0 == 0x30310000 && t.k1 == 0 && t.k3 == 0) = true := by
  decide +kernel

/-- BC5: bytes past 16 are ignored. -/
theorem test_keyLd_long :
    nextHas (runWord 0x08 (keyText (operands 0x100 0 20 0 State.reset)))
      (fun t => t.k0 == 0x30313233 && t.k1 == 0x34353637 && t.k2 == 0x38394142 && t.k3 == 0x43444546) = true := by
  decide +kernel

/-- BC9. -/
theorem test_blkLd :
    nextHas (runWord 0x09 (poke 0x010 [1, 2, 3, 4, 5, 6, 7, 8] (operands 0x010 0 0 0 State.reset)))
      (fun t => t.v0 == 0x01020304 && t.v1 == 0x05060708) = true := by
  decide +kernel

/-- BC10. -/
theorem test_blkSt :
    nextHas (runWord 0x0A (block 0x01234567 0x89ABCDEF 0 (operands 0 0x020 0 0 State.reset)))
      (fun t => bytesAt t 0x020 8 == [0x01, 0x23, 0x45, 0x67, 0x89, 0xAB, 0xCD, 0xEF]) = true := by
  decide +kernel

/-- BC12. -/
theorem test_blkSt_range :
    nextHas (runWord 0x0A (block 0x01234567 0x89ABCDEF 0 (operands 0 0xFF9 0 0 State.reset)))
      (fun t => t.status.toWord == 0x206 && t.errinfo == 0xFF9 && t.mem == []) = true := by
  decide +kernel

/-- BC13. -/
theorem test_wLd :
    nextHas (runWord 0x0B (poke 0x031 [0, 0, 0, 8] (block 0 0x55 0 (operands 0x031 0 0 0 State.reset))))
      (fun t => t.v0 == 8 && t.v1 == 0x55) = true := by
  decide +kernel

/-- BC15. -/
theorem test_wSt :
    nextHas (runWord 0x0C (block 0xCAFEBABE 0 0 (operands 0 0x043 0 0 State.reset)))
      (fun t => bytesAt t 0x040 8 == [0, 0, 0, 0xCA, 0xFE, 0xBA, 0xBE, 0]) = true := by
  decide +kernel

/-- PD4: a whole block of padding. -/
theorem test_pad :
    nextHas (runWord 0x10 (poke 0x100 [0x41, 0x42, 0x43, 0x44, 0x45, 0x46, 0x47, 0x48] (operands 0 0x100 8 0 State.reset)))
      (fun t => bytesAt t 0x106 10 == [0x47, 0x48, 8, 8, 8, 8, 8, 8, 8, 8] && t.result == 0x10) = true := by
  decide +kernel

/-- PD10. -/
theorem test_unpad :
    nextHas (runWord 0x11 (poke 0x100 [0x48, 0x49, 6, 6, 6, 6, 6, 6] (operands 0x100 0 8 0 State.reset)))
      (fun t => t.result == 2 && t.status.toWord == 0x2) = true := by
  decide +kernel

/-- PD15: a mismatch inside the padding fails open. -/
theorem test_unpad_bad :
    nextHas (runWord 0x11 (poke 0x100 [1, 2, 3, 4, 5, 3, 4, 3] (operands 0x100 0 8 0 State.reset)))
      (fun t => t.result == 8 && t.status.toWord == 0xA) = true := by
  decide +kernel

/-- MS7: two equal blocks, in place. -/
theorem test_ecbEnc :
    nextHas (runWord 0x18 (hiKey (operands 0x10 0x10 16 0 State.reset)))
      (fun t => bytesAt t 0x10 8 == [0x83, 0xD8, 0xD7, 0x5E, 0x5D, 0xCA, 0xDC, 0x74] && bytesAt t 0x18 8 == bytesAt t 0x10 8
        && t.result == 0x10) = true := by
  decide +kernel

/-- MS9: the overlap is checked before the length. -/
theorem test_ecbEnc_order :
    nextHas (runWord 0x18 (hiKey (operands 0x10 0x14 12 0 State.reset)))
      (fun t => t.status.toWord == 0x306 && t.errinfo == 0x14) = true := by
  decide +kernel

/-- R182's example. -/
theorem test_ecbDec :
    nextHas (runWord 0x19 (poke 0x20 ct (hiKey (operands 0x20 0x40 8 0 State.reset))))
      (fun t => bytesAt t 0x40 8 == [0x48, 0x49, 6, 6, 6, 6, 6, 6] && t.result == 8) = true := by
  decide +kernel

/-- MS2. -/
theorem test_msgEnc :
    nextHas (runWord 0x1A (poke 0x10 [0x48, 0x49] (hiKey (operands 0x10 0x20 2 0 State.reset))))
      (fun t => bytesAt t 0x20 8 == ct.map BitVec.toNat && t.result == 8) = true := by
  decide +kernel

/-- MS10. -/
theorem test_msgDec :
    nextHas (runWord 0x1B (poke 0x20 ct (hiKey (operands 0x20 0x40 8 0 State.reset))))
      (fun t => bytesAt t 0x40 8 == [0x48, 0x49, 6, 6, 6, 6, 6, 6] && t.result == 2 && !t.status.padbad) = true := by
  decide +kernel

/-- MS11: a wrong key. -/
theorem test_msgDec_wrong_key :
    nextHas (runWord 0x1B (poke 0x20 ct (operands 0x20 0x40 8 0 State.reset)))
      (fun t => bytesAt t 0x40 8 == [0xB6, 0x00, 0xC9, 0x04, 0xC9, 0xD5, 0x48, 0x62] && t.result == 8
        && t.status.toWord == 0xA) = true := by
  decide +kernel

/-- FR2: in place. -/
theorem test_frWrap :
    nextHas (runWord 0x20 (poke 0x24 ct (operands 0x24 0x20 8 0 State.reset)))
      (fun t => bytesAt t 0x20 12 == [0, 0, 0, 8] ++ ct.map BitVec.toNat && t.result == 0xC) = true := by
  decide +kernel

/-- FR5: SRC = DST is no in-place case. -/
theorem test_frWrap_overlap :
    nextHas (runWord 0x20 (operands 0x20 0x20 8 0 State.reset))
      (fun t => t.status.errcode == 3 && t.errinfo == 0x20) = true := by
  decide +kernel

/-- FR7. -/
theorem test_frUnwrap :
    nextHas (runWord 0x21 (poke 0x60 ([0, 0, 0, 8] ++ ct) (operands 0x60 0 12 0 State.reset)))
      (fun t => t.result == 8 && t.raddr == 0x64) = true := by
  decide +kernel

/-- FR9. -/
theorem test_frUnwrap_short :
    nextHas (runWord 0x21 (poke 0x60 ([0, 0, 0, 8] ++ ct) (operands 0x60 0 11 0 State.reset)))
      (fun t => t.status.toWord == 0x806 && t.errinfo == 8 && t.raddr == 0) = true := by
  decide +kernel

/-- R202: PIXCNT = 0xFFFFFFFF gives 0x5FFFFFFF. -/
theorem test_lsbCap :
    nextHas (runWord 0x28 (operands 0 0 0 0xFFFFFFFF State.reset)) (fun t => t.result == 0x5FFFFFFF) = true := by
  decide +kernel

/-- LS5. -/
theorem test_lsbEmbed :
    nextHas (runWord 0x29 (poke 0x100 (List.replicate 12 0xFF) (poke 0 [0xA5] (operands 0 0x100 1 3 State.reset))))
      (fun t => bytesAt t 0x100 12
        == [0xFF, 0xFE, 0xFF, 0xFF, 0xFE, 0xFE, 0xFF, 0xFF, 0xFE, 0xFF, 0xFF, 0xFF]) = true := by
  decide +kernel

/-- LS11: over capacity, and the cover is unchanged. -/
theorem test_lsbEmbed_capacity :
    nextHas (runWord 0x29 (poke 0x300 (List.replicate 44 0xFF) (operands 0x340 0x300 5 11 State.reset)))
      (fun t => t.status.toWord == 0x506 && t.errinfo == 4 && bytesAt t 0x300 44 == List.replicate 44 0xFF) = true := by
  decide +kernel

/-- Fourteen pixels that hold the header 1 and the body 0xA5 in their bits 0, written out by R200: bit 31 of the header is
embedded bit 31 (pixel 10, channel G), the body is embedded bits 32 to 39. -/
def stego14 (s : State) : State :=
  poke 0x100 ([0xFE, 0xFE, 0xFE, 0xFF, 0xFE, 0xFE, 0xFE, 0xFF, 0xFE, 0xFE, 0xFE, 0xFF, 0xFE, 0xFE, 0xFE, 0xFF,
    0xFE, 0xFE, 0xFE, 0xFF, 0xFE, 0xFE, 0xFE, 0xFF, 0xFE, 0xFE, 0xFE, 0xFF, 0xFE, 0xFE, 0xFE, 0xFF,
    0xFE, 0xFE, 0xFE, 0xFF, 0xFE, 0xFE, 0xFE, 0xFF, 0xFE, 0xFF, 0xFF, 0xFF,
    0xFE, 0xFF, 0xFE, 0xFF, 0xFE, 0xFF, 0xFE, 0xFF, 0xFF, 0xFE, 0xFE, 0xFF] : List Byte) s

/-- R204 on `stego14`. -/
theorem test_lsbExtract :
    nextHas (runWord 0x2A (stego14 (operands 0x100 0x200 0 14 State.reset)))
      (fun t => bytesAt t 0x200 6 == [0, 0, 0, 1, 0xA5, 0] && t.result == 5) = true := by
  decide +kernel

/-- LS13: the header is unsigned. -/
theorem test_lsbExtract_invlen :
    nextHas (runWord 0x2A (poke 0x300 (List.replicate 44 0xFF) (operands 0x300 0x380 0 11 State.reset)))
      (fun t => t.status.toWord == 0x706 && t.errinfo == 0xFFFFFFFF) = true := by
  decide +kernel

/-- M8. -/
theorem test_metDiff :
    nextHas (runWord 0x30 (poke 0x100 [0x0A, 0x14, 0x1E, 0xFF, 0, 0, 0, 0]
        (poke 0x200 [0x0B, 0x14, 0x1C, 0, 0, 0, 0, 7] (operands 0x100 0x200 0 2 State.reset))))
      (fun t => t.metrics == ⟨2, 1, 3, 5, 19, 19, 361, 361, 361⟩ && t.result == 2) = true := by
  decide +kernel

/-- M6, M7: ties go upward. -/
theorem test_lum_ties :
    (lum 0 14 76, lum 0 68 12, lum 0 150 100, lum 0 204 36, lum 1 97 165) = (16, 50, 115, 149, 82) := by
  decide +kernel

/-- R232's example with three pixels of `80 80 80 FF`: bin 128 is at DST + 512, big-endian. -/
theorem test_metHist :
    nextHas (runWord 0x31 (poke 0x100 [0x80, 0x80, 0x80, 0xFF, 0x80, 0x80, 0x80, 0xFF, 0x80, 0x80, 0x80, 0xFF]
        (operands 0x100 0x800 0 3 State.reset)))
      (fun t => bytesAt t 0xA00 4 == [0, 0, 0, 3] && bytesAt t 0x800 1 == [0] && t.result == 3) = true := by
  decide +kernel

/-! ## The host's accesses, one step each -/

/-- A state whose host has one statement left to run. -/
def hostRuns (st : Stmt) (s : State) : State := { loadScript [st] s with schedule := [.host] }

/-- X11: a busy write is ignored and sets WERR. -/
theorem test_busy_write :
    nextHas (step (hostRuns (.wr .v0 (.const 5)) (issue 0#32 State.reset)))
      (fun t => t.v0 == 0 && t.status.toWord == 0x11) = true := by
  decide +kernel

/-- X13: `ack`. -/
theorem test_ack :
    nextHas (step (hostRuns (.wr .status (.const 0x12))
        { State.reset with status := ⟨false, true, false, true, 0#8⟩ })) (fun t => t.status.toWord == 0) = true := by
  decide +kernel

/-- X14: the interrupt at the completion of a NOP. -/
theorem test_irq : nextHas (runWord 0 { State.reset with ctrlIE := true }) (fun t => t.irq) = true := by decide +kernel

/-- X15: SRST wins over IE. -/
theorem test_soft_reset :
    nextHas (step (hostRuns (.wr .ctrl (.const 3)) (hiKey State.reset)))
      (fun t => t.k0 == 0 && t.ctrlIE == false && t.status == Status.reset) = true := by
  decide +kernel

/-- R22: ID reads as "TCB1". -/
theorem test_id : (hostReadReg (some .id) State.reset).1 = 0x54434231#32 := by decide

/-- U4: a two-byte register access is a host fault. -/
theorem test_narrow_access :
    (match step (hostRuns (.busRd 4 2 .scratch) State.reset) with | .fault .registerAccess => true | _ => false) = true := by
  decide +kernel

/-- U3: a host store into the footprint of BLK_ST while it is in flight. -/
theorem test_footprint_fault :
    (match step (hostRuns (.mw (.const 7) [1]) (issue 0xA#32 State.reset)) with | .fault .footprintHazard => true | _ => false)
      = true := by
  decide +kernel

/-- R98: an `if` compares with a temporary plus a constant; here it jumps to the label at 1. -/
theorem test_branch_on_value :
    nextHas (step { State.reset with
        host := ⟨[.halt, .label .fail, .branch (.named 0) .whole (.eq (.plus (.named 1) 2)) .fail], 2,
          [(.named 0, .word 7), (.named 1, .word 5)]⟩ }) (fun t => t.host.pc == 1) = true := by
  decide +kernel

/-- R98, R221: `mr OUT, n -> t` with `n` a temporary loads the two bytes "HI". -/
theorem test_load_counted_by_temporary :
    nextHas (step { poke 0x240 [0x48, 0x49, 0x4A] State.reset with
        host := ⟨[.mr (.const 0x240) (.temp (.named 3)) (.named 5)], 0, [(.named 3, .word 2)]⟩ })
      (fun t => lookupTemp (.named 5) t.host.temps == some (.bytes [0x48, 0x49])) = true := by
  decide +kernel

/-- R98: the pipelines of R220 and R221 assemble into scripts whose jumps are all defined. -/
theorem test_pipelines_assemble :
    [encryptAndEmbed ⟨0, 16, 0x10, 2, 0x20, 0x40, 0x100, 32, 0x240⟩, extractAndDecrypt ⟨0, 16, 0x10, 2, 0x20, 0x200, 0x100, 32, 0x240⟩].map
      (fun src => match assemble src with | .ok ss => scriptWf ss | .error _ => false) = [true, true] := by
  decide +kernel

/-! ## Witnesses: for every statement with hypotheses, states and operands that meet them, one line per clause, at the boundary
of its range where it has one -/

open Sys2Proof.Spec

/-- The reset machine with operands in SRC, DST, LEN and PIXCNT. -/
def ops (src dst len pix : Nat) : State := operands src dst len pix State.reset

/-- The state a command completes in. -/
def after (i : Instr) (s : State) : State :=
  match exec i s with
  | .next t => t
  | .fault _ | .refused _ => s

theorem exec_after (i : Instr) (s : State) : exec i s = .next (after i s) := by
  obtain ⟨t, h⟩ := Laws.exec_next i s
  simp [after, h]

/-- A state with a command word in flight. -/
def flying (w : Word) (s : State) : State := issue w s

theorem witness_StepRunsTheWordInFlight :
    (flying 3#32 State.reset).status.busy = true ∧ decode (flying 3#32 State.reset).cmd = .ok (.teaErnd 0#5)
      ∧ { flying 3#32 State.reset with schedule := [.block] }.schedule = .block :: []
      ∧ (flying 3#32 State.reset).schedule = [] ∧ decode 0x1F03#32 = .ok (.teaErnd 31#5) := by decide +kernel

theorem witness_IssueLatchesTheCommand : State.reset.status.busy = false := by decide

theorem witness_IllegalWordsCompleteWithErrIllegal :
    State.reset.status.busy = false ∧ (∀ r ∈ opcodeRows, r.accepts 0x2003#32 = false)
      ∧ ∀ r ∈ opcodeRows, r.accepts 0x06#32 = false := by decide +kernel

theorem witness_EveryCommandCompletes : ∃ t, exec .wSt (ops 0 0xFFC 0 0) = .next t := ⟨_, exec_after _ _⟩

theorem witness_ErrorsChangeOnlyStatusAndErrinfo :
    exec .wSt (ops 0 0xFFD 0 0) = .next (after .wSt (ops 0 0xFFD 0 0)) ∧ (after .wSt (ops 0 0xFFD 0 0)).status.errcode ≠ 0#8 :=
  ⟨exec_after _ _, by decide +kernel⟩

/-- Its clauses: a success, and one that sets PADBAD. -/
theorem witness_SuccessLeavesTheOperands :
    exec .unpad (ops 0 0 8 0) = .next (after .unpad (ops 0 0 8 0)) ∧ (after .unpad (ops 0 0 8 0)).status.errcode = 0#8
      ∧ (after .unpad (ops 0 0 8 0)).status.padbad = true :=
  ⟨exec_after _ _, by decide +kernel⟩

theorem witness_ErrorCodesByCommand :
    exec .frUnwrap (ops 0 0 3 0) = .next (after .frUnwrap (ops 0 0 3 0))
      ∧ (after .frUnwrap (ops 0 0 3 0)).status.errcode = 0x08#8 :=
  ⟨exec_after _ _, by decide +kernel⟩

/-- A state in which every register a command can change holds something else. -/
def full : State :=
  { poke 0x10 [0, 0, 0, 4, 5, 6, 7, 8] (hiKey (block 1 2 3 (ops 0x10 0x20 8 2))) with
    result := 0x77#32, raddr := 0x77#32, metrics := ⟨1, 1, 1, 1, 1, 1, 1, 1, 1⟩ }

/-- Its seven clauses. -/
theorem witness_RegistersWrittenByCommands :
    (after .blkLd full).v0 ≠ full.v0 ∧ (after .blkLd full).v1 ≠ full.v1 ∧ (after .zero full).sum ≠ full.sum
      ∧ keyOf (after .keyLd full) ≠ keyOf full ∧ (after .lsbCap full).result ≠ full.result
      ∧ (after .frUnwrap full).raddr ≠ full.raddr ∧ (after .metDiff full).metrics ≠ full.metrics := by decide +kernel

theorem witness_StoresStayInTheWriteFootprint :
    Memory.wf full.mem = true ∧ exec .blkSt full = .next (after .blkSt full)
      ∧ (∀ r ∈ writeRanges .blkSt full, r.holds 0x28 = false) ∧ (∀ r ∈ writeRanges .blkSt full, r.holds 0x1F = false) :=
  ⟨by decide +kernel, exec_after _ _, by decide +kernel, by decide +kernel⟩

/-- Two memories that agree on the read footprint of W_LD and differ behind it. -/
theorem witness_OutcomeDependsOnTheReadFootprint :
    Memory.wf full.mem = true ∧ Memory.wf (full.mem.write 0x14 0xFF#8) = true
      ∧ (∀ r ∈ readRanges .wLd full, ∀ x, r.holds x = true → (full.mem.write 0x14 0xFF#8).read x = full.mem.read x)
      ∧ (full.mem.write 0x14 0xFF#8).read 0x14 ≠ full.mem.read 0x14
      ∧ exec .wLd full = .next (after .wLd full)
      ∧ exec .wLd { full with mem := full.mem.write 0x14 0xFF#8 }
          = .next (after .wLd { full with mem := full.mem.write 0x14 0xFF#8 }) := by
  refine ⟨by decide +kernel, by decide +kernel, ?_, by decide +kernel, exec_after _ _, exec_after _ _⟩
  intro r hr x hx
  have hm : r = ⟨0x10, 4⟩ := by simpa [readRanges, full, ops, operands, poke, hiKey, block] using hr
  rw [hm, Laws.holds_iff] at hx
  exact Laws.read_write_ne _ _ _ _ (by decide +kernel) (by dsimp only at hx; omega)

theorem flying_sound : (flying 0#32 State.reset).Inv := by constructor <;> decide

theorem witness_InterruptFollowsCompletion :
    (flying 0#32 State.reset).Inv ∧ (flying 0#32 State.reset).status.busy = true
      ∧ exec .nop { State.reset with ctrlIE := true } = .next (after .nop { State.reset with ctrlIE := true }) :=
  ⟨flying_sound, by decide, exec_after _ _⟩

/-- Its clauses: SRST set and clear, the first and the last operand register beside another register, a reserved offset, and a
read-only register. -/
theorem witness_IdleRegisterWrites :
    State.reset.status.busy = false ∧ (3#32).getLsbD 1 = true ∧ (1#32).getLsbD 1 = false ∧ Reg.v0 ∈ writable ∧ Reg.pixcnt ∈ writable ∧ Reg.status ≠ Reg.v0
      ∧ (∀ r, regAt 0x01C = some r → r ∉ writable ∧ r ≠ .ctrl ∧ r ≠ .status ∧ r ≠ .cmd)
      ∧ ∀ r, some Reg.result = some r → r ∉ writable ∧ r ≠ .ctrl ∧ r ≠ .status ∧ r ≠ .cmd := by
  refine ⟨by decide, by decide, by decide, by decide, by decide, by decide, ?_, ?_⟩
  · intro r h; cases h
  · rintro r ⟨⟩; decide

/-- Its clauses: SRST clear and set, and an offset other than CTRL and STATUS, named and reserved. -/
theorem witness_BusyWrites :
    (flying 0#32 State.reset).status.busy = true ∧ (1#32).getLsbD 1 = false ∧ (3#32).getLsbD 1 = true
      ∧ some Reg.cmd ≠ some .ctrl ∧ some Reg.cmd ≠ some .status ∧ (none : Option Reg) ≠ some .ctrl
      ∧ (none : Option Reg) ≠ some .status := by decide

/-- Two busy states with as many draws behind them that differ in V0. -/
theorem witness_BusyReadsRevealNothing :
    (flying 1#32 State.reset).status.busy = true ∧ Reg.pixcnt ∈ steadyRegs
      ∧ (flying 1#32 (block 5 0 0 State.reset)).status.busy = true
      ∧ (flying 1#32 (block 5 0 0 State.reset)).draws = (flying 1#32 State.reset).draws ∧ Reg.v0 ∉ steadyRegs := by decide

/-- Idle, with an accumulator whose halves differ. -/
theorem witness_StatusAndCtrlLayout :
    full.status.busy = false ∧ full.metrics.biterr.extractLsb' 0 32 ≠ full.metrics.biterr.extractLsb' 32 32 := by decide

/-- Its clauses: a register's offset, the first and the last reserved one; an access across its end, an unaligned one and a narrow one. -/
theorem witness_BusAccessesAreAlignedWords :
    (0x094, Reg.mLb2Hi) ∈ windowMap ∧ ReservedOffset 0x01C ∧ ReservedOffset 0x0FC ∧ Shares 0xFE 4 State.reset.plat.regBase 256 ∧ (∀ j < 64, 0xFE ≠ State.reset.plat.regBase + 4 * j)
      ∧ Shares 6 4 State.reset.plat.regBase 256 ∧ (∀ j < 64, 6 ≠ State.reset.plat.regBase + 4 * j)
      ∧ Shares 0xFF 1 State.reset.plat.regBase 256 ∧ 1 ≠ 4 := by decide +kernel

/-- Its clauses: BLK_ST in flight, with the last byte of its range and the byte behind it; an illegal word in flight; an idle block;
the first address that does not exist. -/
theorem witness_HostMemoryAccesses :
    let s := flying 0x0A#32 (ops 0 0xFF0 0 0)
    Memory.wf s.mem = true ∧ s.status.busy = true ∧ decode s.cmd = .ok .blkSt ∧ WritesAt s 0xFF7 .blkSt
      ∧ ¬ WritesAt s 0xFF8 .blkSt ∧ (∀ i, decode (flying 0x06#32 State.reset).cmd ≠ .ok i) ∧ State.reset.status.busy = false
      ∧ ¬ Fits s 0xFFF [1#8, 2#8].length ∧ Fits s 0xFF7 [1#8].length ∧ hazard s 0xFF7 = true
      ∧ Fits s 0xFF8 [1#8].length ∧ hazard s 0xFF8 = false := by
  refine ⟨by decide +kernel, by decide, by decide, by unfold WritesAt; decide +kernel, by unfold WritesAt; decide +kernel, ?_,
    by decide +kernel⟩
  intro i h; cases h

/-- A statement of each kind, with a temporary that holds 5, one that holds a byte string, one that holds nothing, and a label at
the end. -/
theorem witness_HostStatementsReachTheRegisters :
    ∀ st ∈ [Stmt.wr .len (.const 7), .wr .len (.temp (.named 0)), .wr .len (.plus (.named 0) 4), .wr .len (.minus (.named 0) 4),
        .wr .len (.temp (.named 1)), .mw (.temp (.named 1)) [1], .mr (.temp (.named 2)) (.temp (.named 1)) (.named 2),
        .branch (.named 1) .whole .nonzero .fail, .branch (.named 2) .whole (.eq (.temp (.named 1))) .fail, .cmd .nop, .rd .status (.named 1), .mw (.temp (.named 0)) [1],
        .mr (.const 7) (.temp (.named 0)) (.named 2), .label (.named 0), .branch (.named 0) .whole .nonzero .fail,
        .branch (.named 0) .whole (.eq (.temp (.named 0))) .fail, .branch (.named 0) .whole (.ne (.minus (.named 0) 1)) (.named 9),
        .goto .fail, .goto (.named 9), .halt],
      let s : State :=
        { State.reset with schedule := [.host], host := ⟨[st, .label .fail], 0, [(.named 0, .word 5), (.named 1, .bytes [1])]⟩ }
      s.schedule = .host :: [] ∧ s.host.script[s.host.pc]? = some st ∧ HoldsWord s (.named 0) 5
        ∧ lookupTemp (.named 1) s.host.temps = some (.bytes [1]) ∧ lookupTemp (.named 2) s.host.temps = none
        ∧ labelIndex .fail s.host.script = some 1 ∧ labelIndex (.named 9) s.host.script = none := by decide +kernel

theorem witness_OnlyHostTurnsStop : ∀ t, step (hostRuns (.busRd 4 2 .scratch) State.reset) ≠ .next t := by
  intro t h
  have hf := test_narrow_access
  rw [h] at hf
  cases hf

/-- One round and 31 rounds are 32. -/
theorem witness_TeaRoundsCompose :
    ((0#5).toNat + 1) + ((30#5).toNat + 1) = (31#5).toNat + 1
      ∧ exec (.teaErnd 0#5) full = .next (after (.teaErnd 0#5) full)
      ∧ exec (.teaErnd 30#5) (after (.teaErnd 0#5) full) = .next (after (.teaErnd 30#5) (after (.teaErnd 0#5) full))
      ∧ exec (.teaDrnd 0#5) full = .next (after (.teaDrnd 0#5) full)
      ∧ exec (.teaDrnd 30#5) (after (.teaDrnd 0#5) full) = .next (after (.teaDrnd 30#5) (after (.teaDrnd 0#5) full)) :=
  ⟨by decide, exec_after _ _, exec_after _ _, exec_after _ _, exec_after _ _⟩

theorem witness_TeaDecInvertsTeaEnc :
    exec .teaEnc full = .next (after .teaEnc full) ∧ exec .teaDec (after .teaEnc full) = .next (after .teaDec (after .teaEnc full))
      ∧ exec .teaDec full = .next (after .teaDec full)
      ∧ exec .teaEnc (after .teaDec full) = .next (after .teaEnc (after .teaDec full)) :=
  ⟨exec_after _ _, exec_after _ _, exec_after _ _, exec_after _ _⟩

theorem witness_EquivalentKeysEncryptAlike :
    exec .teaEnc full = .next (after .teaEnc full)
      ∧ (∃ u, exec .teaEnc { full with k0 := full.k0 ^^^ 0x80000000#32, k1 := full.k1 ^^^ 0x80000000#32 } = .next u)
      ∧ ∃ u, exec .teaEnc { full with k2 := full.k2 ^^^ 0x80000000#32, k3 := full.k3 ^^^ 0x80000000#32 } = .next u :=
  ⟨exec_after _ _, ⟨_, exec_after _ _⟩, ⟨_, exec_after _ _⟩⟩

/-- An empty key string at an address that does not exist, and a long one that ends where memory ends. -/
theorem witness_KeyLoadPadsAndTruncates :
    Fits (ops 0xFFFFFFFF 0 0 0) (ops 0xFFFFFFFF 0 0 0).src.toNat (min (ops 0xFFFFFFFF 0 0 0).len.toNat 16)
      ∧ Fits (ops 0xFF0 0 20 0) (ops 0xFF0 0 20 0).src.toNat (min (ops 0xFF0 0 20 0).len.toNat 16) := by decide +kernel

theorem witness_LoadsAreBigEndian :
    Fits (ops 0xFF8 0 0 0) (ops 0xFF8 0 0 0).src.toNat 8 ∧ Fits (ops 0xFFC 0 0 0) (ops 0xFFC 0 0 0).src.toNat 4 := by
  decide +kernel

theorem witness_StoresAreBigEndian :
    Memory.wf (ops 0 0xFF8 0 0).mem = true ∧ Fits (ops 0 0xFF8 0 0) (ops 0 0xFF8 0 0).dst.toNat 8
      ∧ Fits (ops 0 0xFFC 0 0) (ops 0 0xFFC 0 0).dst.toNat 4 := by decide +kernel

/-- Its seven clauses, each one byte too far. -/
theorem witness_SingleRangeErrors :
    ¬ Fits (ops 0xFF1 0 16 0) 0xFF1 (min 16 16) ∧ ¬ Fits (ops 0xFF9 0 0 0) 0xFF9 8 ∧ ¬ Fits (ops 0xFFD 0 0 0) 0xFFD 4
      ∧ ¬ Fits (ops 0xFFF 0 2 0) 0xFFF 2 ∧ ¬ Fits (ops 0 0xFF9 0 0) 0xFF9 8 ∧ ¬ Fits (ops 0 0xFFD 0 0) 0xFFD 4
      ∧ ¬ Fits (ops 0 0xFF9 0 0) 0xFF9 (padded 0) := by decide +kernel

theorem witness_PadAppendsThePadding :
    let s := ops 0 0xFF0 8 0
    Memory.wf s.mem = true ∧ s.plat.wf = true ∧ Fits s s.dst.toNat (padded s.len.toNat) := by decide +kernel

/-- Its clauses: an empty string, a padding of 8, and no padding at all. -/
theorem witness_UnpadFailsOpen :
    Fits (ops 0xFFF 0 0 0) (ops 0xFFF 0 0 0).src.toNat (ops 0xFFF 0 0 0).len.toNat
      ∧ PaddingOf (poke 0x10 (List.replicate 8 8#8) (ops 0x10 0 8 0)).mem 0x10 8 8
      ∧ ∀ p, ¬ PaddingOf (ops 0x10 0 8 0).mem 0x10 8 p := by
  refine ⟨by decide +kernel, ⟨by decide, by decide, by decide, by decide +kernel⟩, ?_⟩
  rintro p ⟨h1, h8, -, h⟩
  have h0 : Memory.read (ops 0x10 0 8 0).mem 0x17 = BitVec.ofNat 8 p := h 0 (by omega)
  have hr : Memory.read (ops 0x10 0 8 0).mem 0x17 = 0#8 := rfl
  have := congrArg BitVec.toNat (hr.symm.trans h0)
  simp at this
  omega

theorem witness_UnpadInvertsPad :
    let s := ops 0 0xFF0 8 0
    Memory.wf s.mem = true ∧ s.plat.wf = true ∧ exec .pad s = .next (after .pad s) ∧ (after .pad s).status.errcode = 0#8
      ∧ ∃ u, exec .unpad { after .pad s with src := (after .pad s).dst, len := (after .pad s).result } = .next u :=
  ⟨by decide +kernel, by decide, exec_after _ _, by decide +kernel, _, exec_after _ _⟩

/-- Apart and adjacent, and in place at the end of memory. -/
theorem witness_EcbTransformsEachBlock :
    ∀ s ∈ [ops 0x10 0x20 16 0, ops 0xFF0 0xFF0 16 0], Memory.wf s.mem = true ∧ Fits s s.src.toNat s.len.toNat
      ∧ Fits s s.dst.toNat s.len.toNat ∧ ApartOrInPlace s s.len.toNat s.len.toNat ∧ s.len.toNat % 8 = 0 := by decide +kernel

theorem witness_EcbDecInvertsEcbEnc :
    let s := hiKey (ops 0xFF0 0xFF0 16 0)
    Memory.wf s.mem = true ∧ s.src = s.dst ∧ exec .ecbEnc s = .next (after .ecbEnc s) ∧ (after .ecbEnc s).status.errcode = 0#8
      ∧ exec .ecbDec (after .ecbEnc s) = .next (after .ecbDec (after .ecbEnc s)) :=
  ⟨by decide +kernel, by decide, exec_after _ _, by decide +kernel, exec_after _ _⟩

theorem witness_MsgEncPadsAndEncrypts :
    ∀ s ∈ [ops 0x10 0x18 8 0, ops 0xFF0 0xFF0 15 0], Memory.wf s.mem = true ∧ s.plat.wf = true
      ∧ Fits s s.src.toNat s.len.toNat ∧ Fits s s.dst.toNat (padded s.len.toNat)
      ∧ ApartOrInPlace s s.len.toNat (padded s.len.toNat) := by decide +kernel

theorem witness_MsgDecDecryptsAndUnpads :
    ∀ s ∈ [ops 0x10 0x20 16 0, ops 0xFF0 0xFF0 16 0, ops 0x2000 0 0 0], Memory.wf s.mem = true
      ∧ Fits s s.src.toNat s.len.toNat ∧ Fits s s.dst.toNat s.len.toNat ∧ ApartOrInPlace s s.len.toNat s.len.toNat
      ∧ s.len.toNat % 8 = 0 := by decide +kernel

/-- Decrypted in place, and into the buffer right behind the ciphertext. -/
theorem witness_MsgDecInvertsMsgEnc :
    let s := hiKey (ops 0x10 0x20 7 0)
    Memory.wf s.mem = true ∧ s.plat.wf = true ∧ exec .msgEnc s = .next (after .msgEnc s)
      ∧ (after .msgEnc s).status.errcode = 0#8 ∧ Fits s (0x28#32).toNat (padded s.len.toNat)
      ∧ ¬ Shares s.dst.toNat (padded s.len.toNat) (0x28#32).toNat (padded s.len.toNat) ∧ (0x20#32) = s.dst
      ∧ Fits s (0x20#32).toNat (padded s.len.toNat)
      ∧ ∀ d : Word, ∃ u,
          exec .msgDec { after .msgEnc s with src := (after .msgEnc s).dst, dst := d, len := (after .msgEnc s).result } = .next u :=
  ⟨by decide +kernel, by decide, exec_after _ _, by decide +kernel, by decide +kernel, by decide +kernel, by decide,
    by decide +kernel, fun _ => ⟨_, exec_after _ _⟩⟩

/-- Its clauses, in their order. -/
theorem witness_MessageErrorOrder :
    let a := ops 0xFF9 0 8 0
    let b := ops 0xFF8 0xFF9 8 0
    let c := ops 0x10 0x14 12 0
    let d := ops 0x10 0x20 12 0
    let e := ops 0x10 0xFF1 8 0
    let f := ops 0x10 0x0A 2 0
    let g := ops 0 0xFF5 8 0
    let h := ops 0x20 0x20 8 0
    ¬ Fits a a.src.toNat a.len.toNat
      ∧ (Fits b b.src.toNat b.len.toNat ∧ ¬ Fits b b.dst.toNat b.len.toNat)
      ∧ (Fits c c.src.toNat c.len.toNat ∧ Fits c c.dst.toNat c.len.toNat ∧ ¬ ApartOrInPlace c c.len.toNat c.len.toNat)
      ∧ (Fits d d.src.toNat d.len.toNat ∧ Fits d d.dst.toNat d.len.toNat ∧ ApartOrInPlace d d.len.toNat d.len.toNat
        ∧ d.len.toNat % 8 ≠ 0)
      ∧ (Fits e e.src.toNat e.len.toNat ∧ ¬ Fits e e.dst.toNat (padded e.len.toNat))
      ∧ (Fits f f.src.toNat f.len.toNat ∧ Fits f f.dst.toNat (padded f.len.toNat)
        ∧ ¬ ApartOrInPlace f f.len.toNat (padded f.len.toNat))
      ∧ (Fits g g.src.toNat g.len.toNat ∧ ¬ Fits g g.dst.toNat (g.len.toNat + 4))
      ∧ (Fits h h.src.toNat h.len.toNat ∧ Fits h h.dst.toNat (h.len.toNat + 4) ∧ h.src.toNat ≠ h.dst.toNat + 4
        ∧ Shares h.src.toNat h.len.toNat h.dst.toNat (h.len.toNat + 4)) := by decide +kernel

/-- In place at SRC = DST + 4, up to the end of memory, and apart. -/
theorem witness_FrWrapWritesHeaderAndBody :
    let a := ops 0xFF8 0xFF4 8 0
    let b := ops 0x10 0x18 8 0
    (Memory.wf a.mem = true ∧ a.plat.wf = true ∧ Fits a a.src.toNat a.len.toNat ∧ Fits a a.dst.toNat (a.len.toNat + 4)
      ∧ a.src.toNat = a.dst.toNat + 4)
      ∧ Memory.wf b.mem = true ∧ b.plat.wf = true ∧ Fits b b.src.toNat b.len.toNat ∧ Fits b b.dst.toNat (b.len.toNat + 4)
      ∧ ¬ Shares b.src.toNat b.len.toNat b.dst.toNat (b.len.toNat + 4) := by decide +kernel

/-- Its clauses: a body that just fits, a range one byte too far, three bytes, a body one byte too long. -/
theorem witness_FrUnwrapLocatesTheBody :
    let a := poke 0x60 [0, 0, 0, 8] (ops 0x60 0 12 0)
    let b := ops 0xFF5 0 12 0
    let c := ops 0x60 0 3 0
    let d := poke 0x60 [0, 0, 0, 8] (ops 0x60 0 11 0)
    (Fits a a.src.toNat a.len.toNat ∧ 4 ≤ a.len.toNat ∧ (wordAt a.mem a.src.toNat).toNat ≤ a.len.toNat - 4)
      ∧ ¬ Fits b b.src.toNat b.len.toNat
      ∧ (Fits c c.src.toNat c.len.toNat ∧ c.len.toNat < 4)
      ∧ Fits d d.src.toNat d.len.toNat ∧ 4 ≤ d.len.toNat ∧ d.len.toNat - 4 < (wordAt d.mem d.src.toNat).toNat := by
  decide +kernel

theorem witness_FrUnwrapInvertsFrWrap :
    let s := poke 0xFF8 ct (ops 0xFF8 0xFF4 8 0)
    Memory.wf s.mem = true ∧ s.plat.wf = true ∧ exec .frWrap s = .next (after .frWrap s)
      ∧ (after .frWrap s).status.errcode = 0#8
      ∧ ∃ u, exec .frUnwrap { after .frWrap s with src := (after .frWrap s).dst, len := (after .frWrap s).result } = .next u :=
  ⟨by decide +kernel, by decide, exec_after _ _, by decide +kernel, _, exec_after _ _⟩

/-- Three pixels hold exactly one byte. -/
theorem witness_EmbedWritesOnlyTheLsbs :
    let s := poke 0 [0xA5] (ops 0 0xFF4 1 3)
    Memory.wf s.mem = true ∧ Fits s s.src.toNat s.len.toNat ∧ Fits s s.dst.toNat (4 * s.pixcnt.toNat)
      ∧ ¬ Shares s.src.toNat s.len.toNat s.dst.toNat (4 * s.pixcnt.toNat) ∧ s.len.toNat ≤ 3 * s.pixcnt.toNat / 8 := by
  decide +kernel

theorem headerAt_stego14 : headerAt (stego14 (ops 0x100 0x200 0 14)).mem 0x100 = 1 := by decide +kernel

/-- Fourteen pixels: the declared length is all that fits behind the header. -/
theorem witness_ExtractReadsTheFramedPayload :
    let s := stego14 (ops 0x100 0x138 0 14)
    Memory.wf s.mem = true ∧ s.plat.wf = true ∧ Fits s s.src.toNat (4 * s.pixcnt.toNat) ∧ 32 ≤ 3 * s.pixcnt.toNat
      ∧ headerAt s.mem s.src.toNat ≠ 0 ∧ headerAt s.mem s.src.toNat ≤ (3 * s.pixcnt.toNat - 32) / 8
      ∧ Fits s s.dst.toNat (4 + headerAt s.mem s.src.toNat)
      ∧ ¬ Shares s.src.toNat (4 * s.pixcnt.toNat) s.dst.toNat (4 + headerAt s.mem s.src.toNat) := by decide +kernel

/-- The clauses of LSB_EMBED: each range one byte too far, an overlap of one byte, one byte over capacity. -/
theorem witness_LsbErrorOrder_embed :
    let a := ops 0xFFF 0 2 11
    let b := ops 0 0xFD5 4 11
    let c := ops 0x12B 0x100 4 11
    let d := ops 0x340 0x300 5 11
    ¬ Fits a a.src.toNat a.len.toNat
      ∧ (Fits b b.src.toNat b.len.toNat ∧ ¬ Fits b b.dst.toNat (4 * b.pixcnt.toNat))
      ∧ (Fits c c.src.toNat c.len.toNat ∧ Fits c c.dst.toNat (4 * c.pixcnt.toNat)
        ∧ Shares c.src.toNat c.len.toNat c.dst.toNat (4 * c.pixcnt.toNat))
      ∧ Fits d d.src.toNat d.len.toNat ∧ Fits d d.dst.toNat (4 * d.pixcnt.toNat)
      ∧ ¬ Shares d.src.toNat d.len.toNat d.dst.toNat (4 * d.pixcnt.toNat) ∧ 3 * d.pixcnt.toNat / 8 < d.len.toNat := by
  decide +kernel

/-- The clauses of LSB_EXTRACT: the range, 10 pixels, a header of 0 and one that is too large, the output range, an overlap. -/
theorem witness_LsbErrorOrder_extract :
    let a := ops 0xFD5 0 0 11
    let b := ops 0x100 0x200 0 10
    let c := ops 0x100 0x200 0 11
    let d := poke 0x100 (List.replicate 44 0xFF#8) (ops 0x100 0x200 0 11)
    let e := stego14 (ops 0x100 0xFFC 0 14)
    let f := stego14 (ops 0x100 0x137 0 14)
    ¬ Fits a a.src.toNat (4 * a.pixcnt.toNat)
      ∧ (Fits b b.src.toNat (4 * b.pixcnt.toNat) ∧ 3 * b.pixcnt.toNat < 32)
      ∧ (Fits c c.src.toNat (4 * c.pixcnt.toNat) ∧ 32 ≤ 3 * c.pixcnt.toNat ∧ headerAt c.mem c.src.toNat = 0)
      ∧ (Fits d d.src.toNat (4 * d.pixcnt.toNat) ∧ 32 ≤ 3 * d.pixcnt.toNat
        ∧ (3 * d.pixcnt.toNat - 32) / 8 < headerAt d.mem d.src.toNat)
      ∧ (Fits e e.src.toNat (4 * e.pixcnt.toNat) ∧ 32 ≤ 3 * e.pixcnt.toNat ∧ headerAt e.mem e.src.toNat ≠ 0
        ∧ headerAt e.mem e.src.toNat ≤ (3 * e.pixcnt.toNat - 32) / 8 ∧ ¬ Fits e e.dst.toNat (4 + headerAt e.mem e.src.toNat))
      ∧ Fits f f.src.toNat (4 * f.pixcnt.toNat) ∧ 32 ≤ 3 * f.pixcnt.toNat ∧ headerAt f.mem f.src.toNat ≠ 0
      ∧ headerAt f.mem f.src.toNat ≤ (3 * f.pixcnt.toNat - 32) / 8 ∧ Fits f f.dst.toNat (4 + headerAt f.mem f.src.toNat)
      ∧ Shares f.src.toNat (4 * f.pixcnt.toNat) f.dst.toNat (4 + headerAt f.mem f.src.toNat) := by decide +kernel

/-- A body of one byte, the shortest there is. -/
theorem witness_ExtractInvertsEmbed :
    let s := poke 0x10 [0, 0, 0, 1, 0xA5] (ops 0x10 0x100 5 14)
    Memory.wf s.mem = true ∧ s.plat.wf = true ∧ exec .lsbEmbed s = .next (after .lsbEmbed s)
      ∧ (after .lsbEmbed s).status.errcode = 0#8 ∧ 5 ≤ s.len.toNat ∧ (wordAt s.mem s.src.toNat).toNat + 4 = s.len.toNat
      ∧ Fits s (0x138#32).toNat s.len.toNat ∧ ¬ Shares s.dst.toNat (4 * s.pixcnt.toNat) (0x138#32).toNat s.len.toNat
      ∧ ∃ u, exec .lsbExtract { after .lsbEmbed s with src := (after .lsbEmbed s).dst, dst := 0x138#32 } = .next u :=
  ⟨by decide +kernel, by decide, exec_after _ _, by decide +kernel, by decide, by decide +kernel, by decide +kernel,
    by decide +kernel, _, exec_after _ _⟩

theorem witness_MetDiffSumsExactly :
    Fits (ops 0xFF8 0 0 2) (ops 0xFF8 0 0 2).src.toNat (4 * 2) ∧ Fits (ops 0xFF8 0 0 2) (ops 0xFF8 0 0 2).dst.toNat (4 * 2) := by
  decide +kernel

theorem witness_MetDiffOfABufferWithItself :
    (ops 0xFF8 0xFF8 0 2).src = (ops 0xFF8 0xFF8 0 2).dst ∧ Fits (ops 0xFF8 0xFF8 0 2) 0xFF8 (4 * 2) := by decide +kernel

theorem witness_MetHistCountsLuminances :
    let s := ops 0xBFC 0xC00 0 1
    Memory.wf s.mem = true ∧ Fits s s.src.toNat (4 * s.pixcnt.toNat) ∧ Fits s s.dst.toNat 1024
      ∧ ¬ Shares s.src.toNat (4 * s.pixcnt.toNat) s.dst.toNat 1024 := by decide +kernel

/-- Its clauses: each range one byte too far, and an overlap of one byte. -/
theorem witness_MetricErrorOrder :
    let a := ops 0xFFD 0 0 1
    let b := ops 0 0xFFD 0 1
    let c := ops 0 0xC01 0 1
    let d := ops 0xBFD 0xC00 0 1
    ¬ Fits a a.src.toNat (4 * a.pixcnt.toNat)
      ∧ (Fits b b.src.toNat (4 * b.pixcnt.toNat) ∧ ¬ Fits b b.dst.toNat (4 * b.pixcnt.toNat))
      ∧ (Fits c c.src.toNat (4 * c.pixcnt.toNat) ∧ ¬ Fits c c.dst.toNat 1024)
      ∧ Fits d d.src.toNat (4 * d.pixcnt.toNat) ∧ Fits d d.dst.toNat 1024
      ∧ Shares d.src.toNat (4 * d.pixcnt.toNat) d.dst.toNat 1024 := by decide +kernel

/-- Idle and busy; SRST set; a reset input scheduled while a command is in flight. -/
theorem witness_ResetFromAnyState :
    full.status.busy = false ∧ (flying 3#32 full).status.busy = true ∧ (2#32).getLsbD 1 = true
      ∧ { flying 3#32 full with schedule := [.hardReset] }.schedule = .hardReset :: [] := by decide +kernel

theorem witness_AbortLeavesOldOrNewBytes :
    Memory.wf (flying 0x0A#32 full).mem = true ∧ (flying 0x0A#32 full).status.busy = true := by decide +kernel

/-- A completion, a host access and a hardware reset. -/
theorem witness_StepKeepsStatesSound :
    (flying 0#32 State.reset).Inv ∧ ∀ w ∈ [Turn.block, .host, .hardReset], ∃ t,
      step { flying 0#32 State.reset with schedule := [w] } = .next t := by
  refine ⟨flying_sound, fun w hw => ?_⟩
  simp only [List.mem_cons, List.not_mem_nil, or_false] at hw
  rcases hw with rfl | rfl | rfl <;> exact ⟨_, rfl⟩

theorem witness_StepKeepsAccumulatorBounds :
    State.reset.metrics.Within (2 ^ 32 - 1) ∧ ∃ t, step State.reset = .next t :=
  ⟨by constructor <;> decide +kernel, _, rfl⟩

end Sys2Proof.Tests
end

section
/-! SUPPORT. What each access of the host can do, and the induction over the turns of a step: a property that every change a turn
can make keeps is kept by every step. -/

namespace Sys2Proof.Proofs

open Sys2Proof.Machine Sys2Proof.Laws

/-! ## The host's accesses -/

/-- A host write on the bus that has an effect is a write of a register (R61). -/
theorem busWrite_eq_next {addr width : Nat} {v : Word} {s t : State} (h : busWrite addr width v s = .next t) :
    ∃ r, t = hostWriteReg r v s := by
  unfold busWrite at h
  split at h
  · next r _ => exact ⟨r, by simpa using h.symm⟩
  · cases h
  · cases h

/-- A host read on the bus that has an effect is a read of a register (R61). -/
theorem busRead_eq_next {addr width : Nat} {k : Word → State → State} {s t : State} (h : busRead addr width k s = .next t) :
    ∃ r, t = k (hostReadReg r s).1 (hostReadReg r s).2 := by
  unfold busRead at h
  split at h
  · next r _ => exact ⟨r, by simpa using h.symm⟩
  · cases h
  · cases h

/-- A host access to buffer memory goes through exactly when its bytes exist and none is in the footprint in flight (R60, R286). -/
theorem hostAccessFault_eq_none (s : State) (a n : Nat) :
    hostAccessFault s a n = none ↔
      (n = 0 ∨ a + n ≤ s.plat.memSize) ∧ ∀ r ∈ footprint s, overlap a n r.start r.size = false := by
  rw [← checkRange_iff]
  unfold hostAccessFault
  cases checkRange s.plat a n <;> simp [-overlap_iff]

/-- A host store that goes through may be made, and writes its bytes (R98). -/
theorem hostStore_eq_next {a : Nat} {bs : List Byte} {s t : State} (h : hostStore a bs s = .next t) :
    hostAccessFault s a bs.length = none ∧ t = { s with mem := writeBytes s.mem a bs } := by
  unfold hostStore at h
  split at h
  · cases h
  · next hf => exact ⟨hf, by simpa using h.symm⟩

/-- A host load that goes through may be made, and hands over the bytes read (R98). -/
theorem hostLoad_eq_next {a n : Nat} {k : List Byte → State → State} {s t : State} (h : hostLoad a n k s = .next t) :
    hostAccessFault s a n = none ∧ t = k (readBytes s.mem a n) s := by
  unfold hostLoad at h
  split at h
  · cases h
  · next hf => exact ⟨hf, by simpa using h.symm⟩

/-- A jump moves the host's place in its script and nothing else (R98). -/
theorem jumpTo_eq_next {l : Label} {s t : State} (h : jumpTo l s = .next t) :
    ∃ k, t = { s with host := { s.host with pc := k } } := by
  unfold jumpTo at h
  split at h
  · next k _ => exact ⟨k, by simpa using h.symm⟩
  · cases h

/-- Everything a write of a register or of a reserved offset can do (R111, R113, R118). -/
theorem hostWriteReg_cases (r : Option Reg) (v : Word) (s : State) :
    hostWriteReg r v s = hardReset s
      ∨ hostWriteReg r v s = { s with ctrlIE := v.getLsbD 0 }
      ∨ hostWriteReg r v s = { s with status := s.status.writeOneClear v }
      ∨ (s.status.busy = true ∧ hostWriteReg r v s = { s with status := s.status.refusedWrite })
      ∨ (s.status.busy = false ∧ hostWriteReg r v s = issue v s)
      ∨ ∃ q, hostWriteReg r v s = setOperand q v s := by
  have other (q : Option Reg) : (s.status.busy = true ∧ writeOther q v s = { s with status := s.status.refusedWrite })
      ∨ (s.status.busy = false ∧ writeOther q v s = issue v s) ∨ ∃ q', writeOther q v s = setOperand q' v s := by
    unfold writeOther
    split
    · next hb => exact .inl ⟨hb, rfl⟩
    · next hb =>
      split
      · exact .inr (.inr ⟨.id, rfl⟩)
      · exact .inr (.inl ⟨by simpa using hb, rfl⟩)
      · next q _ => exact .inr (.inr ⟨q, rfl⟩)
  unfold hostWriteReg
  split
  · unfold writeCtrl
    split
    · exact .inl rfl
    · exact .inr (.inl rfl)
  · exact .inr (.inr (.inl rfl))
  · exact .inr (.inr (.inr (other _)))

/-! ## The induction over turns -/

/-- A property of states that every change a turn can make keeps: the bookkeeping of the agents, each register write of the host
(R111, R113, R118), a store to addresses that exist (R60), a completion (R95, R96, R115) and a reset (R280). -/
structure StepClosed (P : State → Prop) : Prop where
  agents : ∀ {s}, P s → ∀ host schedule draws, P { s with host := host, schedule := schedule, draws := draws }
  setIE : ∀ {s}, P s → ∀ b, P { s with ctrlIE := b }
  writeOneClear : ∀ {s}, P s → ∀ v, P { s with status := s.status.writeOneClear v }
  refusedWrite : ∀ {s}, P s → P { s with status := s.status.refusedWrite }
  issue : ∀ {s}, P s → ∀ w, P (issue w s)
  setOperand : ∀ {s}, P s → ∀ r v, P (setOperand r v s)
  store : ∀ {s}, P s → ∀ a bs, (bs = [] ∨ a + bs.length ≤ s.plat.memSize) → P { s with mem := writeBytes s.mem a bs }
  exec : ∀ {s t i}, P s → exec i s = .next t → P t
  raiseErr : ∀ {s}, P s → ∀ e info, P (raiseErr e info s)
  hardReset : ∀ {s}, P s → P (hardReset s)

namespace StepClosed

variable {P : State → Prop} {s t : State}

theorem advance (c : StepClosed P) (hs : P s) : P (advance s) := c.agents hs _ _ _

theorem setTemp (c : StepClosed P) (hs : P s) (x : Temp) (v : TempVal) : P (setTemp x v s) := c.agents hs _ _ _

theorem readTemp (c : StepClosed P) (hs : P s) (x : Temp) : P (readTemp x s).2 := by
  rw [readTemp_frame]; exact c.agents hs _ _ _

theorem evalVal (c : StepClosed P) (hs : P s) (v : Val) : P (evalVal v s).2 := by
  rw [evalVal_frame]; exact c.agents hs _ _ _

theorem evalCond (c : StepClosed P) (hs : P s) (q : Cond) (x : Word) : P (evalCond q x s).2 := by
  rw [evalCond_frame]; exact c.agents hs _ _ _

theorem hostReadReg (c : StepClosed P) (hs : P s) (r : Option Reg) : P (hostReadReg r s).2 := by
  rw [hostReadReg_frame]; exact c.agents hs _ _ _

theorem jumpTo (c : StepClosed P) (hs : P s) {l : Label} (h : jumpTo l s = .next t) : P t := by
  obtain ⟨k, rfl⟩ := jumpTo_eq_next h
  exact c.agents hs _ _ _

theorem hostWriteReg (c : StepClosed P) (hs : P s) (r : Option Reg) (v : Word) : P (hostWriteReg r v s) := by
  rcases hostWriteReg_cases r v s with h | h | h | ⟨-, h⟩ | ⟨-, h⟩ | ⟨q, h⟩ <;> rw [h]
  · exact c.hardReset hs
  · exact c.setIE hs _
  · exact c.writeOneClear hs v
  · exact c.refusedWrite hs
  · exact c.issue hs v
  · exact c.setOperand hs q v

theorem busWrite (c : StepClosed P) (hs : P s) {addr width : Nat} {v : Word} (h : busWrite addr width v s = .next t) : P t := by
  obtain ⟨r, rfl⟩ := busWrite_eq_next h
  exact c.hostWriteReg hs r v

theorem busRead (c : StepClosed P) (hs : P s) {addr width : Nat} {x : Temp}
    (h : busRead addr width (fun w => Machine.setTemp x (.word w)) s = .next t) : P t := by
  obtain ⟨r, rfl⟩ := busRead_eq_next h
  exact c.setTemp (c.hostReadReg hs r) x _

theorem hostStore (c : StepClosed P) (hs : P s) {a : Nat} {bs : List Byte} (h : hostStore a bs s = .next t) : P t := by
  obtain ⟨hf, rfl⟩ := hostStore_eq_next h
  obtain ⟨hin, -⟩ := (hostAccessFault_eq_none s a bs.length).1 hf
  exact c.store hs a bs (by simpa using hin)

theorem hostLoad (c : StepClosed P) (hs : P s) {a n : Nat} {x : Temp}
    (h : hostLoad a n (fun bs => Machine.setTemp x (.bytes bs)) s = .next t) : P t := by
  obtain ⟨-, rfl⟩ := hostLoad_eq_next h
  exact c.setTemp hs x _

/-- Each host statement keeps the property (R98). -/
theorem execStmt (c : StepClosed P) (hs : P s) {st : Stmt} (h : execStmt st s = .next t) : P t := by
  cases st with
  | wr r v => exact c.busWrite (c.advance (c.evalVal hs v)) h
  | rd r x => exact c.busRead (c.advance hs) h
  | cmd i => exact c.busWrite (c.advance hs) h
  | mw a bs => exact c.hostStore (c.advance (c.evalVal hs a)) h
  | mr a n x => exact c.hostLoad (c.advance (c.evalVal (c.evalVal hs a) n)) h
  | label l =>
    obtain rfl : Machine.advance s = t := by simpa [Machine.execStmt] using h
    exact c.advance hs
  | branch x f q l =>
    have hb := c.evalCond (c.readTemp hs x) q (f.get (Machine.readTemp x s).1)
    unfold Machine.execStmt at h
    dsimp only at h
    split at h
    · exact c.jumpTo hb h
    · obtain rfl := Host.Outcome.next.inj h
      exact c.advance hb
  | goto l => exact c.jumpTo hs h
  | halt => exact Host.Outcome.next.inj h ▸ hs
  | busWr addr width v => exact c.busWrite (c.advance (c.evalVal hs v)) h
  | busRd addr width x => exact c.busRead (c.advance hs) h

theorem hostTurn (c : StepClosed P) (hs : P s) (h : hostTurn s = .next t) : P t := by
  unfold Machine.hostTurn at h
  split at h
  · exact c.execStmt hs h
  · exact Host.Outcome.next.inj h ▸ hs

theorem blockTurn (c : StepClosed P) (hs : P s) (h : blockTurn s = .next t) : P t := by
  rcases blockTurn_cases h with ⟨-, rfl⟩ | ⟨-, i, -, hi⟩ | ⟨-, r, -, rfl⟩
  · exact hs
  · exact c.exec hs hi
  · exact c.raiseErr hs _ _

/-- A property that every change of a turn keeps is kept by every step (R21, R257). -/
theorem step (c : StepClosed P) (hs : P s) (h : step s = .next t) : P t := by
  have ht : P (tick s) := c.agents hs _ _ _
  rcases step_cases h with ⟨-, h⟩ | ⟨-, h⟩ | ⟨-, rfl⟩
  · exact c.hostTurn ht h
  · exact c.blockTurn ht h
  · exact c.hardReset ht

end StepClosed

end Sys2Proof.Proofs
end

section
/-! SUPPORT. How a command can end, and which registers it may change (`10_state.md` R22, `40_command.md` R115 to R117). -/

namespace Sys2Proof.Proofs

open Sys2Proof.Machine Sys2Proof.Laws

/-- Every command ends in a successful completion or in an error completion (R115 to R117). -/
theorem exec_completes {i : Instr} {s t : State} (h : exec i s = .next t) :
    (∃ padbad, Completes padbad s t) ∨ ∃ e info, t = raiseErr e info s := by
  obtain ⟨cs, effect, he, hc⟩ := exec_shape i s
  rcases conclude_cases (he.symm.trans h) with ⟨-, rfl⟩ | ⟨e, info, -, rfl⟩
  · exact .inl hc
  · exact .inr ⟨e, info, rfl⟩

/-- `s` after the completion of `i` in `t`: the registers the command may change (R22, last column), the completion fields and,
where the command writes it, memory are those of `t`, and all else is that of `s`. -/
def withWritten (i : Instr) (s t : State) : State :=
  let s := { s with status := t.status, errinfo := t.errinfo }
  match i with
  | .nop => s
  | .teaEnc | .teaDec | .blkLd => { s with v0 := t.v0, v1 := t.v1 }
  | .teaErnd _ | .teaDrnd _ => { s with v0 := t.v0, v1 := t.v1, sum := t.sum }
  | .zero => { s with v0 := t.v0, v1 := t.v1, sum := t.sum, k0 := t.k0, k1 := t.k1, k2 := t.k2, k3 := t.k3 }
  | .keyLd => { s with k0 := t.k0, k1 := t.k1, k2 := t.k2, k3 := t.k3 }
  | .wLd => { s with v0 := t.v0 }
  | .blkSt | .wSt => { s with mem := t.mem }
  | .unpad | .lsbCap => { s with result := t.result }
  | .pad | .ecbEnc | .ecbDec | .msgEnc | .msgDec | .frWrap | .lsbEmbed | .lsbExtract | .metHist =>
    { s with result := t.result, mem := t.mem }
  | .frUnwrap => { s with result := t.result, raddr := t.raddr }
  | .metDiff => { s with result := t.result, metrics := t.metrics }

/-- The effect of each command changes only what the command's rows of R22 and R287 list. -/
theorem exec_effect (i : Instr) (s : State) :
    ∃ cs effect, exec i s = conclude cs effect s ∧ effect s = withWritten i s (effect s) := by
  cases i
  all_goals
    dsimp only [exec, execNop, execTeaEnc, execTeaDec, execTeaErnd, execTeaDrnd, execZero, execKeyLd, execBlkLd, execBlkSt, execWLd,
      execWSt, execPad, execUnpad, execEcbEnc, execEcbDec, execMsgEnc, execMsgDec, execFrWrap, execFrUnwrap, execLsbCap,
      execLsbEmbed, execLsbExtract, execMetDiff, execMetHist]
    refine ⟨_, _, rfl, ?_⟩
    dsimp only [withWritten, complete]

/-- A command changes only what its rows of R22 and R287 list. -/
theorem exec_withWritten {i : Instr} {s t : State} (h : exec i s = .next t) : t = withWritten i s t := by
  obtain ⟨cs, effect, he, hw⟩ := exec_effect i s
  rcases conclude_cases (he.symm.trans h) with ⟨-, rfl⟩ | ⟨e, info, -, rfl⟩
  · exact hw
  · cases i <;> rfl

/-! ## The last column of R22, register by register -/

theorem withWritten_v0 (i : Instr) (s t : State) : (withWritten i s t).v0 =
    if mnemonic i ∈ ["TEA_ENC", "TEA_DEC", "TEA_ERND", "TEA_DRND", "ZERO", "BLK_LD", "W_LD"] then t.v0 else s.v0 := by
  cases i <;> rfl

theorem withWritten_v1 (i : Instr) (s t : State) : (withWritten i s t).v1 =
    if mnemonic i ∈ ["TEA_ENC", "TEA_DEC", "TEA_ERND", "TEA_DRND", "ZERO", "BLK_LD"] then t.v1 else s.v1 := by
  cases i <;> rfl

theorem withWritten_sum (i : Instr) (s t : State) : (withWritten i s t).sum =
    if mnemonic i ∈ ["TEA_ERND", "TEA_DRND", "ZERO"] then t.sum else s.sum := by
  cases i <;> rfl

theorem keyOf_withWritten (i : Instr) (s t : State) : keyOf (withWritten i s t) =
    if mnemonic i ∈ ["KEY_LD", "ZERO"] then keyOf t else keyOf s := by
  cases i <;> rfl

theorem withWritten_result (i : Instr) (s t : State) : (withWritten i s t).result =
    if mnemonic i ∈ ["PAD", "UNPAD", "ECB_ENC", "ECB_DEC", "MSG_ENC", "MSG_DEC", "FR_WRAP", "FR_UNWRAP", "LSB_CAP", "LSB_EMBED",
      "LSB_EXTRACT", "MET_DIFF", "MET_HIST"] then t.result else s.result := by
  cases i <;> rfl

theorem withWritten_raddr (i : Instr) (s t : State) : (withWritten i s t).raddr =
    if mnemonic i ∈ ["FR_UNWRAP"] then t.raddr else s.raddr := by
  cases i <;> rfl

theorem withWritten_metrics (i : Instr) (s t : State) : (withWritten i s t).metrics =
    if mnemonic i ∈ ["MET_DIFF"] then t.metrics else s.metrics := by
  cases i <;> rfl

/-- A register a command changes is one the command may write: read off its clause of R22's last column. -/
theorem exec_changed {α : Type} (reg : State → α) {i : Instr} {s t : State} {p : Prop} [Decidable p] (h : exec i s = .next t)
    (hw : reg (withWritten i s t) = if p then reg t else reg s) (hne : reg t ≠ reg s) : p :=
  by_contra fun hp => hne ((congrArg reg (exec_withWritten h)).trans (hw.trans (if_neg hp)))

/-- Settles O11: what a command changes is what `withWritten` takes from its outcome. -/
theorem registersWrittenByCommands : Obligations.RegistersWrittenByCommands := by
  intro i s t h
  exact ⟨exec_changed State.v0 h (withWritten_v0 i s t), exec_changed State.v1 h (withWritten_v1 i s t),
    exec_changed State.sum h (withWritten_sum i s t), exec_changed keyOf h (keyOf_withWritten i s t),
    exec_changed State.result h (withWritten_result i s t), exec_changed State.raddr h (withWritten_raddr i s t),
    exec_changed State.metrics h (withWritten_metrics i s t)⟩

/-- Settles O14: a sound busy block has DONE clear, and every completion sets DONE and keeps IE. -/
theorem interruptFollowsCompletion : Obligations.InterruptFollowsCompletion := by
  refine ⟨fun s => by simp [State.irq], fun s hs hb => ?_, fun i s t h => ?_⟩
  · obtain ⟨hdone, -, -⟩ := hs.busyClean hb
    simp [State.irq, hdone]
  · rcases exec_completes h with ⟨padbad, hc⟩ | ⟨e, info, rfl⟩
    · simp [State.irq, hc.status, hc.ctrlIE]
    · simp [State.irq]

end Sys2Proof.Proofs
end

section
/-! SUPPORT. The two invariants of every step: the sound state, and the bounds of the accumulators (`10_state.md` R24, R34, R35;
`20_memory.md` R60). -/

namespace Sys2Proof.Proofs

open Sys2Proof.Machine Sys2Proof.Laws

/-! ## Memory stays canonical and inside its address space -/

theorem exec_mem_wf {i : Instr} {s t : State} (h : exec i s = .next t) (hw : Memory.wf s.mem = true) : Memory.wf t.mem = true := by
  rcases exec_memory h with hm | ⟨a, bs, hm, -⟩ | ⟨base, l, is, hm, -⟩ <;> rw [hm]
  · exact hw
  · exact writeBytes_wf _ a bs hw
  · exact embedBits_wf base l is _ hw

theorem exec_mem_inside {i : Instr} {s t : State} (h : exec i s = .next t) (hin : Memory.inside s.plat s.mem = true) :
    Memory.inside s.plat t.mem = true := by
  rcases exec_memory h with hm | ⟨a, bs, hm, ha⟩ | ⟨base, l, is, hm, hi⟩ <;> rw [hm]
  · exact hin
  · exact writeBytes_inside _ _ a bs hin ha
  · exact embedBits_inside _ base l is _ hin hi

/-- An abort leaves memory as it was, or, for a command that would succeed, with some bytes of its outcome written over the ranges
it may write (R282). -/
theorem abortMemory_cases (s : State) : (abortMemory s).1 = s.mem
    ∨ ∃ i t, decode s.cmd = .ok i ∧ exec i s = .next t ∧ t.status.err = false
        ∧ (abortMemory s).1 = (abortRanges t.mem (writeRanges i s) (s.mem, s.draws)).1 := by
  unfold abortMemory
  split
  · exact .inl rfl
  · next i hi =>
    split
    · next t ht =>
      split
      · exact .inl rfl
      · next herr => exact .inr ⟨i, t, hi, ht, by simpa using herr, rfl⟩
    all_goals exact .inl rfl

/-- A reset touches memory only by the abort of a command in flight (R280). -/
theorem hardReset_mem (s : State) : (hardReset s).mem = if s.status.busy then (abortMemory s).1 else s.mem := by
  change (abort s).mem = _
  unfold abort
  split <;> rfl

/-- What a reset can do to memory: nothing, or the abort of a command in flight that would succeed (R280, R282). -/
theorem hardReset_mem_cases (s : State) : (hardReset s).mem = s.mem
    ∨ s.status.busy = true ∧ ∃ i t, decode s.cmd = .ok i ∧ exec i s = .next t ∧ t.status.err = false
        ∧ (hardReset s).mem = (abortRanges t.mem (writeRanges i s) (s.mem, s.draws)).1 := by
  rw [hardReset_mem]
  split
  · next hb => exact (abortMemory_cases s).imp_right fun h => ⟨hb, h⟩
  · exact .inl rfl

theorem hardReset_mem_wf {s : State} (hw : Memory.wf s.mem = true) : Memory.wf (hardReset s).mem = true := by
  rcases hardReset_mem_cases s with h | ⟨-, i, t, -, -, -, h⟩ <;> rw [h]
  · exact hw
  · exact abortRanges_wf _ _ _ hw

theorem hardReset_mem_inside {s : State} (hin : Memory.inside s.plat s.mem = true) :
    Memory.inside s.plat (hardReset s).mem = true := by
  rcases hardReset_mem_cases s with h | ⟨-, i, t, -, ht, -, h⟩ <;> rw [h]
  · exact hin
  · exact abortRanges_inside _ _ _ _ hin (exec_mem_inside ht hin)

theorem hardReset_plat (s : State) : (hardReset s).plat = s.plat := by
  change (abort s).plat = s.plat
  rw [abort_frame]

theorem hardReset_status (s : State) : (hardReset s).status = Status.reset := rfl

theorem hardReset_errinfo (s : State) : (hardReset s).errinfo = 0#32 := rfl

/-! ## The sound state -/

/-- Soundness reads the platform, memory, STATUS and ERRINFO alone. -/
theorem inv_congr {s t : State} (h : s.Inv) (hplat : t.plat = s.plat) (hmem : t.mem = s.mem) (hstatus : t.status = s.status)
    (herrinfo : t.errinfo = s.errinfo) : t.Inv := by
  obtain ⟨h1, h2, h3, h4, h5, h6, h7⟩ := h
  constructor <;> simpa only [hplat, hmem, hstatus, herrinfo]

/-- A successful completion shows no error and no detail (R116). -/
theorem inv_of_completes {s t : State} {padbad : Bool} (h : s.Inv) (hc : Completes padbad s t) (hwf : Memory.wf t.mem = true)
    (hinside : Memory.inside s.plat t.mem = true) : t.Inv where
  platform := hc.plat ▸ h.platform
  canonical := hwf
  inside := hc.plat ▸ hinside
  knownCode := by simp [hc.status]
  busyClean := by simp [hc.status]
  padNoError := by simp [hc.status]
  quietDetail := fun _ _ => hc.errinfo

/-- An error completion shows one of the block's codes and no PADBAD (R117, R250). -/
theorem inv_raiseErr {s : State} (h : s.Inv) (e : ErrCode) (info : Word) : (raiseErr e info s).Inv :=
  { h with
    knownCode := (errCodeBits_range e).2
    busyClean := by simp
    padNoError := by simp
    quietDetail := fun _ hc => absurd hc (errCodeBits_range e).1 }

theorem inv_exec {i : Instr} {s t : State} (h : s.Inv) (ht : exec i s = .next t) : t.Inv := by
  rcases exec_completes ht with ⟨padbad, hc⟩ | ⟨e, info, rfl⟩
  · exact inv_of_completes h hc (exec_mem_wf ht h.canonical) (exec_mem_inside ht h.inside)
  · exact inv_raiseErr h e info

/-- Issue hides the last outcome (R113). -/
theorem inv_issue {s : State} (h : s.Inv) (w : Word) : (issue w s).Inv :=
  { h with knownCode := by simp, busyClean := by simp, padNoError := by simp, quietDetail := by simp }

/-- A write of ones to STATUS can clear DONE and WERR alone (R111). -/
theorem inv_writeOneClear {s : State} (h : s.Inv) (v : Word) : State.Inv { s with status := s.status.writeOneClear v } :=
  { h with
    busyClean := fun hb => by
      obtain ⟨hdone, hpad, hcode⟩ := h.busyClean hb
      exact ⟨by simp [Status.writeOneClear, hdone], hpad, hcode⟩ }

theorem inv_refusedWrite {s : State} (h : s.Inv) : State.Inv { s with status := s.status.refusedWrite } :=
  { h with busyClean := h.busyClean }

theorem inv_setOperand {s : State} (h : s.Inv) (r : Reg) (v : Word) : (setOperand r v s).Inv := by
  apply inv_congr h <;> cases r <;> rfl

theorem inv_store {s : State} (h : s.Inv) (a : Nat) (bs : List Byte) (hin : bs = [] ∨ a + bs.length ≤ s.plat.memSize) :
    State.Inv { s with mem := writeBytes s.mem a bs } :=
  { h with
    canonical := writeBytes_wf _ a bs h.canonical
    inside := writeBytes_inside _ _ a bs h.inside hin }

theorem inv_hardReset {s : State} (h : s.Inv) : (hardReset s).Inv where
  platform := hardReset_plat s ▸ h.platform
  canonical := hardReset_mem_wf h.canonical
  inside := hardReset_plat s ▸ hardReset_mem_inside h.inside
  knownCode := by simp [hardReset_status, Status.reset]
  busyClean := by simp [hardReset_status, Status.reset]
  padNoError := fun _ => rfl
  quietDetail := fun _ _ => hardReset_errinfo s

theorem inv_stepClosed : StepClosed State.Inv where
  agents h _ _ _ := inv_congr h rfl rfl rfl rfl
  setIE h _ := inv_congr h rfl rfl rfl rfl
  writeOneClear := inv_writeOneClear
  refusedWrite := inv_refusedWrite
  issue := inv_issue
  setOperand := inv_setOperand
  store := inv_store
  exec := inv_exec
  raiseErr := inv_raiseErr
  hardReset := inv_hardReset

/-- Settles O59: every change a turn can make keeps soundness, so every step does. -/
theorem stepKeepsStatesSound : Obligations.StepKeepsStatesSound :=
  fun _ _ hs h => inv_stepClosed.step hs h

/-! ## The bounds of the accumulators -/

/-- A sum over three channels of terms that are at most `b` (R35). -/
theorem sumChannels_le (m : Memory) (x y p : Nat) (f : Byte → Byte → Nat) (b : Nat) (h : ∀ u v, f u v ≤ b) :
    sumChannels m x y p f ≤ (b + b + b) * p :=
  sumPixels_le p _ _ fun _ => add_le_add (add_le_add (h _ _) (h _ _)) (h _ _)

theorem pixelLum_le (m : Memory) (base i : Nat) : pixelLum m base i ≤ 255 := lum_le _ _ _

/-- A number taken into a word is at most itself. -/
theorem toNat_ofNat_le {w n b : Nat} (h : n ≤ b) : (BitVec.ofNat w n).toNat ≤ b := by
  rw [BitVec.toNat_ofNat]; exact (Nat.mod_le _ _).trans h

/-- The accumulators of `p` pixels keep the bounds of R35 for `p`. -/
theorem diffMetrics_within (m : Memory) (a b p : Nat) : (diffMetrics m a b p).Within p where
  biterr := toNat_ofNat_le (sumChannels_le m a b p _ 8 fun _ _ => popcount8_le _)
  chgpix := toNat_ofNat_le ((sumPixels_le p _ 1 fun _ => Bool.toNat_le _).trans (Nat.one_mul p).le)
  absdiff := toNat_ofNat_le (sumChannels_le m a b p _ 255 channelDiff_le)
  sqdiff := toNat_ofNat_le (sumChannels_le m a b p _ (255 ^ 2) fun u v => Nat.pow_le_pow_left (channelDiff_le u v) 2)
  la := toNat_ofNat_le (sumPixels_le p _ 255 (pixelLum_le m a))
  lb := toNat_ofNat_le (sumPixels_le p _ 255 (pixelLum_le m b))
  lalb := toNat_ofNat_le (sumPixels_le p _ (255 * 255) fun i => Nat.mul_le_mul (pixelLum_le m a i) (pixelLum_le m b i))
  la2 := toNat_ofNat_le (sumPixels_le p _ (255 ^ 2) fun i => Nat.pow_le_pow_left (pixelLum_le m a i) 2)
  lb2 := toNat_ofNat_le (sumPixels_le p _ (255 ^ 2) fun i => Nat.pow_le_pow_left (pixelLum_le m b i) 2)

/-- The bounds for fewer pixels are within those for more. -/
theorem within_mono {m : Metrics} {p q : Nat} (h : m.Within p) (hpq : p ≤ q) : m.Within q := by
  obtain ⟨h1, h2, h3, h4, h5, h6, h7, h8, h9⟩ := h
  constructor <;> omega

theorem reset_within (p : Nat) : Metrics.reset.Within p := by
  constructor <;> exact Nat.zero_le _

/-- A command leaves the accumulators alone, or it is MET_DIFF and they are the sums over its two buffers (R22, R231). -/
theorem exec_metrics {i : Instr} {s t : State} (h : exec i s = .next t) :
    t.metrics = s.metrics ∨ t.metrics = diffMetrics s.mem s.src.toNat s.dst.toNat s.pixcnt.toNat := by
  by_cases hi : i = .metDiff
  · subst hi
    simp only [exec_metDiff, execMetDiff] at h
    rcases conclude_cases h with ⟨-, rfl⟩ | ⟨e, info, -, rfl⟩
    · exact .inr rfl
    · exact .inl rfl
  · refine .inl ((congrArg State.metrics (exec_withWritten h)).trans ?_)
    cases i
    case metDiff => exact absurd rfl hi
    all_goals rfl

/-- The bounds of R35 for every PIXCNT. -/
def MetricsBounded (s : State) : Prop := s.metrics.Within (2 ^ 32 - 1)

theorem metricsBounded_exec {i : Instr} {s t : State} (h : MetricsBounded s) (ht : exec i s = .next t) : MetricsBounded t := by
  unfold MetricsBounded
  rcases exec_metrics ht with hm | hm <;> rw [hm]
  · exact h
  · exact within_mono (diffMetrics_within _ _ _ _) (Nat.le_sub_one_of_lt s.pixcnt.isLt)

theorem metricsBounded_stepClosed : StepClosed MetricsBounded where
  agents h _ _ _ := h
  setIE h _ := h
  writeOneClear h _ := h
  refusedWrite h := h
  issue h _ := h
  setOperand h r _ := by cases r <;> exact h
  store h _ _ _ := h
  exec := metricsBounded_exec
  raiseErr h _ _ := h
  hardReset _ := reset_within _

/-- Settles O60: MET_DIFF alone changes the accumulators, to sums of at most 2^32 - 1 bounded terms, and a reset clears them. -/
theorem stepKeepsAccumulatorBounds : Obligations.StepKeepsAccumulatorBounds :=
  fun _ _ hs h => metricsBounded_stepClosed.step hs h

/-! ## The registers after a reset -/

theorem ctrlWord_false : ctrlWord false = 0#32 := by decide

theorem toWord_reset : Status.reset.toWord = 0#32 := by decide

theorem lowHalf_zero : lowHalf 0#64 = 0#32 := by decide

theorem highHalf_zero : highHalf 0#64 = 0#32 := by decide

/-- Every register of the block reads its reset value after a reset (R22, R280). -/
theorem value_resetRegisters (r : Reg) (s : State) : r.value (resetRegisters s) = if r = .id then idValue else 0#32 := by
  cases r <;>
    simp [Reg.value, resetRegisters, State.powerOn, Metrics.reset, ctrlWord_false, toWord_reset, lowHalf_zero, highHalf_zero]

/-- A read of an idle block gives the register's value (R110). -/
theorem hostReadReg_idle {s : State} (h : s.status.busy = false) (r : Reg) : hostReadReg (some r) s = (r.value s, s) := by
  simp [hostReadReg, h]

/-- Settles O55: the reset state is idle, and its registers are those a reset leaves. -/
theorem resetRegisterValues : Obligations.ResetRegisterValues := by
  refine ⟨fun r => ?_, rfl⟩
  rw [hostReadReg_idle rfl]
  exact value_resetRegisters r State.reset

end Sys2Proof.Proofs
end

section
/-! SUPPORT. The host's side of memory: the register window, a buffer access against the footprint in flight, and the range check
(`20_memory.md` R60, R61, R64, R69; `70_reset_and_hazards.md` R286, R287). -/

namespace Sys2Proof.Proofs

open Sys2Proof.Machine Sys2Proof.Laws Sys2Proof.Spec

/-! ## The range check that fails -/

theorem checkRange_eq_false {s : State} {a n : Nat} (h : ¬ Fits s a n) : checkRange s.plat a n = false := by
  rwa [← Bool.not_eq_true, checkRange_iff]

/-- A range check that fails is the error the command ends in (R64, R117, R252). -/
theorem conclude_rangeCheck_fail {s : State} {a : Word} {n : Nat} {cs : List (Option Err)} {effect : State → State}
    (h : ¬ Fits s a.toNat n) : conclude (rangeCheck s a n :: cs) effect s = .next (afterError 0x02#8 a s) := by
  have hc : rangeCheck s a n = some (.range, a) := by simp [rangeCheck, checkRange_eq_false h]
  exact conclude_fail hc

/-- Settles O33: each of the seven commands makes one range check, and its failure is the command's end. -/
theorem singleRangeErrors : Obligations.SingleRangeErrors := by
  intro s
  simp only [exec_keyLd, execKeyLd, exec_blkLd, execBlkLd, exec_wLd, execWLd, exec_unpad, execUnpad, exec_blkSt, execBlkSt,
    exec_wSt, execWSt, exec_pad, execPad]
  exact ⟨conclude_rangeCheck_fail, conclude_rangeCheck_fail, conclude_rangeCheck_fail, conclude_rangeCheck_fail,
    conclude_rangeCheck_fail, conclude_rangeCheck_fail, conclude_rangeCheck_fail⟩

/-! ## The register window -/

/-- The map of the window gives each register the offset the model gives it (R22). -/
theorem windowMap_offset {o : Nat} {r : Reg} (h : (o, r) ∈ windowMap) : o = r.offset := by
  have hall : ∀ e ∈ windowMap, e.1 = e.2.offset := by decide
  exact hall _ h

/-- Every register is an aligned word of the window (R22). -/
theorem offset_aligned (r : Reg) : r.offset % 4 = 0 ∧ r.offset < 256 := by
  cases r <;> decide

/-- A register is found at no offset but its own (R22). -/
theorem eq_offset_of_regAt {o : Nat} {r : Reg} (h : regAt o = some r) : o = r.offset := by
  unfold regAt at h
  split at h <;> cases h <;> rfl

/-- No register stands at a reserved offset (R22). -/
theorem regAt_reserved {o : Nat} (h : ReservedOffset o) : regAt o = none := by
  refine Option.eq_none_iff_forall_ne_some.2 fun r hr => ?_
  obtain rfl := eq_offset_of_regAt hr
  revert h
  cases r <;> decide

theorem busTarget_offset (p : Platform) (r : Reg) : busTarget p (p.regBase + r.offset) 4 = .register (some r) := by
  obtain ⟨h4, hlt⟩ := offset_aligned r
  rw [busTarget_word p _ h4 hlt, regAt_offset]

theorem busTarget_reserved (p : Platform) {o : Nat} (h : ReservedOffset o) :
    busTarget p (p.regBase + o) 4 = .register none := by
  rw [busTarget_word p o (by omega) (by omega), regAt_reserved h]

/-- An access that touches the window and is no aligned word of it is a bus error (R61). -/
theorem busTarget_busError {p : Platform} {addr width : Nat} (hs : Shares addr width p.regBase 256)
    (hbad : width ≠ 4 ∨ ∀ j < 64, addr ≠ p.regBase + 4 * j) : busTarget p addr width = .busError := by
  have hword : ¬ (width = 4 ∧ p.regBase ≤ addr ∧ (addr - p.regBase) % 4 = 0) := by
    rintro ⟨hw, hle, h4⟩
    rcases hbad with hw' | hj
    · exact hw' hw
    · exact hj ((addr - p.regBase) / 4) (by omega) (by omega)
  have ho : overlap addr width p.regBase windowBytes = true := (overlap_iff _ _ _ _).2 hs
  rw [busTarget, if_pos ho, if_neg hword]

theorem busWrite_register {addr width : Nat} {r : Option Reg} {s : State} (h : busTarget s.plat addr width = .register r)
    (v : Word) : busWrite addr width v s = .next (hostWriteReg r v s) := by
  simp [busWrite, h]

theorem busRead_register {addr width : Nat} {r : Option Reg} {s : State} (h : busTarget s.plat addr width = .register r)
    (k : Word → State → State) :
    busRead addr width k s = .next (k (hostReadReg r s).1 (hostReadReg r s).2) := by
  simp [busRead, h]

theorem busWrite_busError {addr width : Nat} {s : State} (h : busTarget s.plat addr width = .busError) (v : Word) :
    busWrite addr width v s = .fault .registerAccess := by
  simp [busWrite, h]

theorem busRead_busError {addr width : Nat} {s : State} (h : busTarget s.plat addr width = .busError)
    (k : Word → State → State) : busRead addr width k s = .fault .registerAccess := by
  simp [busRead, h]

/-- Settles O19: where an access goes (`busTarget`) decides what it does. -/
theorem busAccessesAreAlignedWords : Obligations.BusAccessesAreAlignedWords := by
  intro s v k
  refine ⟨fun o r hor => ?_, fun o ho => ?_, fun addr width hs hbad => ?_⟩
  · obtain rfl := windowMap_offset hor
    have ht := busTarget_offset s.plat r
    exact ⟨busWrite_register ht v, busRead_register ht k⟩
  · have ht := busTarget_reserved s.plat ho
    exact ⟨busWrite_register ht v, busRead_register ht k⟩
  · have ht := busTarget_busError hs hbad
    exact ⟨busWrite_busError ht v, busRead_busError ht k⟩

/-! ## The footprint -/

/-- The model's read ranges are the table's (R287). -/
theorem readRanges_hold_iff (i : Instr) (s : State) (x : Nat) :
    (∃ r ∈ readRanges i s, r.holds x = true) ↔ ReadsAt s x i := by
  cases i <;> simp [readRanges, ReadsAt, keyLength]

/-- The model's write ranges are the table's (R287). -/
theorem writeRanges_hold_iff (i : Instr) (s : State) (x : Nat) :
    (∃ r ∈ writeRanges i s, r.holds x = true) ↔ WritesAt s x i := by
  cases i
  case msgEnc => simp [writeRanges, WritesAt, paddedLength_eq, padLength]
  case frWrap => simp [writeRanges, WritesAt, wrapInPlace]
  case lsbExtract => by_cases h : 32 ≤ 3 * s.pixcnt.toNat <;> simp [writeRanges, WritesAt, availBytes, h]
  all_goals simp [writeRanges, WritesAt, padLength]

theorem footprint_idle {s : State} (h : s.status.busy = false) : footprint s = [] := by
  simp [footprint, h]

theorem footprint_busy {s : State} {i : Instr} (hb : s.status.busy = true) (hi : decode s.cmd = .ok i) :
    footprint s = readRanges i s ++ writeRanges i s := by
  simp [footprint, hb, hi]

/-- An illegal word in flight has no footprint (R96). -/
theorem footprint_illegal {s : State} (h : ∀ i, decode s.cmd ≠ .ok i) : footprint s = [] := by
  unfold footprint
  split
  · split
    · next i hi => exact absurd hi (h i)
    · rfl
  · rfl

theorem hazard_iff (s : State) (x : Nat) : hazard s x = true ↔ ∃ r ∈ footprint s, r.holds x = true := by
  simp [hazard]

/-- The host keeps off what the command in flight reads and writes (R286, R287). -/
theorem hazard_busy_iff {s : State} {i : Instr} (hb : s.status.busy = true) (hi : decode s.cmd = .ok i) (x : Nat) :
    hazard s x = true ↔ ReadsAt s x i ∨ WritesAt s x i := by
  simp only [hazard_iff, footprint_busy hb hi, List.mem_append, or_and_right, exists_or, readRanges_hold_iff,
    writeRanges_hold_iff]

theorem hazard_eq_false {s : State} (h : s.status.busy = false ∨ ∀ i, decode s.cmd ≠ .ok i) (x : Nat) :
    hazard s x = false := by
  have hf : footprint s = [] := h.elim footprint_idle footprint_illegal
  simp [hazard, hf]

/-- Two ranges overlap exactly when they share an address (R65). -/
theorem overlap_iff_exists (a n : Nat) (r : Range) :
    overlap a n r.start r.size = true ↔ ∃ x, a ≤ x ∧ x < a + n ∧ r.holds x = true := by
  simp only [overlap_iff, holds_iff]
  constructor
  · intro h
    exact ⟨max a r.start, by omega, by omega, by omega, by omega⟩
  · rintro ⟨x, h⟩
    omega

/-- An access overlaps a range of the footprint exactly when one of its bytes is hazardous (R286). -/
theorem overlaps_footprint_iff (s : State) (a n : Nat) :
    (∃ r ∈ footprint s, overlap a n r.start r.size = true) ↔ ∃ x, a ≤ x ∧ x < a + n ∧ hazard s x = true := by
  simp only [overlap_iff_exists, hazard_iff]
  constructor
  · rintro ⟨r, hr, x, hle, hlt, hx⟩
    exact ⟨x, hle, hlt, r, hr, hx⟩
  · rintro ⟨x, hle, hlt, r, hr, hx⟩
    exact ⟨r, hr, x, hle, hlt, hx⟩

/-! ## Buffer accesses -/

/-- A byte that does not exist faults first (R60). -/
theorem hostAccessFault_noSuchAddress {s : State} {a n : Nat} (h : ¬ Fits s a n) :
    hostAccessFault s a n = some .noSuchAddress := by
  simp [hostAccessFault, checkRange_eq_false h]

/-- A hazardous byte of an access whose bytes exist is a host fault (R286). -/
theorem hostAccessFault_hazard {s : State} {a n : Nat} (h : Fits s a n) (hx : ∃ x, a ≤ x ∧ x < a + n ∧ hazard s x = true) :
    hostAccessFault s a n = some .footprintHazard := by
  have hfits : checkRange s.plat a n = true := (checkRange_iff _ _ _).2 h
  have hany : ((footprint s).any fun r => overlap a n r.start r.size) = true :=
    List.any_eq_true.2 ((overlaps_footprint_iff s a n).2 hx)
  simp only [hostAccessFault, hfits, hany, Bool.not_true, Bool.false_eq_true, if_true, if_false]

/-- An access whose bytes all exist and none is hazardous goes through (R60, R286). -/
theorem hostAccessFault_none {s : State} {a n : Nat} (h : Fits s a n) (hx : ∀ x, a ≤ x → x < a + n → hazard s x = false) :
    hostAccessFault s a n = none := by
  refine (hostAccessFault_eq_none s a n).2 ⟨h, fun r hr => Bool.eq_false_iff.2 fun ho => ?_⟩
  obtain ⟨x, hle, hlt, hxt⟩ := (overlaps_footprint_iff s a n).1 ⟨r, hr, ho⟩
  exact Bool.eq_false_iff.1 (hx x hle hlt) hxt

/-- A store and a load of the same bytes fault alike. -/
theorem hostStore_hostLoad_fault {s : State} {a : Nat} {bs : List Byte} {f : Fault}
    (h : hostAccessFault s a bs.length = some f) (k : List Byte → State → State) :
    hostStore a bs s = .fault f ∧ hostLoad a bs.length k s = .fault f := by
  simp [hostStore, hostLoad, h]

theorem hostStore_none {s : State} {a : Nat} {bs : List Byte} (h : hostAccessFault s a bs.length = none) :
    hostStore a bs s = .next { s with mem := writeBytes s.mem a bs } := by
  simp [hostStore, h]

theorem hostLoad_none {s : State} {a n : Nat} (h : hostAccessFault s a n = none) (k : List Byte → State → State) :
    hostLoad a n k s = .next (k (readBytes s.mem a n) s) := by
  simp [hostLoad, h]

/-- Settles O20: the footprint is the table's, and `hostAccessFault` decides an access by its bytes. -/
theorem hostMemoryAccesses : Obligations.HostMemoryAccesses := by
  intro s a bs k hwf
  refine ⟨fun i x => ⟨readRanges_hold_iff i s x, writeRanges_hold_iff i s x⟩, fun i x hb hi => hazard_busy_iff hb hi x,
    fun x h => hazard_eq_false h x, fun hfits => ?_, fun hfits hx => ?_, fun hfits hx => ?_⟩
  · exact hostStore_hostLoad_fault (hostAccessFault_noSuchAddress hfits) k
  · exact hostStore_hostLoad_fault (hostAccessFault_hazard hfits hx) k
  · have hnone := hostAccessFault_none hfits hx
    refine ⟨⟨_, hostStore_none hnone, fun i hi => ?_, fun x hx => read_writeBytes_out _ _ _ _ hwf hx⟩,
      _, length_readBytes .., fun i hi => getD_readBytes _ _ _ _ hi, hostLoad_none hnone k⟩
    rw [read_writeBytes_at _ _ _ _ hwf hi, List.getD_eq_getElem _ _ hi]

end Sys2Proof.Proofs
end

section
/-! SUPPORT. The fields of a command word: the encoder, the decoder and the rows of the opcode table each say what the fields of a
word are (`30_encoding.md` R90 to R96). -/

namespace Sys2Proof.Proofs

open Sys2Proof.Machine Sys2Proof.Laws Sys2Proof.Spec

/-! ## A word and its fields -/

theorem append_eq_append_iff {v w : Nat} {a a' : BitVec v} {b b' : BitVec w} : a ++ b = a' ++ b' ↔ a = a' ∧ b = b' := by
  refine ⟨fun h => ⟨?_, ?_⟩, fun ⟨ha, hb⟩ => ha ▸ hb ▸ rfl⟩
  · rw [← BitVec.extractLsb'_append_eq_left (a := a) (b := b), h, BitVec.extractLsb'_append_eq_left]
  · rw [← BitVec.extractLsb'_append_eq_right (a := a) (b := b), h, BitVec.extractLsb'_append_eq_right]

/-- The bits 31:8 that a format-N command keeps zero are the bits 31:13 and CNT (R90). -/
theorem upper_eq_fields (w : Word) : w.extractLsb' 8 24 = w.extractLsb' 13 19 ++ cntField w :=
  (BitVec.extractLsb'_append_extractLsb'_eq_extractLsb' (start₁ := 8) (len₁ := 5) (len₂ := 19) rfl).symm

/-- A word is its reserved bits, CNT and OPC (R90). -/
theorem word_eq_fields (w : Word) : w = w.extractLsb' 13 19 ++ cntField w ++ opcField w := by
  rw [← upper_eq_fields]
  exact (BitVec.extractLsb'_append_extractLsb'_eq_extractLsb' (start₁ := 0) (len₁ := 8) (len₂ := 24) rfl).trans
    BitVec.extractLsb'_eq_self |>.symm

theorem eq_fields_iff {w : Word} {a : BitVec 19} {c : BitVec 5} {o : Byte} :
    w = a ++ c ++ o ↔ w.extractLsb' 13 19 = a ∧ cntField w = c ∧ opcField w = o := by
  rw [← and_assoc, ← append_eq_append_iff, ← append_eq_append_iff, ← word_eq_fields]

/-! ## Encode and decode -/

theorem eq_encode_iff {w : Word} {i : Instr} :
    w = encode i ↔ w.extractLsb' 13 19 = 0#19 ∧ cntField w = cntOf i ∧ opcField w = opcode i :=
  eq_fields_iff

/-- A format-N command decodes from a word of its opcode only where that word is its encoding (R90). -/
theorem eq_encode_of_decodeN {w : Word} {i j : Instr} (h : decodeN w i = .ok j) (hop : (opcField w).toNat = (opcode i).toNat)
    (hcnt : cntOf i = 0#5) : w = encode j := by
  unfold decodeN at h
  split at h
  · next hz =>
    cases h
    rw [upper_eq_fields] at hz
    obtain ⟨hres, hc⟩ := append_eq_append_iff.1 (hz.trans (show 0#24 = 0#19 ++ 0#5 from rfl))
    exact eq_encode_iff.2 ⟨hres, hc.trans hcnt.symm, BitVec.eq_of_toNat_eq hop⟩
  · cases h

/-- A format-C command decodes from a word of its opcode only where that word is its encoding, CNT included (R90, R92). -/
theorem eq_encode_of_decodeC {w : Word} {mk : BitVec 5 → Instr} {j : Instr} (h : decodeC w mk = .ok j)
    (hop : (opcField w).toNat = (opcode (mk (cntField w))).toNat) (hcnt : cntOf (mk (cntField w)) = cntField w) : w = encode j := by
  unfold decodeC at h
  split at h
  · next hres =>
    cases h
    exact eq_encode_iff.2 ⟨hres, hcnt.symm, BitVec.eq_of_toNat_eq hop⟩
  · cases h

/-- A word that decodes is the encoding of the command: format N, the two commands of format C, and the opcodes not assigned. -/
theorem eq_encode_of_decode {w : Word} {i : Instr} (h : decode w = .ok i) : w = encode i := by
  unfold decode at h
  split at h <;> rename_i hop
  case h_4 | h_5 => exact eq_encode_of_decodeC h hop rfl
  case h_25 => cases h
  all_goals exact eq_encode_of_decodeN h hop rfl

/-- Every command decodes from its encoding (R90, R92, R94). -/
theorem decode_encode (i : Instr) : decode (encode i) = .ok i := by
  cases i
  exacts [RoundTrip.nop, RoundTrip.teaEnc, RoundTrip.teaDec, RoundTrip.teaErnd _, RoundTrip.teaDrnd _, RoundTrip.zero,
    RoundTrip.keyLd, RoundTrip.blkLd, RoundTrip.blkSt, RoundTrip.wLd, RoundTrip.wSt, RoundTrip.pad, RoundTrip.unpad,
    RoundTrip.ecbEnc, RoundTrip.ecbDec, RoundTrip.msgEnc, RoundTrip.msgDec, RoundTrip.frWrap, RoundTrip.frUnwrap,
    RoundTrip.lsbCap, RoundTrip.lsbEmbed, RoundTrip.lsbExtract, RoundTrip.metDiff, RoundTrip.metHist]

/-- Settles O2: the fields of a word that decodes are those of the encoding, and each encoding decodes. -/
theorem decodeEncodeAgree : Obligations.DecodeEncodeAgree := by
  intro w i
  exact ⟨eq_encode_of_decode, fun h => h ▸ decode_encode i⟩

/-- Settles O1: each of the thirteen words is evaluated. -/
theorem listedWordsDecode : Obligations.ListedWordsDecode := by
  unfold Obligations.ListedWordsDecode
  decide

/-! ## The rows of the opcode table -/

/-- The bits of CNT that a command's row of the table looks at: none for format C, else all (R90, R92). -/
def cntMask (i : Instr) : BitVec 5 := if formatC i then 0#5 else BitVec.allOnes 5

/-- The row of the table for a command, field by field (R94, R95). -/
def rowOf (i : Instr) : OpcodeRow :=
  ⟨mnemonic i, BitVec.allOnes 19 ++ cntMask i ++ BitVec.allOnes 8, 0#19 ++ 0#5 ++ opcode i⟩

/-- One command of each row of the table, in its order. -/
def rowCommands : List Instr :=
  [.nop, .teaEnc, .teaDec, .teaErnd 0, .teaDrnd 0, .zero, .keyLd, .blkLd, .blkSt, .wLd, .wSt, .pad, .unpad, .ecbEnc, .ecbDec,
   .msgEnc, .msgDec, .frWrap, .frUnwrap, .lsbCap, .lsbEmbed, .lsbExtract, .metDiff, .metHist]

/-- The rows of the table are the rows of the commands (R94, R95). -/
theorem opcodeRows_eq : opcodeRows = rowCommands.map rowOf := by decide

theorem rowOf_mem (i : Instr) : rowOf i ∈ opcodeRows := by
  rw [opcodeRows_eq, List.mem_map]
  cases i
  case teaErnd cnt => exact ⟨.teaErnd 0, by decide, rfl⟩
  case teaDrnd cnt => exact ⟨.teaDrnd 0, by decide, rfl⟩
  all_goals exact ⟨_, by decide, rfl⟩

/-- A mnemonic stands in one row of the table (R94). -/
theorem row_eq_of_mnemonic {r r' : OpcodeRow} (hr : r ∈ opcodeRows) (hr' : r' ∈ opcodeRows) (h : r.mnemonic = r'.mnemonic) :
    r = r' :=
  List.inj_on_of_nodup_map (f := OpcodeRow.mnemonic) (by decide) hr hr' h

/-- A mask that looks at all of the reserved bits and of OPC leaves them, and masks CNT. -/
theorem and_mask (w : Word) (m : BitVec 5) :
    w &&& (BitVec.allOnes 19 ++ m ++ BitVec.allOnes 8) = w.extractLsb' 13 19 ++ (cntField w &&& m) ++ opcField w := by
  conv_lhs => rw [word_eq_fields w]
  calc (w.extractLsb' 13 19 ++ cntField w ++ opcField w) &&& (BitVec.allOnes 19 ++ m ++ BitVec.allOnes 8)
      = (w.extractLsb' 13 19 &&& BitVec.allOnes 19) ++ (cntField w &&& m) ++ (opcField w &&& BitVec.allOnes 8) := by
        rw [← BitVec.and_append, ← BitVec.and_append]
    _ = _ := by rw [BitVec.and_allOnes, BitVec.and_allOnes]

/-- What the mask and the match of a row ask of the fields of a word (R95). -/
theorem accepts_rowOf_iff {w : Word} {i : Instr} :
    (rowOf i).accepts w = true ↔ w.extractLsb' 13 19 = 0#19 ∧ cntField w &&& cntMask i = 0#5 ∧ opcField w = opcode i := by
  rw [OpcodeRow.accepts, beq_iff_eq, rowOf, and_mask, append_eq_append_iff, append_eq_append_iff, and_assoc]

/-- A command's row accepts the command's encoding, whatever its CNT. -/
theorem accepts_rowOf_encode (i : Instr) : (rowOf i).accepts (encode i) = true := by
  obtain ⟨hres, hcnt, hop⟩ := eq_encode_iff.1 (rfl : encode i = encode i)
  refine accepts_rowOf_iff.2 ⟨hres, ?_, hop⟩
  rw [hcnt, cntMask]
  cases i <;> simp [formatC, cntOf]

/-- A word a command's row accepts is the encoding of a command of that row: of the command itself in format N, and of the one with
the word's CNT in format C. -/
theorem exists_encode_of_accepts {w : Word} {i : Instr} (h : (rowOf i).accepts w = true) :
    ∃ j, w = encode j ∧ mnemonic j = mnemonic i := by
  obtain ⟨hres, hcnt, hop⟩ := accepts_rowOf_iff.1 h
  cases i
  case teaErnd => exact ⟨.teaErnd (cntField w), eq_encode_iff.2 ⟨hres, rfl, hop⟩, rfl⟩
  case teaDrnd => exact ⟨.teaDrnd (cntField w), eq_encode_iff.2 ⟨hres, rfl, hop⟩, rfl⟩
  all_goals
    refine ⟨_, eq_encode_iff.2 ⟨hres, ?_, hop⟩, rfl⟩
    exact BitVec.and_allOnes.symm.trans hcnt

/-- A row of the table accepts exactly the words that decode to a command of its mnemonic (R95). -/
theorem accepts_iff_decode {w : Word} {r : OpcodeRow} (hr : r ∈ opcodeRows) :
    r.accepts w = true ↔ ∃ i, decode w = .ok i ∧ mnemonic i = r.mnemonic := by
  constructor
  · intro h
    rw [opcodeRows_eq, List.mem_map] at hr
    obtain ⟨i, -, rfl⟩ := hr
    obtain ⟨j, rfl, hj⟩ := exists_encode_of_accepts h
    exact ⟨j, decode_encode j, hj⟩
  · rintro ⟨i, hi, hm⟩
    obtain rfl := eq_encode_of_decode hi
    obtain rfl := row_eq_of_mnemonic (rowOf_mem i) hr hm
    exact accepts_rowOf_encode i

/-- Settles O3: a row accepts the encodings of its commands, and a word decodes to one command, whose mnemonic stands in one row. -/
theorem decoderIsTheOpcodeTable : Obligations.DecoderIsTheOpcodeTable := by
  refine ⟨fun w r hr => accepts_iff_decode hr, fun w r hr r' hr' h h' => ?_⟩
  obtain ⟨i, hi, hm⟩ := (accepts_iff_decode hr).1 h
  obtain ⟨j, hj, hm'⟩ := (accepts_iff_decode hr').1 h'
  obtain rfl := Except.ok.inj (hi.symm.trans hj)
  exact row_eq_of_mnemonic hr hr' (hm.symm.trans hm')

/-! ## Illegal words -/

/-- A word no row of the table accepts is rejected by the decoder (R95, R96). -/
theorem decode_error_of_not_accepts {w : Word} (h : ∀ r ∈ opcodeRows, r.accepts w = false) : ∃ e, decode w = .error e := by
  cases hd : decode w with
  | error e => exact ⟨e, rfl⟩
  | ok i =>
    have hacc := (accepts_iff_decode (rowOf_mem i)).2 ⟨i, hd, rfl⟩
    rw [h _ (rowOf_mem i)] at hacc
    cases hacc

/-- A write of CMD while the block is idle issues the word, legal or not (R113). -/
theorem hostWriteReg_cmd_idle {s : State} (h : s.status.busy = false) (w : Word) : hostWriteReg (some .cmd) w s = issue w s := by
  simp [hostWriteReg, writeOther, h]

/-- The turn of a busy block with an illegal word ends it in ERR_ILLEGAL (R96). -/
theorem blockTurn_illegal {s : State} {e : Reject} (hb : s.status.busy = true) (h : decode s.cmd = .error e) :
    blockTurn s = .next (raiseErr .illegal s.cmd s) := by
  simp [blockTurn, completeLatched, hb, h]

/-- Settles O6: the word is issued, the decoder rejects it, and the error completion overwrites what the issue set. -/
theorem illegalWordsCompleteWithErrIllegal : Obligations.IllegalWordsCompleteWithErrIllegal := by
  intro w s hidle hrows
  obtain ⟨e, he⟩ := decode_error_of_not_accepts hrows
  rw [hostWriteReg_cmd_idle hidle]
  exact ⟨rfl, blockTurn_illegal (s := issue w s) rfl he⟩

end Sys2Proof.Proofs
end

section
/-! SUPPORT. The host's statements: what each does, as a turn of the schedule (`30_encoding.md` R98). -/

namespace Sys2Proof.Proofs

open Sys2Proof.Machine Sys2Proof.Laws Sys2Proof.Spec

/-! ## Values, temporaries and jumps -/

/-- A value whose temporary holds a word draws nothing (R98). -/
theorem evalVal_of_valueIs {s : State} {w : Word} {x : Val} (h : ValueIs s w x) : evalVal x s = (w, s) := by
  cases x with
  | const c => exact congrArg (·, s) h.symm
  | temp t => exact readTemp_word h
  | plus t c =>
    obtain ⟨y, hy, rfl⟩ := h
    simp [evalVal, readTemp_word hy]
  | minus t c =>
    obtain ⟨y, hy, rfl⟩ := h
    simp [evalVal, readTemp_word hy]

theorem evalCond_eq_value {s : State} {w : Word} {x : Val} (h : ValueIs s w x) (y : Word) :
    evalCond (.eq x) y s = (y == w, s) := by
  simp only [evalCond, evalVal_of_valueIs h]

theorem evalCond_ne_value {s : State} {w : Word} {x : Val} (h : ValueIs s w x) (y : Word) :
    evalCond (.ne x) y s = (y != w, s) := by
  simp only [evalCond, evalVal_of_valueIs h]

/-- Going on after a value changes no more than the count of draws besides. -/
theorem advance_evalVal (x : Val) (s : State) :
    advance (evalVal x s).2 = { advance s with draws := (evalVal x s).2.draws } := by
  rw [evalVal_frame]; rfl

theorem assigned_assignTemp (t : Temp) (y : TempVal) (l : List (Temp × TempVal)) : Assigned t y l (assignTemp t y l) :=
  ⟨lookupTemp_assignTemp_same t y l, fun _ h => lookupTemp_assignTemp_ne h y l⟩

/-- A load hands its bytes to the temporary it names, and to no other (R98). -/
theorem setTemp_assigns (t : Temp) (bs : List Byte) (z : State) :
    ∃ l, setTemp t (.bytes bs) z = { z with host := { z.host with temps := l } } ∧ Assigned t (.bytes bs) z.host.temps l :=
  ⟨_, rfl, assigned_assignTemp t _ _⟩

theorem jumps_jumpTo (s : State) (l : Label) : Jumps s l (jumpTo l s) :=
  ⟨fun k hk => by simp [jumpTo, hk], fun hnone => by simp [jumpTo, hnone]⟩

/-! ## The statements, one by one -/

/-- A turn of the host that the schedule names is its next statement (R98, log 2). -/
theorem step_host {s : State} {st : Stmt} {rest : List Turn} (hs : s.schedule = .host :: rest)
    (hst : s.host.script[s.host.pc]? = some st) : step s = execStmt st { s with schedule := rest } := by
  rw [step_scheduled hs]
  simp [takeTurn, hostTurn, hst]

theorem execStmt_wr (r : Reg) (x : Val) (s : State) :
    execStmt (.wr r x) s = .next (hostWriteReg (some r) (evalVal x s).1 (advance (evalVal x s).2)) := by
  refine busWrite_register ?_ _
  rw [advance_evalVal]
  exact busTarget_offset s.plat r

theorem execStmt_wr_value {s : State} {w : Word} {x : Val} (h : ValueIs s w x) (r : Reg) :
    execStmt (.wr r x) s = .next (hostWriteReg (some r) w (advance s)) := by
  rw [execStmt_wr, evalVal_of_valueIs h]

theorem execStmt_wr_any (r : Reg) (x : Val) (s : State) :
    ∃ w d, execStmt (.wr r x) s = .next (hostWriteReg (some r) w { advance s with draws := d }) :=
  ⟨_, _, by rw [execStmt_wr, advance_evalVal]⟩

theorem execStmt_cmd (i : Instr) (s : State) :
    execStmt (.cmd i) s = .next (hostWriteReg (some .cmd) (encode i) (advance s)) :=
  busWrite_register (s := advance s) (busTarget_offset s.plat .cmd) _

/-- A `rd` changes what the read of the register changes, and assigns its temporary (R98). -/
theorem execStmt_rd (r : Reg) (t : Temp) (s : State) :
    ∃ l, execStmt (.rd r t) s = .next { (hostReadReg (some r) (advance s)).2 with host := { (advance s).host with temps := l } }
      ∧ Assigned t (.word (hostReadReg (some r) (advance s)).1) s.host.temps l := by
  have hread : execStmt (.rd r t) s
      = .next (setTemp t (.word (hostReadReg (some r) (advance s)).1) (hostReadReg (some r) (advance s)).2) :=
    busRead_register (s := advance s) (busTarget_offset s.plat r) fun w => setTemp t (.word w)
  rw [hread, hostReadReg_frame]
  exact ⟨_, rfl, assigned_assignTemp t _ _⟩

theorem execStmt_mw_value {s : State} {a : Word} {x : Val} (h : ValueIs s a x) (bs : List Byte) :
    execStmt (.mw x bs) s = hostStore a.toNat bs (advance s) := by
  simp only [execStmt, evalVal_of_valueIs h]

theorem execStmt_mw_any (x : Val) (bs : List Byte) (s : State) :
    ∃ a d, execStmt (.mw x bs) s = hostStore a bs { advance s with draws := d } := by
  simp only [execStmt, advance_evalVal]
  exact ⟨_, _, rfl⟩

theorem execStmt_mr_value {s : State} {a n : Word} {x y : Val} (hx : ValueIs s a x) (hy : ValueIs s n y) (t : Temp) :
    execStmt (.mr x y t) s = hostLoad a.toNat n.toNat (fun bs => setTemp t (.bytes bs)) (advance s) := by
  simp only [execStmt, evalVal_of_valueIs hx, evalVal_of_valueIs hy]

theorem execStmt_mr_any (x y : Val) (t : Temp) (s : State) :
    ∃ a n d, execStmt (.mr x y t) s = hostLoad a n (fun bs => setTemp t (.bytes bs)) { advance s with draws := d } := by
  have hframe : advance (evalVal y (evalVal x s).2).2 = { advance s with draws := (evalVal y (evalVal x s).2).2.draws } := by
    rw [advance_evalVal, evalVal_frame x]
    rfl
  simp only [execStmt, hframe]
  exact ⟨_, _, _, rfl⟩

/-- An `if` whose condition is settled without a draw jumps where it holds, and else goes on (R98). -/
theorem execStmt_branch_settled {t : Temp} {f : Field} {c : Cond} {w : Word} {b : Bool} {p q : Prop} {s : State}
    (ht : HoldsWord s t w) (hc : evalCond c (f.get w) s = (b, s)) (hp : b = true ↔ p) (hq : b = false ↔ q) (l : Label) :
    (p → Jumps s l (execStmt (.branch t f c l) s)) ∧ (q → execStmt (.branch t f c l) s = .next (advance s)) := by
  have heq : execStmt (.branch t f c l) s = if b then jumpTo l s else .next (advance s) := by
    simp only [execStmt, readTemp_word ht, hc]
  rw [heq, ← hp, ← hq]
  refine ⟨?_, ?_⟩ <;> rintro rfl
  · exact jumps_jumpTo s l
  · rfl

/-- An `if` jumps or goes on, and besides changes no more than the count of draws (R98, logs 8, 18). -/
theorem execStmt_branch_any (t : Temp) (f : Field) (c : Cond) (l : Label) (s : State) :
    ∃ d, Jumps { s with draws := d } l (execStmt (.branch t f c l) s)
      ∨ execStmt (.branch t f c l) s = .next { advance s with draws := d } := by
  have hframe : (evalCond c (f.get (readTemp t s).1) (readTemp t s).2).2
      = { s with draws := (evalCond c (f.get (readTemp t s).1) (readTemp t s).2).2.draws } := by
    rw [evalCond_frame, readTemp_frame]
  refine ⟨(evalCond c (f.get (readTemp t s).1) (readTemp t s).2).2.draws, ?_⟩
  rw [← hframe]
  unfold execStmt
  dsimp only
  split
  · exact .inl (jumps_jumpTo _ l)
  · exact .inr (by rw [hframe]; rfl)

/-- Settles O21: the step is the statement's turn, and each statement is one access, one jump or nothing. -/
theorem hostStatementsReachTheRegisters : Obligations.HostStatementsReachTheRegisters := by
  intro s st rest hs hst v u
  rw [step_host hs hst]
  refine ⟨?wr, ?wrAny, ?cmd, ?rd, ?mw, ?mr, ?mwAny, ?mrAny, ?label, ?branch, ?branchAny, ?goto, ?halt⟩
  case wr =>
    rintro r x w rfl hx
    exact execStmt_wr_value (s := v) hx r
  case wrAny =>
    rintro r x rfl
    exact execStmt_wr_any r x v
  case cmd =>
    rintro i rfl
    exact execStmt_cmd i v
  case rd =>
    rintro r t rfl
    exact execStmt_rd r t v
  case mw =>
    rintro x bs a rfl hx
    exact execStmt_mw_value (s := v) hx bs
  case mr =>
    rintro x y t a n rfl hx hy
    exact ⟨_, execStmt_mr_value (s := v) hx hy t, setTemp_assigns t⟩
  case mwAny =>
    rintro x bs rfl
    exact execStmt_mw_any x bs v
  case mrAny =>
    rintro x y t rfl
    obtain ⟨a, n, d, h⟩ := execStmt_mr_any x y t v
    exact ⟨a, n, d, _, h, setTemp_assigns t⟩
  case label =>
    rintro l rfl
    rfl
  case branch =>
    rintro t w f c l rfl ht
    refine ⟨?_, fun x y hx => ⟨?_, ?_⟩⟩ <;> rintro rfl
    · exact execStmt_branch_settled (s := v) ht rfl bne_iff_ne bne_eq_false_iff_eq l
    · exact execStmt_branch_settled (s := v) ht (evalCond_eq_value (s := v) hx _) beq_iff_eq beq_eq_false_iff_ne l
    · exact execStmt_branch_settled (s := v) ht (evalCond_ne_value (s := v) hx _) bne_iff_ne bne_eq_false_iff_eq l
  case branchAny =>
    rintro t f c l rfl
    exact execStmt_branch_any t f c l v
  case goto =>
    rintro l rfl
    exact jumps_jumpTo v l
  case halt =>
    rintro rfl
    rfl

end Sys2Proof.Proofs
end

section
/-! SUPPORT. How commands end (`40_command.md` R113 to R121), and that only the host's turns can stop the machine (R120, R254). -/

namespace Sys2Proof.Proofs

open Sys2Proof.Machine Sys2Proof.Laws Sys2Proof.Spec

/-! ## Completions -/

/-- Settles O7: every command answers a next state, and both kinds of completion leave the block idle and DONE. -/
theorem everyCommandCompletes : Obligations.EveryCommandCompletes := by
  intro i s
  obtain ⟨t, h⟩ := exec_next i s
  refine ⟨t, h, ?_⟩
  rcases exec_completes h with ⟨padbad, hc⟩ | ⟨e, info, rfl⟩
  · simp [hc.status]
  · simp

/-- A completion that shows an error code is an error completion (R116, R117). -/
theorem exec_error {i : Instr} {s t : State} (h : exec i s = .next t) (he : t.status.errcode ≠ 0#8) :
    ∃ e info, t = raiseErr e info s := by
  rcases exec_completes h with ⟨padbad, hc⟩ | hr
  · exact absurd (by simp [hc.status]) he
  · exact hr

/-- A completion that shows no error code is a successful one (R116, R117). -/
theorem exec_success {i : Instr} {s t : State} (h : exec i s = .next t) (he : t.status.errcode = 0#8) :
    ∃ padbad, Completes padbad s t := by
  rcases exec_completes h with hc | ⟨e, info, rfl⟩
  · exact hc
  · exact absurd he (errCodeBits_range e).1

/-- PADBAD is set by UNPAD and MSG_DEC alone (R24, R116). -/
theorem exec_padbad {i : Instr} {s t : State} (h : exec i s = .next t) (hp : t.status.padbad = true) :
    i = .unpad ∨ i = .msgDec := by
  cases i
  case unpad => exact .inl rfl
  case msgDec => exact .inr rfl
  all_goals
    dsimp only [exec, execNop, execTeaEnc, execTeaDec, execTeaErnd, execTeaDrnd, execZero, execKeyLd, execBlkLd, execBlkSt, execWLd,
      execWSt, execPad, execEcbEnc, execEcbDec, execMsgEnc, execFrWrap, execFrUnwrap, execLsbCap, execLsbEmbed, execLsbExtract,
      execMetDiff, execMetHist] at h
    rcases conclude_cases h with ⟨-, rfl⟩ | ⟨e, info, -, rfl⟩ <;> cases hp

/-- Settles O9: a completion without an error code is a successful one, and its fields are those of `Completes`. -/
theorem successLeavesTheOperands : Obligations.SuccessLeavesTheOperands := by
  intro i s t h he
  obtain ⟨padbad, hc⟩ := exec_success h he
  refine ⟨hc.errinfo, ?_, ?_, ?_, exec_padbad h, hc.ctrlIE, hc.cmd, hc.src, hc.dst, hc.len, hc.pixcnt, hc.plat, hc.host,
    hc.schedule, hc.draws⟩ <;> simp [hc.status]

/-- Settles O23: none of the three commands makes a check, and a capacity fits in RESULT. -/
theorem nopZeroAndCapacity : Obligations.NopZeroAndCapacity := by
  intro s
  have hp := s.pixcnt.isLt
  have hr : (BitVec.ofNat 32 (capacity s.pixcnt.toNat)).toNat = 3 * s.pixcnt.toNat / 8 := by
    rw [BitVec.toNat_ofNat, capacity]
    exact Nat.mod_eq_of_lt (by omega)
  exact ⟨rfl, rfl, _, rfl, hr, by omega⟩

/-! ## Issue, and the step that completes -/

/-- Settles O5: an idle write to CMD is an issue, which clears DONE and so the line. -/
theorem issueLatchesTheCommand : Obligations.IssueLatchesTheCommand := by
  intro w s hb
  rw [hostWriteReg_cmd_idle hb]
  exact ⟨rfl, by simp [State.irq]⟩

/-- The turn of a busy block runs the command latched in CMD (R95, R115). -/
theorem blockTurn_exec {s : State} {i : Instr} (hb : s.status.busy = true) (hi : decode s.cmd = .ok i) :
    blockTurn s = exec i s := by
  simp [blockTurn, completeLatched, hb, hi]

/-- A busy block moves when the schedule is empty (log 2). -/
theorem step_unscheduled {s : State} (hs : s.schedule = []) (hb : s.status.busy = true) : step s = blockTurn s := by
  have ht : tick s = s := by simp only [tick, hs, List.tail_nil]; rw [← hs]
  have hn : nextTurn s = .block := by simp [nextTurn, defaultTurn, hs, hb]
  rw [step, hn, ht, takeTurn]

/-- Settles O4: the block's turn, scheduled or by default, completes the word in flight, and `withFetchWord` schedules it. -/
theorem stepRunsTheWordInFlight : Obligations.StepRunsTheWordInFlight := by
  refine ⟨fun s i hb hi => ⟨fun rest hs => ?_, fun hs => ?_⟩, fun s w i hi => ?_⟩
  · rw [step_scheduled hs]
    exact blockTurn_exec hb hi
  · rw [step_unscheduled hs hb, blockTurn_exec hb hi]
  · have hw : BitVec.ofNat 32 (w.toNat % 2 ^ 32) = w := by
      rw [Nat.mod_eq_of_lt w.isLt, BitVec.ofNat_toNat, BitVec.setWidth_eq]
    rw [State.withFetchWord, hw, step_scheduled rfl]
    exact blockTurn_exec rfl hi

/-- Settles O22: the turns of the block and of the reset input always answer a next state. -/
theorem onlyHostTurnsStop : Obligations.OnlyHostTurnsStop := by
  intro s hstop
  have hhost : nextTurn s = .host := by
    cases hn : nextTurn s with
    | host => rfl
    | block =>
      obtain ⟨t, ht⟩ := blockTurn_next (tick s)
      exact absurd (by rw [step, hn]; exact ht) (hstop t)
    | hardReset => exact absurd (by rw [step, hn]; rfl) (hstop (hardReset (tick s)))
  cases hs : s.schedule with
  | nil => exact .inr ⟨rfl, by simpa [nextTurn, defaultTurn, hs] using hhost⟩
  | cons turn rest => exact .inl (by simpa [nextTurn, hs] using hhost)

end Sys2Proof.Proofs
end

section
/-! SUPPORT. The host's reads and writes of the registers, idle and busy (`40_command.md` R110, R111, R117 to R119). -/

namespace Sys2Proof.Proofs

open Sys2Proof.Machine Sys2Proof.Laws Sys2Proof.Spec

/-! ## STATUS and CTRL, bit by bit -/

/-- The bits of STATUS (R24). -/
theorem toWord_getLsbD (st : Status) (i : Nat) : st.toWord.getLsbD i =
    if i = 0 then st.busy else if i = 1 then st.done else if i = 2 then st.err else if i = 3 then st.padbad
    else if i = 4 then st.werr else if 8 ≤ i ∧ i < 16 then st.errcode.getLsbD (i - 8) else false := by
  simp only [Status.toWord, BitVec.getLsbD_append, BitVec.getLsbD_ofBool, BitVec.getLsbD_zero]
  match i with
  | 0 | 1 | 2 | 3 | 4 => rfl
  | j + 5 =>
    rcases lt_or_ge j 3 with hreserved | hcode
    · simp [hreserved, Nat.not_le.2 hreserved]
    · simp [hcode, Nat.not_lt.2 hcode, show j + 5 - 8 = j - 3 by omega, show j + 5 < 16 ↔ j - 3 < 8 by omega]

/-- The bits of CTRL (R23). -/
theorem ctrlWord_getLsbD (ie : Bool) (i : Nat) : (ctrlWord ie).getLsbD i = (decide (i = 0) && ie) := by
  simp only [ctrlWord, BitVec.getLsbD_append, BitVec.getLsbD_ofBool, BitVec.getLsbD_zero]
  cases i with
  | zero => rfl
  | succ j => simp

/-! ## Reads -/

/-- A steady register reads as usual, idle or busy (R110, R119). -/
theorem hostReadReg_steady {r : Reg} (h : r.steady = true) (s : State) : hostReadReg (some r) s = (r.value s, s) := by
  simp [hostReadReg, h]

/-- A busy read of any other register is a fresh free word (R119, log 6). -/
theorem hostReadReg_draw {r : Reg} {s : State} (hb : s.status.busy = true) (h : r.steady = false) :
    hostReadReg (some r) s = drawWord s := by
  simp [hostReadReg, hb, h]

/-- The model's steady registers are those of R119. -/
theorem steady_iff (r : Reg) : r.steady = true ↔ r ∈ steadyRegs := by
  cases r <;> decide

/-- Settles O8: the error completion is `raiseErr`, and ERR is bit 2 of STATUS. -/
theorem errorsChangeOnlyStatusAndErrinfo : Obligations.ErrorsChangeOnlyStatusAndErrinfo := by
  intro i s t h he
  obtain ⟨e, info, rfl⟩ := exec_error h he
  refine ⟨rfl, ?_⟩
  rw [hostReadReg_steady rfl, Reg.value, toWord_getLsbD]
  simpa [Status.err] using he

/-- Settles O17: a busy read of a register that is not steady answers a word that the count of draws alone decides. -/
theorem busyReadsRevealNothing : Obligations.BusyReadsRevealNothing := by
  intro s hb
  refine ⟨fun r hr => hostReadReg_steady ((steady_iff r).2 hr) s, rfl, fun r => ?_, fun s' hb' hd r hr => ?_⟩
  · rw [hostReadReg_frame]
  · have hfree : r.steady = false := by rwa [← Bool.not_eq_true, steady_iff]
    rw [hostReadReg_draw hb hfree, hostReadReg_draw hb' hfree, drawWord, drawWord, hd]

/-- Settles O18: CTRL and STATUS are steady, and an idle read gives the register's value. -/
theorem statusAndCtrlLayout : Obligations.StatusAndCtrlLayout := by
  intro s
  rw [hostReadReg_steady rfl, hostReadReg_steady rfl]
  refine ⟨fun i _ => ⟨?_, ctrlWord_getLsbD s.ctrlIE i⟩, rfl, rfl, fun hb r v hrv => ?_⟩
  · have herr : s.status.err = decide (s.status.errcode ≠ 0#8) := by simp [Status.err, bne, beq_eq_decide]
    rw [← herr]
    exact toWord_getLsbD s.status i
  · cases r with
    | none =>
      obtain rfl : v = 0#32 := by simpa using hrv
      rfl
    | some r =>
      rw [hostReadReg_idle hb]
      congr 1
      cases r <;> simp at hrv <;> exact hrv.symm

/-! ## Writes -/

/-- An operand register reads as the value written, and every other register reads as before (R111). -/
theorem value_setOperand {r : Reg} (hr : r ∈ writable) (r' : Reg) (v : Word) (s : State) :
    r'.value (setOperand r v s) = if r' = r then v else r'.value s := by
  simp only [writable, List.mem_cons, List.not_mem_nil, or_false] at hr
  rcases hr with rfl | rfl | rfl | rfl | rfl | rfl | rfl | rfl | rfl | rfl | rfl <;> cases r' <;> rfl

/-- A write of a read-only register stores nothing (R111). -/
theorem setOperand_readOnly {r : Reg} (hr : r ∉ writable) (v : Word) (s : State) : setOperand r v s = s := by
  cases r
  case v0 | v1 | sum | k0 | k1 | k2 | k3 | src | dst | len | pixcnt => exact absurd (by decide) hr
  all_goals rfl

theorem setOperand_status (r : Reg) (v : Word) (s : State) : (setOperand r v s).status = s.status := by
  cases r <;> rfl

/-- An idle write other than to CTRL, STATUS or CMD stores its value, if the register takes one (R111). -/
theorem hostWriteReg_setOperand {r : Reg} {s : State} (hb : s.status.busy = false) (hctrl : r ≠ .ctrl)
    (hstatus : r ≠ .status) (hcmd : r ≠ .cmd) (v : Word) : hostWriteReg (some r) v s = setOperand r v s := by
  cases r
  case ctrl => exact absurd rfl hctrl
  case status => exact absurd rfl hstatus
  case cmd => exact absurd rfl hcmd
  all_goals simp [hostWriteReg, writeOther, hb]

/-- An idle write of an operand register stores its value (R111). -/
theorem hostWriteReg_writable {r : Reg} {s : State} (hb : s.status.busy = false) (hr : r ∈ writable) (v : Word) :
    hostWriteReg (some r) v s = setOperand r v s :=
  hostWriteReg_setOperand hb (ne_of_mem_of_not_mem hr (by decide)) (ne_of_mem_of_not_mem hr (by decide))
    (ne_of_mem_of_not_mem hr (by decide)) v

/-- What each register reads as after an idle write of an operand register (R110, R111). -/
theorem hostReadReg_written {r : Reg} {s : State} (hb : s.status.busy = false) (hr : r ∈ writable) (r' : Reg) (v : Word) :
    (hostReadReg (some r') (hostWriteReg (some r) v s)).1 = if r' = r then v else (hostReadReg (some r') s).1 := by
  have hb' : (setOperand r v s).status.busy = false := by rwa [setOperand_status]
  rw [hostWriteReg_writable hb hr, hostReadReg_idle hb', hostReadReg_idle hb, value_setOperand hr]

/-- A write of CTRL with SRST set is a soft reset, idle or busy (R111, R118, R281). -/
theorem hostWriteReg_ctrl_reset {v : Word} (h : v.getLsbD 1 = true) (s : State) :
    hostWriteReg (some .ctrl) v s = hardReset s :=
  if_pos h

/-- A write of CTRL with SRST clear sets IE, idle or busy (R111, R118). -/
theorem hostWriteReg_ctrl_setIE {v : Word} (h : v.getLsbD 1 = false) (s : State) :
    hostWriteReg (some .ctrl) v s = { s with ctrlIE := v.getLsbD 0 } :=
  if_neg (Bool.eq_false_iff.1 h)

/-- A write of STATUS clears DONE and WERR by ones, idle or busy (R111, R118). -/
theorem hostWriteReg_status (v : Word) (s : State) :
    hostWriteReg (some .status) v s = { s with status := ⟨s.status.busy, s.status.done && !v.getLsbD 1, s.status.padbad,
      s.status.werr && !v.getLsbD 4, s.status.errcode⟩ } := rfl

/-- Every other busy write is ignored and sets WERR (R118). -/
theorem hostWriteReg_busy {o : Option Reg} {s : State} (hb : s.status.busy = true) (hctrl : o ≠ some .ctrl)
    (hstatus : o ≠ some .status) (v : Word) : hostWriteReg o v s = { s with status := s.status.refusedWrite } := by
  have hother : writeOther o v s = { s with status := s.status.refusedWrite } := by simp [writeOther, hb]
  unfold hostWriteReg
  split
  · exact absurd rfl hctrl
  · exact absurd rfl hstatus
  · exact hother

/-- Settles O16: CTRL and STATUS are written as ever, and a busy block refuses the rest. -/
theorem busyWrites : Obligations.BusyWrites := by
  intro s v hb
  refine ⟨fun h => hostWriteReg_ctrl_setIE h s, fun h => hostWriteReg_ctrl_reset h s, ?_, fun o hctrl hstatus => ?_⟩
  · rw [hostWriteReg_status, hb]
  · rw [hostWriteReg_busy hb hctrl hstatus, Status.refusedWrite, hb]

/-- Settles O15: CTRL, STATUS and CMD have effects of their own, and every other write is `setOperand` or nothing. -/
theorem idleRegisterWrites : Obligations.IdleRegisterWrites := by
  intro s v hb
  have operand {r : Reg} (hr : r ∈ writable) : hostWriteReg (some r) v s = setOperand r v s := hostWriteReg_writable hb hr v
  refine ⟨fun h => hostWriteReg_ctrl_reset h s, fun h => hostWriteReg_ctrl_setIE h s, ?_, hostWriteReg_cmd_idle hb v,
    operand (by decide), operand (by decide), operand (by decide), operand (by decide), operand (by decide),
    operand (by decide), operand (by decide), operand (by decide), operand (by decide), operand (by decide),
    operand (by decide), fun r hr => ⟨?_, fun r' hne => ?_⟩, fun o ho => ?_⟩
  · rw [hostWriteReg_status, hb]
  · rw [hostReadReg_written hb hr, if_pos rfl]
  · rw [hostReadReg_written hb hr, if_neg hne]
  · cases o with
    | none => simp [hostWriteReg, writeOther, hb]
    | some r =>
      obtain ⟨hr, hctrl, hstatus, hcmd⟩ := ho r rfl
      rw [hostWriteReg_setOperand hb hctrl hstatus hcmd, setOperand_readOnly hr]

end Sys2Proof.Proofs
end

section
/-! SUPPORT. A command's outcome depends on memory only through its read footprint (`40_command.md` R124,
`70_reset_and_hazards.md` R287): what each command computes from memory is the same for two memories that agree there. -/

namespace Sys2Proof.Proofs

open Sys2Proof.Machine Sys2Proof.Laws Sys2Proof.Spec

/-! ## What is computed from a range of memory -/

/-- Two memories agree on `[a, a + n)`. -/
def AgreeOn (m m' : Memory) (a n : Nat) : Prop := ∀ x, a ≤ x → x < a + n → m'.read x = m.read x

section
variable {m m' : Memory} {a b p : Nat}

theorem AgreeOn.mono {n k : Nat} (h : AgreeOn m m' a n) (hk : k ≤ n) : AgreeOn m m' a k :=
  fun x hle hlt => h x hle (by omega)

/-- The channel of an embedded bit is a byte of the pixels (R200). -/
theorem AgreeOn.read_chanAddr (h : AgreeOn m m' a (4 * p)) {i : Nat} (hi : i < 3 * p) :
    m'.read (chanAddr a i) = m.read (chanAddr a i) := by
  obtain ⟨hle, hlt⟩ := chanAddr_bounds a hi
  exact h _ hle hlt

theorem stegoNumber_congr (h : AgreeOn m m' a (4 * p)) {i n : Nat} (hi : i + n ≤ 3 * p) :
    stegoNumber m' a i n = stegoNumber m a i n := by
  refine congrArg List.sum (List.map_congr_left fun k hk => ?_)
  rw [List.mem_range] at hk
  rw [stegoBit, stegoBit, h.read_chanAddr (by omega)]

theorem stegoBody_congr (h : AgreeOn m m' a (4 * p)) {n : Nat} (hn : 32 + 8 * n ≤ 3 * p) :
    stegoBody m' a n = stegoBody m a n := by
  refine List.map_congr_left fun j hj => ?_
  rw [List.mem_range] at hj
  rw [stegoNumber_congr h (by omega)]

/-- The channels R, G and B of a pixel are bytes of the buffer (R230). -/
theorem AgreeOn.read_pixel (h : AgreeOn m m' a (4 * p)) {i : Nat} (hi : i < p) :
    m'.read (a + 4 * i) = m.read (a + 4 * i) ∧ m'.read (a + 4 * i + 1) = m.read (a + 4 * i + 1)
      ∧ m'.read (a + 4 * i + 2) = m.read (a + 4 * i + 2) :=
  ⟨h _ (by omega) (by omega), h _ (by omega) (by omega), h _ (by omega) (by omega)⟩

theorem pixelLum_congr (h : AgreeOn m m' a (4 * p)) {i : Nat} (hi : i < p) : pixelLum m' a i = pixelLum m a i := by
  obtain ⟨h0, h1, h2⟩ := h.read_pixel hi
  rw [pixelLum, pixelLum, h0, h1, h2]

theorem lumList_congr (h : AgreeOn m m' a (4 * p)) : lumList m' a p = lumList m a p :=
  List.map_congr_left fun _ hi => pixelLum_congr h (List.mem_range.1 hi)

theorem sumPixels_congr {f g : Nat → Nat} (h : ∀ i < p, f i = g i) : sumPixels p f = sumPixels p g :=
  congrArg List.sum (List.map_congr_left fun i hi => h i (List.mem_range.1 hi))

theorem sumChannels_congr (ha : AgreeOn m m' a (4 * p)) (hb : AgreeOn m m' b (4 * p)) (f : Byte → Byte → Nat) :
    sumChannels m' a b p f = sumChannels m a b p f := by
  refine sumPixels_congr fun i hi => ?_
  obtain ⟨a0, a1, a2⟩ := ha.read_pixel hi
  obtain ⟨b0, b1, b2⟩ := hb.read_pixel hi
  rw [a0, a1, a2, b0, b1, b2]

theorem pixelChanged_congr (ha : AgreeOn m m' a (4 * p)) (hb : AgreeOn m m' b (4 * p)) {i : Nat} (hi : i < p) :
    pixelChanged m' a b i = pixelChanged m a b i := by
  obtain ⟨a0, a1, a2⟩ := ha.read_pixel hi
  obtain ⟨b0, b1, b2⟩ := hb.read_pixel hi
  rw [pixelChanged, pixelChanged, a0, a1, a2, b0, b1, b2]

/-- The accumulators depend on the two buffers alone (R231). -/
theorem diffMetrics_congr (ha : AgreeOn m m' a (4 * p)) (hb : AgreeOn m m' b (4 * p)) :
    diffMetrics m' a b p = diffMetrics m a b p := by
  have hla {i : Nat} (hi : i < p) := pixelLum_congr ha hi
  have hlb {i : Nat} (hi : i < p) := pixelLum_congr hb hi
  unfold diffMetrics
  congr 1
  case e_chgpix => exact congrArg _ (sumPixels_congr fun i hi => by rw [pixelChanged_congr ha hb hi])
  case e_la => exact congrArg _ (sumPixels_congr fun i hi => hla hi)
  case e_lb => exact congrArg _ (sumPixels_congr fun i hi => hlb hi)
  case e_lalb => exact congrArg _ (sumPixels_congr fun i hi => by rw [hla hi, hlb hi])
  case e_la2 => exact congrArg _ (sumPixels_congr fun i hi => by rw [hla hi])
  case e_lb2 => exact congrArg _ (sumPixels_congr fun i hi => by rw [hlb hi])
  all_goals exact congrArg _ (sumChannels_congr ha hb _)

end

/-! ## Two outcomes of one command -/

/-- The outcomes `t` and `t'` of a command, run on `s` and on `s` with the memory `m`: alike in every register, and each byte of
memory alike too or left alone in both (R124). -/
structure SameOutcome (s : State) (m : Memory) (t t' : State) : Prop where
  registers : t' = { t with mem := t'.mem }
  bytes : ∀ x, t'.mem.read x = t.mem.read x ∨ (t.mem.read x = s.mem.read x ∧ t'.mem.read x = m.read x)

section
variable {s t t' : State} {m : Memory}

/-- Outcomes alike in every register, when neither run writes memory. -/
theorem sameOutcome_unchanged (h : t.mem = s.mem) (h' : t' = { t with mem := m }) : SameOutcome s m t t' := by
  subst h'
  exact ⟨rfl, fun x => .inr ⟨by rw [h], rfl⟩⟩

/-- Outcomes alike in every register, when both runs write the same bytes. -/
theorem sameOutcome_writeBytes (hw : Memory.wf s.mem = true) (hw' : Memory.wf m = true) {a : Nat} {bs : List Byte}
    (h : t.mem = writeBytes s.mem a bs) (h' : t' = { t with mem := writeBytes m a bs }) : SameOutcome s m t t' := by
  subst h'
  refine ⟨rfl, fun x => ?_⟩
  rw [h, read_writeBytes _ _ _ _ hw, read_writeBytes _ _ _ _ hw']
  split
  · exact .inl rfl
  · exact .inr ⟨rfl, rfl⟩

/-- Outcomes alike in every register, when both runs embed the same bits into channels that read alike. -/
theorem sameOutcome_embedBits (hw : Memory.wf s.mem = true) (hw' : Memory.wf m = true) {base : Nat} {l : List Byte}
    {is : List Nat} (hnd : is.Nodup) (hread : ∀ i ∈ is, m.read (chanAddr base i) = s.mem.read (chanAddr base i))
    (h : t.mem = embedBits base l is s.mem) (h' : t' = { t with mem := embedBits base l is m }) : SameOutcome s m t t' := by
  subst h'
  refine ⟨rfl, fun x => ?_⟩
  rw [h]
  by_cases hx : ∃ i ∈ is, x = chanAddr base i
  · obtain ⟨i, hi, rfl⟩ := hx
    rw [read_embedBits_in _ _ _ _ hw hnd hi, read_embedBits_in _ _ _ _ hw' hnd hi, hread i hi]
    exact .inl rfl
  · have hout : ∀ i ∈ is, x ≠ chanAddr base i := fun i hi hxi => hx ⟨i, hi, hxi⟩
    exact .inr ⟨read_embedBits_out _ _ _ _ _ hw hout, read_embedBits_out _ _ _ _ _ hw' hout⟩

/-- Two runs that report the same error, or succeed alike, end alike. -/
theorem sameOutcome_conclude {cs cs' : List (Option Err)} {effect effect' : State → State}
    (h : conclude cs effect s = .next t) (h' : conclude cs' effect' { s with mem := m } = .next t')
    (hcs : firstErr cs' = firstErr cs)
    (heffect : firstErr cs = none → SameOutcome s m (effect s) (effect' { s with mem := m })) : SameOutcome s m t t' := by
  rcases conclude_cases h with ⟨hne, rfl⟩ | ⟨e, info, he, rfl⟩
  · rw [conclude_none _ _ (hcs.trans hne)] at h'
    obtain rfl := Host.Outcome.next.inj h'
    exact heffect hne
  · rw [conclude_some _ _ (hcs.trans he)] at h'
    obtain rfl := Host.Outcome.next.inj h'
    exact sameOutcome_unchanged rfl rfl

/-- Checks report alike when the first is the same and, once it passes, the rest report alike. -/
theorem firstErr_cons_congr {c : Option Err} {cs cs' : List (Option Err)} (h : c = none → firstErr cs' = firstErr cs) :
    firstErr (c :: cs') = firstErr (c :: cs) := by
  cases c with
  | none => exact h rfl
  | some e => rfl

/-! ## What single commands compute from their read footprint -/

theorem keyBytes_congr (hsrc : AgreeOn s.mem m s.src.toNat (keyLength s)) : keyBytes { s with mem := m } = keyBytes s :=
  congrArg (· ++ rep (16 - keyLength s) 0x00#8) (readBytes_congr hsrc)

theorem sourceBytes_congr (hsrc : AgreeOn s.mem m s.src.toNat s.len.toNat) : sourceBytes { s with mem := m } = sourceBytes s :=
  readBytes_congr hsrc

/-- The header of a payload that is long enough for one is part of it (R191). -/
theorem declaredLength_congr (hsrc : AgreeOn s.mem m s.src.toNat s.len.toNat) (h4 : ¬ s.len.toNat < 4) :
    declaredLength { s with mem := m } = declaredLength s :=
  congrArg (be32 · 0) (readBytes_congr (hsrc.mono (by omega)))

/-! ## The commands whose checks bound what they read -/

/-- A payload too short for a header is refused before its length is looked at (R191, R252). -/
theorem execFrUnwrap_sameOutcome (hsrc : AgreeOn s.mem m s.src.toNat s.len.toNat) (h : execFrUnwrap s = .next t)
    (h' : execFrUnwrap { s with mem := m } = .next t') : SameOutcome s m t t' := by
  dsimp only [execFrUnwrap] at h h'
  refine sameOutcome_conclude h h' (firstErr_cons_congr fun _ => firstErr_cons_congr fun h4 => ?_) fun hne => ?_
  · rw [failIf_eq_none, decide_eq_false_iff_not] at h4
    rw [declaredLength_congr hsrc h4]
  · rw [firstErr_cons_eq_none, firstErr_cons_eq_none, failIf_eq_none, decide_eq_false_iff_not] at hne
    obtain ⟨-, h4, -⟩ := hne
    refine sameOutcome_unchanged rfl ?_
    rw [declaredLength_congr hsrc h4]
    rfl

/-- The payload fits in the pixels, so every channel written is one of their bytes (R203). -/
theorem execLsbEmbed_sameOutcome (hw : Memory.wf s.mem = true) (hw' : Memory.wf m = true)
    (hsrc : AgreeOn s.mem m s.src.toNat s.len.toNat) (hdst : AgreeOn s.mem m s.dst.toNat (4 * s.pixcnt.toNat))
    (h : execLsbEmbed s = .next t) (h' : execLsbEmbed { s with mem := m } = .next t') : SameOutcome s m t t' := by
  dsimp only [execLsbEmbed] at h h'
  refine sameOutcome_conclude h h' rfl fun hne =>
    sameOutcome_embedBits hw hw' (l := readBytes s.mem s.src.toNat s.len.toNat) List.nodup_range (fun i hi => ?_) rfl ?_
  · simp only [firstErr_cons_eq_none, failIf_eq_none, decide_eq_false_iff_not] at hne
    unfold capacity at hne
    rw [List.mem_range] at hi
    exact hdst.read_chanAddr (by omega)
  · rw [readBytes_congr hsrc]
    rfl

/-- Pixels too few for a header are refused before its length is looked at, and a length that passes keeps the body inside the
pixels (R204, R252). -/
theorem execLsbExtract_sameOutcome (hw : Memory.wf s.mem = true) (hw' : Memory.wf m = true)
    (hsrc : AgreeOn s.mem m s.src.toNat (4 * s.pixcnt.toNat)) (h : execLsbExtract s = .next t)
    (h' : execLsbExtract { s with mem := m } = .next t') : SameOutcome s m t t' := by
  have hlen (h32 : ¬ 3 * s.pixcnt.toNat < 32) : stegoLength m s.src.toNat = stegoLength s.mem s.src.toNat :=
    stegoNumber_congr hsrc (by omega)
  dsimp only [execLsbExtract] at h h'
  generalize stegoLength s.mem s.src.toNat = l at h hlen
  generalize stegoLength m s.src.toNat = l' at h' hlen
  refine sameOutcome_conclude h h' (firstErr_cons_congr fun _ => firstErr_cons_congr fun h32 => ?_) fun hne =>
    sameOutcome_writeBytes hw hw' rfl ?_
  · rw [failIf_eq_none, decide_eq_false_iff_not] at h32
    rw [hlen h32]
    rfl
  · simp only [firstErr_cons_eq_none, failIf_eq_none, decide_eq_false_iff_not, Bool.or_eq_false_iff] at hne
    unfold availBytes at hne
    obtain ⟨-, h32, ⟨-, hfit⟩, -⟩ := hne
    rw [hlen h32, stegoBody_congr hsrc (by omega)]
    rfl

end

/-! ## Every command -/

/-- Two memories that agree on the read footprint of a command give it the same outcome (R124). -/
theorem exec_sameOutcome {i : Instr} {s t t' : State} {m : Memory} (hw : Memory.wf s.mem = true) (hw' : Memory.wf m = true)
    (hread : ∀ x, ReadsAt s x i → m.read x = s.mem.read x) (h : exec i s = .next t)
    (h' : exec i { s with mem := m } = .next t') : SameOutcome s m t t' := by
  cases i
  case nop | teaEnc | teaDec | teaErnd | teaDrnd | zero | lsbCap =>
    dsimp only [exec, execNop, execTeaEnc, execTeaDec, execTeaErnd, execTeaDrnd, execZero, execLsbCap] at h h'
    exact sameOutcome_conclude h h' rfl fun _ => sameOutcome_unchanged rfl rfl
  case blkSt | wSt | pad =>
    dsimp only [exec, execBlkSt, execWSt, execPad] at h h'
    exact sameOutcome_conclude h h' rfl fun _ => sameOutcome_writeBytes hw hw' rfl rfl
  case keyLd =>
    dsimp only [exec, execKeyLd] at h h'
    rw [keyBytes_congr fun x hle hlt => hread x ⟨hle, hlt⟩] at h'
    exact sameOutcome_conclude h h' rfl fun _ => sameOutcome_unchanged rfl rfl
  case blkLd | wLd | unpad =>
    have hsrc := readBytes_congr fun x hle hlt => hread x ⟨hle, hlt⟩
    dsimp only [exec, execBlkLd, execWLd, execUnpad] at h h'
    refine sameOutcome_conclude h h' rfl fun _ => sameOutcome_unchanged rfl ?_
    rw [hsrc]
    rfl
  case ecbEnc | ecbDec | msgEnc | msgDec =>
    have hsrc := sourceBytes_congr fun x hle hlt => hread x ⟨hle, hlt⟩
    dsimp only [exec, execEcbEnc, execEcbDec, execMsgEnc, execMsgDec] at h h'
    refine sameOutcome_conclude h h' rfl fun _ => sameOutcome_writeBytes hw hw' rfl ?_
    rw [hsrc]
    rfl
  case frWrap =>
    have hsrc := readBytes_congr fun x hle hlt => hread x ⟨hle, hlt⟩
    dsimp only [exec, execFrWrap] at h h'
    refine sameOutcome_conclude h h' rfl fun _ => sameOutcome_writeBytes hw hw' rfl ?_
    rw [hsrc]
    rfl
  case frUnwrap => exact execFrUnwrap_sameOutcome (fun x hle hlt => hread x ⟨hle, hlt⟩) h h'
  case lsbEmbed =>
    exact execLsbEmbed_sameOutcome hw hw' (fun x hle hlt => hread x (.inl ⟨hle, hlt⟩))
      (fun x hle hlt => hread x (.inr ⟨hle, hlt⟩)) h h'
  case lsbExtract => exact execLsbExtract_sameOutcome hw hw' (fun x hle hlt => hread x ⟨hle, hlt⟩) h h'
  case metDiff =>
    have hsums := diffMetrics_congr (fun x hle hlt => hread x (.inl ⟨hle, hlt⟩)) fun x hle hlt => hread x (.inr ⟨hle, hlt⟩)
    dsimp only [exec, execMetDiff] at h h'
    refine sameOutcome_conclude h h' rfl fun _ => sameOutcome_unchanged rfl ?_
    rw [hsums]
    rfl
  case metHist =>
    have hlums := lumList_congr fun x hle hlt => hread x ⟨hle, hlt⟩
    dsimp only [exec, execMetHist] at h h'
    refine sameOutcome_conclude h h' rfl fun _ => ?_
    dsimp only
    rw [hlums]
    generalize histBytes _ = bs
    exact sameOutcome_writeBytes hw hw' rfl rfl

/-- Settles O13: the model's read ranges are the table's, and each command computes the same from them. -/
theorem outcomeDependsOnTheReadFootprint : Obligations.OutcomeDependsOnTheReadFootprint := by
  intro i s m t t' hw hw' hagree h h'
  have hread : ∀ x, ReadsAt s x i → m.read x = s.mem.read x := fun x hx => by
    obtain ⟨r, hr, hrx⟩ := (readRanges_hold_iff i s x).2 hx
    exact hagree r hr x hrx
  have hsame := exec_sameOutcome hw hw' hread h h'
  exact ⟨hsame.registers, hsame.bytes⟩

end Sys2Proof.Proofs
end

section
/-! SUPPORT. The byte codec (`41_bytecodec.md` R140 to R144, `20_memory.md` R62): the big-endian words the loads take from memory,
and the bytes the stores leave there. -/

namespace Sys2Proof.Proofs

open Sys2Proof.Machine Sys2Proof.Laws Sys2Proof.Spec

/-- A command whose range check is its only check completes with its effect when the range fits (R64, R115). -/
theorem conclude_rangeCheck_pass {s : State} {a : Word} {n : Nat} {effect : State → State} (h : Fits s a.toNat n) :
    conclude [rangeCheck s a n] effect s = .next (effect s) :=
  conclude_skip ((rangeCheck_eq_none s a n).2 h)

/-! ## Loads -/

/-- `BE32` of bytes read from memory is the big-endian word at their address (R62). -/
theorem be32_readBytes (m : Memory) (a n j : Nat) (h : j + 4 ≤ n) : be32 (readBytes m a n) j = wordAt m (a + j) := by
  have hbyte (k : Nat) (hk : k < n) : (readBytes m a n).getD k 0 = m.read (a + k) := getD_readBytes m a n k hk
  rw [be32, hbyte j (by omega), hbyte (j + 1) (by omega), hbyte (j + 2) (by omega), hbyte (j + 3) (by omega)]
  rfl

/-- Settles O31: no alignment is checked, and the bytes read are those of the words. -/
theorem loadsAreBigEndian : Obligations.LoadsAreBigEndian := by
  refine fun s => ⟨fun hfit => ?_, fun hfit => ?_⟩
  · rw [exec_blkLd, execBlkLd, conclude_rangeCheck_pass hfit, be32_readBytes _ _ 8 0 (by omega),
      be32_readBytes _ _ 8 4 (by omega)]
    rfl
  · rw [exec_wLd, execWLd, conclude_rangeCheck_pass hfit, be32_readBytes _ _ 4 0 (by omega)]
    rfl

/-- Each of the 16 key bytes: from memory up to LEN, zero from there on (R140). -/
theorem getD_keyBytes (s : State) (j : Nat) (h : j < 16) : (keyBytes s).getD j 0 = keyByte s j := by
  have hn : keyLength s = min s.len.toNat 16 := rfl
  by_cases hj : j < s.len.toNat
  · rw [keyBytes, List.getD_append _ _ _ _ (by rw [length_readBytes]; omega), keyByte, if_pos hj]
    exact getD_readBytes _ _ _ _ (by omega)
  · rw [keyBytes, List.getD_append_right _ _ _ _ (by rw [length_readBytes]; omega), keyByte, if_neg hj, rep]
    exact List.getD_replicate _ (by rw [length_readBytes]; omega)

theorem be32_keyBytes (s : State) (j : Nat) (h : j + 4 ≤ 16) :
    be32 (keyBytes s) j = keyByte s j ++ keyByte s (j + 1) ++ keyByte s (j + 2) ++ keyByte s (j + 3) := by
  rw [be32, getD_keyBytes s j (by omega), getD_keyBytes s (j + 1) (by omega), getD_keyBytes s (j + 2) (by omega),
    getD_keyBytes s (j + 3) (by omega)]

/-- Settles O30: the checked length is that of the bytes read, and the four words are those of the 16 key bytes. -/
theorem keyLoadPadsAndTruncates : Obligations.KeyLoadPadsAndTruncates := by
  intro s hfit
  rw [exec_keyLd, execKeyLd, be32_keyBytes s 0 (by omega), be32_keyBytes s 4 (by omega), be32_keyBytes s 8 (by omega),
    be32_keyBytes s 12 (by omega)]
  exact conclude_rangeCheck_pass hfit

/-! ## Stores -/

/-- Byte `i` of `BYTES32(w)`, the most significant byte first (R9). -/
theorem getElem_bytes32 (w : Word) (i : Nat) (h : i < (bytes32 w).length) : (bytes32 w)[i] = w.extractLsb' (24 - 8 * i) 8 := by
  match i, h with
  | 0, _ | 1, _ | 2, _ | 3, _ => rfl

/-- A word written among other bytes reads back big-endian at its place (R62). -/
theorem read_writeBytes_word {m : Memory} (a : Nat) (l : List Byte) (w : Word) (l' : List Byte) {i : Nat}
    (hw : Memory.wf m = true) (hi : i < 4) :
    (writeBytes m a (l ++ (bytes32 w ++ l'))).read (a + l.length + i) = w.extractLsb' (24 - 8 * i) 8 := by
  have hlen : i < (bytes32 w).length := hi
  rw [Nat.add_assoc, read_writeBytes_at _ _ _ _ hw (by simp; omega), List.getElem_append_right (by omega)]
  simp only [Nat.add_sub_cancel_left, List.getElem_append_left hlen, getElem_bytes32]

/-- `MemWrite` changes no byte outside its range (R10). -/
theorem sameOutside_writeBytes {m : Memory} (a : Nat) (l : List Byte) (hw : Memory.wf m = true) :
    SameOutside m (writeBytes m a l) a l.length :=
  fun x hx => read_writeBytes_out m a l x hw hx

/-- Settles O32: the bytes written are those of the words, and `MemWrite` leaves the others. -/
theorem storesAreBigEndian : Obligations.StoresAreBigEndian := by
  intro s hw
  rw [exec_blkSt, execBlkSt, exec_wSt, execWSt]
  refine ⟨fun hfit => ⟨_, conclude_rangeCheck_pass hfit, fun i hi => ⟨?_, ?_⟩, sameOutside_writeBytes _ _ hw⟩,
    fun hfit => ⟨_, conclude_rangeCheck_pass hfit, fun i hi => ?_, sameOutside_writeBytes _ _ hw⟩⟩
  · exact read_writeBytes_word _ [] s.v0 (bytes32 s.v1) hw hi
  · exact read_writeBytes_word _ (bytes32 s.v0) s.v1 [] hw hi
  · exact read_writeBytes_word _ [] s.v0 [] hw hi

end Sys2Proof.Proofs
end

section
/-! SUPPORT. The padding (`42_padding.md` R150 to R154): what `unpad` finds at the end of the bytes it is given, and the bytes PAD
leaves there. -/

namespace Sys2Proof.Proofs

open Sys2Proof.Machine Sys2Proof.Laws Sys2Proof.Spec

/-! ## UNPAD -/

/-- The length of a valid padding is its last byte (R152). -/
theorem toNat_read_last_of_paddingOf {m : Memory} {a n p : Nat} (h : PaddingOf m a n p) : (m.read (a + n - 1)).toNat = p := by
  obtain ⟨h1, h8, -, hbytes⟩ := h
  have hlast : m.read (a + n - 1) = BitVec.ofNat 8 p := hbytes 0 h1
  rw [hlast, BitVec.toNat_ofNat, Nat.mod_eq_of_lt (by omega)]

/-- The last `p` bytes read are all `b` exactly when the last `p` bytes of the range in memory are. -/
theorem all_drop_readBytes_iff {m : Memory} {a n p : Nat} (b : Byte) (h : p ≤ n) :
    ((readBytes m a n).drop (n - p)).all (· == b) = true ↔ ∀ i < p, m.read (a + n - 1 - i) = b := by
  have hlen : ((readBytes m a n).drop (n - p)).length = p := by rw [List.length_drop, length_readBytes]; omega
  simp only [List.all_eq_true, beq_iff_eq, List.forall_mem_iff_forall_getElem, hlen, List.getElem_drop, getElem_readBytes]
  refine ⟨fun hall i hi => ?_, fun hall i hi => ?_⟩
  · have hi' := hall (p - 1 - i) (by omega)
    rwa [show a + (n - p + (p - 1 - i)) = a + n - 1 - i by omega] at hi'
  · have hi' := hall (p - 1 - i) (by omega)
    rwa [show a + n - 1 - (p - 1 - i) = a + (n - p + i) by omega] at hi'

/-- `unpad` of a string that is not empty looks at the padding its last byte declares: it strips a valid one, and leaves the string
alone otherwise (R152). -/
theorem unpadBytes_readBytes_cases (m : Memory) (a : Nat) {n : Nat} (hn : 0 < n) :
    (PaddingOf m a n (m.read (a + n - 1)).toNat
        ∧ unpadBytes (readBytes m a n) = ((readBytes m a n).take (n - (m.read (a + n - 1)).toNat), true))
      ∨ ¬ PaddingOf m a n (m.read (a + n - 1)).toNat ∧ unpadBytes (readBytes m a n) = (readBytes m a n, false) := by
  have hlast : (readBytes m a n).getD (n - 1) 0#8 = m.read (a + n - 1) := by
    rw [getD_readBytes _ _ _ _ (by omega), Nat.add_sub_assoc hn]
  simp only [unpadBytes, length_readBytes, if_neg hn.ne', hlast, PaddingOf, BitVec.ofNat_toNat, BitVec.setWidth_eq]
  generalize m.read (a + n - 1) = b
  split_ifs with hrange hlong hall
  · exact .inr ⟨fun ⟨h1, h8, _⟩ => by omega, rfl⟩
  · exact .inr ⟨fun ⟨_, _, hle, _⟩ => by omega, rfl⟩
  · exact .inl ⟨⟨by omega, by omega, by omega, (all_drop_readBytes_iff b (by omega)).1 hall⟩, rfl⟩
  · exact .inr ⟨fun ⟨_, _, hle, hbytes⟩ => hall ((all_drop_readBytes_iff b hle).2 hbytes), rfl⟩

/-- The model's `unpad` of bytes in memory says of them what R152 does. -/
theorem unpads_unpadBytes (m : Memory) (a : Nat) {n : Nat} (hn : n < 2 ^ 32) :
    Unpads m a n (BitVec.ofNat 32 (unpadBytes (readBytes m a n)).1.length) (!(unpadBytes (readBytes m a n)).2) := by
  rcases Nat.eq_zero_or_pos n with rfl | hpos
  · exact ⟨fun _ => ⟨rfl, rfl⟩, fun p ⟨h1, _, hle, _⟩ => by omega, fun h => absurd h (lt_irrefl 0)⟩
  rcases unpadBytes_readBytes_cases m a hpos with ⟨hpad, hu⟩ | ⟨hbad, hu⟩ <;> rw [hu]
  · refine ⟨fun h0 => absurd h0 hpos.ne', fun p hp => ⟨?_, rfl⟩, fun _ hnone => absurd hpad (hnone _)⟩
    rw [toNat_read_last_of_paddingOf hp, List.length_take, length_readBytes, BitVec.toNat_ofNat]
    omega
  · refine ⟨fun h0 => absurd h0 hpos.ne', fun p hp => ?_, fun _ _ => ⟨?_, rfl⟩⟩
    · exact absurd ((toNat_read_last_of_paddingOf hp).symm ▸ hp) hbad
    · rw [length_readBytes, BitVec.toNat_ofNat, Nat.mod_eq_of_lt hn]

/-- Settles O35: UNPAD completes with what `unpad` says of the bytes at SRC, which R152 says too. -/
theorem unpadFailsOpen : Obligations.UnpadFailsOpen := by
  intro s hfit
  rw [exec_unpad, execUnpad]
  exact ⟨_, _, conclude_rangeCheck_pass hfit, unpads_unpadBytes s.mem s.src.toNat s.len.isLt⟩

/-! ## PAD -/

/-- Each byte of the padding of `n` bytes is its length (R150). -/
theorem getElem_padding (n i : Nat) (h : i < (padding n).length) : (padding n)[i] = BitVec.ofNat 8 (padLength n) :=
  List.getElem_replicate _

/-- A padded length that fits in memory fits in a register (R64, R151). -/
theorem padded_lt_of_fits {s : State} {a n : Nat} (hp : s.plat.wf = true) (h : Fits s a (padded n)) : padded n < 2 ^ 32 := by
  simp only [Platform.wf, Bool.and_eq_true, decide_eq_true_eq] at hp
  omega

/-- Settles O34: PAD writes the padding, `padLen` bytes, behind the string, and its RESULT fits in 32 bits. -/
theorem padAppendsThePadding : Obligations.PadAppendsThePadding := by
  intro s hw hp hfit
  have hlen : (padding s.len.toNat).length = 8 - s.len.toNat % 8 := length_padding _
  rw [exec_pad, execPad]
  refine ⟨_, _, conclude_rangeCheck_pass hfit, ?_, fun i hi => ?_, ?_⟩
  · exact (BitVec.toNat_ofNat ..).trans (Nat.mod_eq_of_lt (padded_lt_of_fits hp hfit))
  · rw [read_writeBytes_at _ _ _ _ hw (by omega), getElem_padding]
    rfl
  · exact hlen ▸ sameOutside_writeBytes _ _ hw

/-! ## PAD, then UNPAD -/

/-- A PAD that succeeds had its range in memory (R151). -/
theorem fits_of_pad_success {s t : State} (h : exec .pad s = .next t) (hok : t.status.errcode = 0#8) :
    Fits s s.dst.toNat (padded s.len.toNat) := by
  by_contra hfit
  obtain ⟨-, -, -, -, -, -, hpad⟩ := singleRangeErrors s
  cases h.symm.trans (hpad hfit)
  cases hok

/-- The bytes PAD leaves behind a string of `n` bytes are a valid padding of the padded string (R150, R152). -/
theorem paddingOf_padded {m : Memory} {a n : Nat}
    (h : ∀ i < 8 - n % 8, m.read (a + n + i) = BitVec.ofNat 8 (8 - n % 8)) : PaddingOf m a (padded n) (8 - n % 8) := by
  unfold padded
  refine ⟨by omega, by omega, by omega, fun i hi => ?_⟩
  have hi' := h (8 - n % 8 - 1 - i) (by omega)
  rwa [show a + n + (8 - n % 8 - 1 - i) = a + (n + (8 - n % 8)) - 1 - i by omega] at hi'

/-- Settles O36: PAD leaves a valid padding of `padLen` bytes, and UNPAD takes `padLen` from the padded length again. -/
theorem unpadInvertsPad : Obligations.UnpadInvertsPad := by
  intro s t u hw hp hpad hok hunpad
  have hfit := fits_of_pad_success hpad hok
  obtain ⟨m, r, hpad', hr, hbytes, -⟩ := padAppendsThePadding s hw hp hfit
  cases hpad.symm.trans hpad'
  obtain ⟨r', bad, hunpad', hsays⟩ :=
    unpadFailsOpen { afterSuccess false { s with mem := m, result := r } with src := s.dst, len := r } (hr ▸ hfit)
  cases hunpad.symm.trans hunpad'
  obtain ⟨-, hvalid, -⟩ := hsays
  obtain ⟨hr', hbad⟩ := hvalid (8 - s.len.toNat % 8) (hr ▸ paddingOf_padded hbytes)
  refine ⟨rfl, hbad, BitVec.eq_of_toNat_eq ?_⟩
  calc r'.toNat = r.toNat - (8 - s.len.toNat % 8) := hr'
    _ = s.len.toNat := by rw [hr, Nat.add_sub_cancel]

end Sys2Proof.Proofs
end

section
/-! SUPPORT. The block cipher commands (`43_tea.md` R160 to R166): what each does to the state, and why bit 31 of a half of the key
does not matter. -/

namespace Sys2Proof.Proofs

open Sys2Proof.Machine Sys2Proof.Laws Sys2Proof.Spec

/-! ## The stepped commands -/

/-- `s` after a stepped command of `n` rounds: V0, V1 and SUM go through the rounds under the key registers (R163, R164). -/
def stepped (round : Key → TeaState → TeaState) (n : Nat) (s : State) : State :=
  let t := (round (keyOf s))^[n] (teaOf s)
  afterSuccess false { s with v0 := t.v0, v1 := t.v1, sum := t.sum }

/-- TEA_ERND makes no check, so it completes from every state (R163). -/
theorem exec_teaErnd_eq_stepped (cnt : BitVec 5) (s : State) :
    exec (.teaErnd cnt) s = .next (stepped encRound (rounds cnt) s) := rfl

/-- TEA_DRND makes no check, so it completes from every state (R164). -/
theorem exec_teaDrnd_eq_stepped (cnt : BitVec 5) (s : State) :
    exec (.teaDrnd cnt) s = .next (stepped decRound (rounds cnt) s) := rfl

@[simp] theorem keyOf_stepped (round : Key → TeaState → TeaState) (n : Nat) (s : State) :
    keyOf (stepped round n s) = keyOf s := rfl

@[simp] theorem teaOf_stepped (round : Key → TeaState → TeaState) (n : Nat) (s : State) :
    teaOf (stepped round n s) = (round (keyOf s))^[n] (teaOf s) := rfl

/-- A second stepped command overwrites what the first one wrote, and goes on from its block and sum (R166 law 3). -/
theorem stepped_stepped (round : Key → TeaState → TeaState) (m n : Nat) (s : State) :
    stepped round m (stepped round n s) = stepped round (m + n) s := by
  rw [stepped, keyOf_stepped, teaOf_stepped, ← Function.iterate_add_apply]
  rfl

/-- Settles O24: with CNT = 0 the stepped commands run `encRound` and `decRound` once. -/
theorem oneTeaRound : Obligations.OneTeaRound := fun s =>
  ⟨exec_teaErnd_eq_stepped 0#5 s, exec_teaDrnd_eq_stepped 0#5 s⟩

/-- Settles O25, by the composition of the iterated round. -/
theorem teaRoundsCompose : Obligations.TeaRoundsCompose := by
  intro c d e s t u hsum
  have hrounds : rounds d + rounds c = rounds e := (Nat.add_comm _ _).trans hsum
  simp only [exec_teaErnd_eq_stepped, exec_teaDrnd_eq_stepped, ← hrounds, ← stepped_stepped]
  exact ⟨by rintro ⟨⟩ ⟨⟩; rfl, by rintro ⟨⟩ ⟨⟩; rfl⟩

/-- Settles O26: every round moves the sum by DELTA. -/
theorem steppedRoundsMoveSum : Obligations.SteppedRoundsMoveSum := by
  intro cnt s
  have henc := encRound_sum (keyOf s) (rounds cnt) (teaOf s)
  have hdec := decRound_sum (keyOf s) (rounds cnt) (teaOf s)
  rw [exec_teaErnd_eq_stepped, exec_teaDrnd_eq_stepped, stepped, stepped, henc, hdec]
  exact ⟨⟨_, _, rfl⟩, _, _, rfl⟩

/-! ## The whole-block commands -/

/-- `s` after a command that puts the block V0, V1 through `f` under the key registers (R161, R162). -/
def throughBlock (f : Key → Word → Word → Word × Word) (s : State) : State :=
  afterSuccess false { s with v0 := (f (keyOf s) s.v0 s.v1).1, v1 := (f (keyOf s) s.v0 s.v1).2 }

/-- TEA_ENC makes no check, so it completes from every state (R161). -/
theorem exec_teaEnc_eq_throughBlock (s : State) : exec .teaEnc s = .next (throughBlock encryptBlock s) := rfl

/-- TEA_DEC makes no check, so it completes from every state (R162). -/
theorem exec_teaDec_eq_throughBlock (s : State) : exec .teaDec s = .next (throughBlock decryptBlock s) := rfl

/-- A command whose block function undoes the one before restores V0 and V1 (R166 law 1). -/
theorem throughBlock_throughBlock {f g : Key → Word → Word → Word × Word} (hinv : ∀ k a b, g k (f k a b).1 (f k a b).2 = (a, b))
    (s : State) : throughBlock g (throughBlock f s) = afterSuccess false s := by
  calc throughBlock g (throughBlock f s)
    _ = let p := g (keyOf s) (f (keyOf s) s.v0 s.v1).1 (f (keyOf s) s.v0 s.v1).2
        afterSuccess false { s with v0 := p.1, v1 := p.2 } := rfl
    _ = afterSuccess false s := by rw [hinv]

/-- Settles O28: the block functions undo one another under every key. -/
theorem teaDecInvertsTeaEnc : Obligations.TeaDecInvertsTeaEnc := by
  intro s t u
  simp only [exec_teaEnc_eq_throughBlock, exec_teaDec_eq_throughBlock]
  constructor
  · rintro ⟨⟩ ⟨⟩
    exact throughBlock_throughBlock decryptBlock_encryptBlock s
  · rintro ⟨⟩ ⟨⟩
    exact throughBlock_throughBlock encryptBlock_decryptBlock s

/-- Settles O27: CNT = 31 runs 32 rounds, which move the sum from 0 to `32 * DELTA` and back. -/
theorem wholeBlockIs32Rounds : Obligations.WholeBlockIs32Rounds := by
  intro s
  have henc : 0#32 + 32#32 * delta = decStart := by decide
  have hdec : decStart - 32#32 * delta = 0#32 := by decide
  exact ⟨⟨_, exec_teaErnd_eq_stepped 31#5 _, (encRound_sum _ 32 _).trans henc, exec_teaEnc_eq_throughBlock s⟩,
    _, exec_teaDrnd_eq_stepped 31#5 _, (decRound_sum _ 32 _).trans hdec, exec_teaDec_eq_throughBlock s⟩

/-! ## Equivalent keys -/

/-- Flipping the top bit of a word is adding it: no bit below it is set, so nothing carries into it. -/
theorem xor_topBit (x : Word) : x ^^^ 0x80000000#32 = x + 0x80000000#32 := by
  refine BitVec.eq_of_getLsbD_eq fun i hi => ?_
  have hlow : 0x80000000 % 2 ^ i = 0 := Nat.mod_eq_zero_of_dvd (Nat.pow_dvd_pow 2 (show i ≤ 31 by omega))
  have hcarry : BitVec.carry i x 0x80000000#32 false = false := by
    simpa [BitVec.carry, hlow] using Nat.mod_lt x.toNat (Nat.two_pow_pos i)
  simp [BitVec.getLsbD_add hi, hcarry]

/-- A flip of the top bit of a summand flips the top bit of the sum. -/
theorem add_xor_topBit (x y : Word) : x + (y ^^^ 0x80000000#32) = (x + y) ^^^ 0x80000000#32 := by
  rw [xor_topBit, xor_topBit, BitVec.add_assoc]

/-- The two flips of a half of the key cancel in F, which takes the exclusive or of the two sums (R166 law 4). -/
theorem teaF_flip (x c ka kb : Word) : teaF x c (ka ^^^ 0x80000000#32) (kb ^^^ 0x80000000#32) = teaF x c ka kb := by
  calc teaF x c (ka ^^^ 0x80000000#32) (kb ^^^ 0x80000000#32)
    _ = (((x <<< 4) + ka) ^^^ 0x80000000#32) ^^^ (x + c) ^^^ (((x >>> 5) + kb) ^^^ 0x80000000#32) := by
      rw [teaF, add_xor_topBit, add_xor_topBit]
    _ = teaF x c ka kb ^^^ (0x80000000#32 ^^^ 0x80000000#32) := by rw [teaF]; ac_rfl
    _ = teaF x c ka kb := by rw [BitVec.xor_self, BitVec.xor_zero]

/-- A round takes K0 and K1 through F alone. -/
theorem encRound_flip_k0_k1 (k : Key) :
    encRound { k with k0 := k.k0 ^^^ 0x80000000#32, k1 := k.k1 ^^^ 0x80000000#32 } = encRound k := by
  funext t
  simp only [encRound, teaF_flip]

/-- A round takes K2 and K3 through F alone. -/
theorem encRound_flip_k2_k3 (k : Key) :
    encRound { k with k2 := k.k2 ^^^ 0x80000000#32, k3 := k.k3 ^^^ 0x80000000#32 } = encRound k := by
  funext t
  simp only [encRound, teaF_flip]

/-- TEA_ENC sees of the key only what a round makes of it. -/
theorem throughBlock_encryptBlock_congr {s s' : State} (hkey : encRound (keyOf s') = encRound (keyOf s)) (hv0 : s'.v0 = s.v0)
    (hv1 : s'.v1 = s.v1) : (throughBlock encryptBlock s').v0 = (throughBlock encryptBlock s).v0
      ∧ (throughBlock encryptBlock s').v1 = (throughBlock encryptBlock s).v1 := by
  have hblock : encryptBlock (keyOf s') s'.v0 s'.v1 = encryptBlock (keyOf s) s.v0 s.v1 := by
    simp only [encryptBlock, hkey, hv0, hv1]
  exact ⟨congrArg Prod.fst hblock, congrArg Prod.snd hblock⟩

/-- Settles O29: a round under the key with a half flipped is a round under the key. -/
theorem equivalentKeysEncryptAlike : Obligations.EquivalentKeysEncryptAlike := by
  intro s t u
  simp only [exec_teaEnc_eq_throughBlock]
  rintro ⟨⟩
  constructor
  · rintro ⟨⟩
    exact throughBlock_encryptBlock_congr (encRound_flip_k0_k1 (keyOf s)) rfl rfl
  · rintro ⟨⟩
    exact throughBlock_encryptBlock_congr (encRound_flip_k2_k3 (keyOf s)) rfl rfl

end Sys2Proof.Proofs
end

section
/-! SUPPORT. The message commands (`44_message.md` R180 to R185, `60_exceptions.md` R252): their checks in order, the blocks they
write, and why MSG_DEC undoes MSG_ENC. -/

namespace Sys2Proof.Proofs

open Sys2Proof.Machine Sys2Proof.Laws Sys2Proof.Spec

/-! ## The commands as checks and an effect -/

/-- Memory after a command that puts the blocks of `[SRC, SRC + LEN)` through `f` into `[DST, DST + LEN)` (R181, R182, R184). -/
def blocksWritten (f : Word → Word → Word × Word) (s : State) : Memory :=
  writeBytes s.mem s.dst.toNat (ecbBlocks f ((sourceBytes s).length / 8) (sourceBytes s))

/-- `s` after an ECB command that succeeds, `f` its block function (R181, R182). -/
def throughBlocks (f : Key → Word → Word → Word × Word) (s : State) : State :=
  afterSuccess false { s with mem := blocksWritten (f (keyOf s)) s, result := s.len }

/-- `s` after a MSG_DEC that succeeds (R184). -/
def decryptedMessage (s : State) : State :=
  let u := unpadBytes (ecbDec (keyOf s) (sourceBytes s))
  afterSuccess (!u.2) { s with mem := blocksWritten (decryptBlock (keyOf s)) s, result := BitVec.ofNat 32 u.1.length }

/-- `s` after a MSG_ENC that succeeds (R183). -/
def encryptedMessage (s : State) : State :=
  afterSuccess false
    { s with
      mem := writeBytes s.mem s.dst.toNat (ecbEnc (keyOf s) (padBytes (sourceBytes s)))
      result := BitVec.ofNat 32 (padded s.len.toNat) }

/-- The checks of MSG_ENC, in their order (R183, R252). -/
def msgEncChecks (s : State) : List (Option Err) :=
  [rangeCheck s s.src s.len.toNat, rangeCheck s s.dst (padded s.len.toNat), messageOverlap s (padded s.len.toNat)]

theorem exec_ecbEnc_eq_conclude (s : State) : exec .ecbEnc s = conclude (blockChecks s) (throughBlocks encryptBlock) s := rfl

theorem exec_ecbDec_eq_conclude (s : State) : exec .ecbDec s = conclude (blockChecks s) (throughBlocks decryptBlock) s := rfl

theorem exec_msgDec_eq_conclude (s : State) : exec .msgDec s = conclude (blockChecks s) decryptedMessage s := rfl

theorem exec_msgEnc_eq_conclude (s : State) : exec .msgEnc s = conclude (msgEncChecks s) encryptedMessage s := by
  have hlen : paddedLength s.len.toNat = padded s.len.toNat := paddedLength_eq _
  rw [exec_msgEnc, execMsgEnc, hlen]
  rfl

/-! ## The checks -/

/-- A command that ends without an error code passed every check and made its effect (R115 to R117). -/
theorem conclude_success {cs : List (Option Err)} {effect : State → State} {s t : State} (h : conclude cs effect s = .next t)
    (hok : t.status.errcode = 0#8) : firstErr cs = none ∧ t = effect s := by
  rcases conclude_cases h with hpass | ⟨e, info, -, rfl⟩
  · exact hpass
  · exact absurd hok (errCodeBits_range e).1

/-- A range check that passes drops out (R64). -/
theorem conclude_rangeCheck_skip {s : State} {a : Word} {n : Nat} {cs : List (Option Err)} {effect : State → State}
    (h : Fits s a.toNat n) : conclude (rangeCheck s a n :: cs) effect s = conclude cs effect s :=
  conclude_skip ((rangeCheck_eq_none s a n).2 h)

/-- An overlap check that fails is the error the command ends in (R65, R117, R252). -/
theorem conclude_overlapCheck_fail {s : State} {n m : Nat} {cs : List (Option Err)} {effect : State → State}
    (h : Shares s.src.toNat n s.dst.toNat m) :
    conclude (overlapCheck s n m :: cs) effect s = .next (afterError 0x03#8 s.dst s) := by
  have hc : overlapCheck s n m = some (.overlap, s.dst) := by rw [overlapCheck, (overlap_iff ..).2 h, failIf_true]
  exact conclude_fail hc

/-- The overlap check of the message commands passes exactly when the ranges are apart or the command runs in place (R65). -/
theorem messageOverlap_eq_none (s : State) (m : Nat) : messageOverlap s m = none ↔ ApartOrInPlace s s.len.toNat m := by
  rw [messageOverlap]
  split_ifs with hplace
  · exact iff_of_true rfl (.inl hplace)
  · exact (overlapCheck_eq_none ..).trans (or_iff_right hplace).symm

theorem conclude_messageOverlap_fail {s : State} {m : Nat} {cs : List (Option Err)} {effect : State → State}
    (h : ¬ ApartOrInPlace s s.len.toNat m) :
    conclude (messageOverlap s m :: cs) effect s = .next (afterError 0x03#8 s.dst s) := by
  obtain ⟨hplace, hshare⟩ := not_or.1 h
  rw [messageOverlap, if_neg hplace]
  exact conclude_overlapCheck_fail (not_not.1 hshare)

/-- The checks of the commands on whole blocks pass exactly under the premises of R181. -/
theorem firstErr_blockChecks_eq_none (s : State) : firstErr (blockChecks s) = none ↔
    Fits s s.src.toNat s.len.toNat ∧ Fits s s.dst.toNat s.len.toNat ∧ ApartOrInPlace s s.len.toNat s.len.toNat
      ∧ s.len.toNat % 8 = 0 := by
  simp only [blockChecks, firstErr_cons_eq_none, rangeCheck_eq_none, messageOverlap_eq_none, failIf_eq_none, bne_eq_false_iff_eq,
    firstErr, and_true]

/-- The checks of MSG_ENC pass exactly under the premises of R183. -/
theorem firstErr_msgEncChecks_eq_none (s : State) : firstErr (msgEncChecks s) = none ↔
    Fits s s.src.toNat s.len.toNat ∧ Fits s s.dst.toNat (padded s.len.toNat)
      ∧ ApartOrInPlace s s.len.toNat (padded s.len.toNat) := by
  simp only [msgEncChecks, firstErr_cons_eq_none, rangeCheck_eq_none, messageOverlap_eq_none, firstErr, and_true]

/-- The errors of the commands on whole blocks, in the order of their checks (R181, R252). -/
theorem conclude_blockChecks_errors (effect : State → State) (s : State) :
    (¬ Fits s s.src.toNat s.len.toNat → conclude (blockChecks s) effect s = .next (afterError 0x02#8 s.src s))
    ∧ (Fits s s.src.toNat s.len.toNat → ¬ Fits s s.dst.toNat s.len.toNat →
        conclude (blockChecks s) effect s = .next (afterError 0x02#8 s.dst s))
    ∧ (Fits s s.src.toNat s.len.toNat → Fits s s.dst.toNat s.len.toNat → ¬ ApartOrInPlace s s.len.toNat s.len.toNat →
        conclude (blockChecks s) effect s = .next (afterError 0x03#8 s.dst s))
    ∧ (Fits s s.src.toNat s.len.toNat → Fits s s.dst.toNat s.len.toNat → ApartOrInPlace s s.len.toNat s.len.toNat →
        s.len.toNat % 8 ≠ 0 → conclude (blockChecks s) effect s = .next (afterError 0x04#8 s.len s)) := by
  refine ⟨conclude_rangeCheck_fail, fun hsrc hdst => ?_, fun hsrc hdst hshare => ?_, fun hsrc hdst hapart hlen => ?_⟩
    <;> rw [blockChecks, conclude_rangeCheck_skip hsrc]
  · exact conclude_rangeCheck_fail hdst
  · rw [conclude_rangeCheck_skip hdst]
    exact conclude_messageOverlap_fail hshare
  · rw [conclude_rangeCheck_skip hdst, conclude_skip ((messageOverlap_eq_none ..).2 hapart), bne_iff_ne.2 hlen]
    exact conclude_fail (failIf_true ..)

/-- Settles O42: each clause skips the checks that pass and ends at the first that fails. -/
theorem messageErrorOrder : Obligations.MessageErrorOrder := by
  intro s
  rw [exec_msgEnc_eq_conclude, msgEncChecks, exec_frWrap, execFrWrap]
  refine ⟨fun i hi => ?_, fun hsrc => ⟨conclude_rangeCheck_fail hsrc, conclude_rangeCheck_fail hsrc⟩, fun hsrc hdst => ?_,
    fun hsrc hdst hshare => ?_, fun hsrc hdst => ?_, fun hsrc hdst hplace hshare => ?_⟩
  · simp only [List.mem_cons, List.not_mem_nil, or_false] at hi
    obtain ⟨effect, heffect⟩ : ∃ effect, exec i s = conclude (blockChecks s) effect s := by
      rcases hi with rfl | rfl | rfl
      · exact ⟨_, exec_ecbEnc_eq_conclude s⟩
      · exact ⟨_, exec_ecbDec_eq_conclude s⟩
      · exact ⟨_, exec_msgDec_eq_conclude s⟩
    exact heffect ▸ conclude_blockChecks_errors effect s
  · rw [conclude_rangeCheck_skip hsrc]
    exact conclude_rangeCheck_fail hdst
  · rw [conclude_rangeCheck_skip hsrc, conclude_rangeCheck_skip hdst]
    exact conclude_messageOverlap_fail hshare
  · rw [conclude_rangeCheck_skip hsrc]
    exact conclude_rangeCheck_fail hdst
  · rw [conclude_rangeCheck_skip hsrc, conclude_rangeCheck_skip hdst, wrapInPlace, decide_eq_false hplace]
    exact conclude_overlapCheck_fail hshare

/-! ## The blocks written -/

/-- A word of written bytes reads back as `BE32` of the bytes (R62). -/
theorem wordAt_writeBytes {m : Memory} (a : Nat) {l : List Byte} {j : Nat} (hw : Memory.wf m = true) (h : j + 4 ≤ l.length) :
    wordAt (writeBytes m a l) (a + j) = be32 l j := by
  rw [← be32_readBytes _ _ _ _ h, readBytes_writeBytes hw rfl]

/-- A string of whole blocks keeps its length through a block function (R180). -/
theorem length_ecbBlocks_whole (f : Word → Word → Word × Word) {l : List Byte} (h8 : l.length % 8 = 0) :
    (ecbBlocks f (l.length / 8) l).length = l.length := by
  rw [length_ecbBlocks]
  omega

/-- Each block written is the block function of the block at its place in the string (R180). -/
theorem words_writeBytes_ecbBlocks (f : Word → Word → Word × Word) {m : Memory} (b : Nat) {l : List Byte} {j : Nat}
    (hw : Memory.wf m = true) (h8 : l.length % 8 = 0) (hj : 8 * j < l.length) :
    (wordAt (writeBytes m b (ecbBlocks f (l.length / 8) l)) (b + 8 * j),
      wordAt (writeBytes m b (ecbBlocks f (l.length / 8) l)) (b + 8 * j + 4)) = f (be32 l (8 * j)) (be32 l (8 * j + 4)) := by
  have hlen := length_ecbBlocks_whole f h8
  rw [Nat.add_assoc b, wordAt_writeBytes b hw (by omega), wordAt_writeBytes b hw (by omega)]
  exact ecbBlocks_words f _ l j (by omega)

/-- Whole blocks written change no byte outside their range (R181). -/
theorem sameOutside_writeBytes_ecbBlocks (f : Word → Word → Word × Word) {m : Memory} (b : Nat) {l : List Byte}
    (hw : Memory.wf m = true) (h8 : l.length % 8 = 0) :
    SameOutside m (writeBytes m b (ecbBlocks f (l.length / 8) l)) b l.length := by
  have hout := sameOutside_writeBytes b (ecbBlocks f (l.length / 8) l) hw
  rwa [length_ecbBlocks_whole f h8] at hout

@[simp] theorem length_sourceBytes (s : State) : (sourceBytes s).length = s.len.toNat := length_readBytes ..

section
variable (f : Word → Word → Word × Word) {s : State} (hw : Memory.wf s.mem = true) (h8 : s.len.toNat % 8 = 0)
include hw h8

theorem blocksThrough_blocksWritten : BlocksThrough f s.mem (blocksWritten f s) s.src.toNat s.dst.toNat s.len.toNat := by
  intro j hj
  have hlen := length_sourceBytes s
  rw [blocksWritten, words_writeBytes_ecbBlocks f s.dst.toNat hw (hlen ▸ h8) (hlen ▸ hj), sourceBytes,
    be32_readBytes _ _ _ _ (by omega), be32_readBytes _ _ _ _ (by omega), Nat.add_assoc]

theorem sameOutside_blocksWritten : SameOutside s.mem (blocksWritten f s) s.dst.toNat s.len.toNat := by
  have hlen := length_sourceBytes s
  exact hlen ▸ sameOutside_writeBytes_ecbBlocks f s.dst.toNat hw (hlen ▸ h8)

/-- `MemRead` gives back the transformed blocks. -/
theorem readBytes_blocksWritten : readBytes (blocksWritten f s) s.dst.toNat s.len.toNat
    = ecbBlocks f ((sourceBytes s).length / 8) (sourceBytes s) := by
  have hlen := length_sourceBytes s
  exact readBytes_writeBytes hw (hlen.symm.trans (length_ecbBlocks_whole f (hlen ▸ h8)).symm)

end

/-- Settles O37: past the checks both commands write the source's blocks through their block function. -/
theorem ecbTransformsEachBlock : Obligations.EcbTransformsEachBlock := by
  intro s hw hsrc hdst hapart h8
  have hpass := (firstErr_blockChecks_eq_none s).2 ⟨hsrc, hdst, hapart, h8⟩
  rw [exec_ecbEnc_eq_conclude, exec_ecbDec_eq_conclude, conclude_none _ s hpass, conclude_none _ s hpass]
  exact ⟨⟨_, rfl, blocksThrough_blocksWritten _ hw h8, sameOutside_blocksWritten _ hw h8⟩,
    _, rfl, blocksThrough_blocksWritten _ hw h8, sameOutside_blocksWritten _ hw h8⟩

/-- Settles O40: the bytes at DST afterwards are the decrypted ones, and `unpad` says of them what R152 does. -/
theorem msgDecDecryptsAndUnpads : Obligations.MsgDecDecryptsAndUnpads := by
  intro s hw hsrc hdst hapart h8
  have hpass := (firstErr_blockChecks_eq_none s).2 ⟨hsrc, hdst, hapart, h8⟩
  have hsays := unpads_unpadBytes (blocksWritten (decryptBlock (keyOf s)) s) s.dst.toNat s.len.isLt
  rw [readBytes_blocksWritten _ hw h8] at hsays
  rw [exec_msgDec_eq_conclude, conclude_none _ s hpass]
  exact ⟨_, _, _, rfl, blocksThrough_blocksWritten _ hw h8, sameOutside_blocksWritten _ hw h8, hsays⟩

/-! ## ECB_DEC after ECB_ENC -/

/-- Decryption of the encrypted blocks of a string gives the string (R185). -/
theorem ecbDec_ecbEnc (k : Key) {l : List Byte} (h8 : l.length % 8 = 0) : ecbDec k (ecbEnc k l) = l := by
  have hlen : (ecbEnc k l).length = l.length := length_ecbBlocks_whole _ h8
  rw [ecbDec, hlen]
  exact ecbBlocks_inverse (decryptBlock_encryptBlock k) _ l (by omega)

/-- Writing back the bytes a write replaced restores the whole memory. -/
theorem writeBytes_readBytes_restores {m : Memory} (a : Nat) {l : List Byte} {n : Nat} (hw : Memory.wf m = true)
    (hlen : l.length = n) : writeBytes (writeBytes m a l) a (readBytes m a n) = m := by
  have hwl := writeBytes_wf m a l hw
  refine memory_ext (writeBytes_wf _ _ _ hwl) hw fun x => ?_
  rw [read_writeBytes _ _ _ _ hwl, length_readBytes]
  split_ifs with hx
  · rw [getD_readBytes _ _ _ _ (by omega), Nat.add_sub_cancel' hx.1]
  · exact read_writeBytes_out _ _ _ _ hw (by omega)

/-- In place, the decrypted blocks of the ciphertext are the bytes that ECB_ENC replaced (R185). -/
theorem blocksWritten_throughBlocks {s : State} (hw : Memory.wf s.mem = true) (hplace : s.src = s.dst)
    (h8 : s.len.toNat % 8 = 0) : blocksWritten (decryptBlock (keyOf s)) (throughBlocks encryptBlock s) = s.mem := by
  have hlen := length_sourceBytes s
  have hcipher : sourceBytes (throughBlocks encryptBlock s) = ecbEnc (keyOf s) (sourceBytes s) := by
    calc sourceBytes (throughBlocks encryptBlock s)
      _ = readBytes (blocksWritten (encryptBlock (keyOf s)) s) s.src.toNat s.len.toNat := rfl
      _ = ecbEnc (keyOf s) (sourceBytes s) := by rw [hplace]; exact readBytes_blocksWritten _ hw h8
  have hplain : ecbDec (keyOf s) (sourceBytes (throughBlocks encryptBlock s)) = sourceBytes s := by
    rw [hcipher, ecbDec_ecbEnc _ (hlen ▸ h8)]
  calc blocksWritten (decryptBlock (keyOf s)) (throughBlocks encryptBlock s)
    _ = writeBytes (blocksWritten (encryptBlock (keyOf s)) s) s.dst.toNat (sourceBytes s) := congrArg _ hplain
    _ = s.mem := by
      rw [sourceBytes, hplace]
      exact writeBytes_readBytes_restores _ hw ((length_ecbBlocks_whole _ (hlen ▸ h8)).trans hlen)

/-- Settles O38: ECB_DEC reads the ciphertext where ECB_ENC wrote it, and writes the source's bytes back. -/
theorem ecbDecInvertsEcbEnc : Obligations.EcbDecInvertsEcbEnc := by
  intro s t u hw hplace henc hok hdec
  rw [exec_ecbEnc_eq_conclude] at henc
  obtain ⟨hpass, rfl⟩ := conclude_success henc hok
  obtain ⟨-, -, -, h8⟩ := (firstErr_blockChecks_eq_none s).1 hpass
  have hpass' : firstErr (blockChecks (throughBlocks encryptBlock s)) = none := hpass
  rw [exec_ecbDec_eq_conclude, conclude_none _ _ hpass'] at hdec
  obtain rfl := Host.Outcome.next.inj hdec
  have hkey : keyOf (throughBlocks encryptBlock s) = keyOf s := rfl
  rw [throughBlocks, hkey, blocksWritten_throughBlocks hw hplace h8]
  rfl

/-! ## MSG_ENC -/

/-- The padded plaintext is as long as R183 says. -/
theorem length_padBytes_sourceBytes (s : State) : (padBytes (sourceBytes s)).length = padded s.len.toNat := by
  rw [length_padBytes, length_sourceBytes]
  rfl

/-- A padded string is a string of whole blocks (R150). -/
theorem length_padBytes_whole (l : List Byte) : (padBytes l).length % 8 = 0 := by
  rw [length_padBytes, add_padLength]

/-- Each byte of the padded plaintext: from memory up to LEN, the length of the padding from there on (R150). -/
theorem getD_padBytes_sourceBytes (s : State) {j : Nat} (h : j < padded s.len.toNat) :
    (padBytes (sourceBytes s)).getD j 0 = paddedByte s j := by
  have hlen := length_sourceBytes s
  by_cases hj : j < s.len.toNat
  · rw [padBytes, List.getD_append _ _ _ _ (by omega), paddedByte, if_pos hj]
    exact getD_readBytes _ _ _ _ hj
  · rw [padBytes, List.getD_append_right _ _ _ _ (by omega), paddedByte, if_neg hj, hlen]
    exact List.getD_replicate _ (by unfold padded at h; unfold padLength; omega)

theorem be32_padBytes_sourceBytes (s : State) {j : Nat} (h : j + 4 ≤ padded s.len.toNat) :
    be32 (padBytes (sourceBytes s)) j = paddedWord s j := by
  rw [be32, getD_padBytes_sourceBytes s (by omega), getD_padBytes_sourceBytes s (by omega), getD_padBytes_sourceBytes s (by omega),
    getD_padBytes_sourceBytes s (by omega), paddedWord]

/-- The length of the padded plaintext fits in RESULT (R183). -/
theorem toNat_encryptedMessage_result {s : State} (hp : s.plat.wf = true) (hdst : Fits s s.dst.toNat (padded s.len.toNat)) :
    (encryptedMessage s).result.toNat = padded s.len.toNat :=
  (BitVec.toNat_ofNat ..).trans (Nat.mod_eq_of_lt (padded_lt_of_fits hp hdst))

/-- Settles O39: the padded plaintext is a string of whole blocks, and its length fits in RESULT. -/
theorem msgEncPadsAndEncrypts : Obligations.MsgEncPadsAndEncrypts := by
  intro s hw hp hsrc hdst hapart
  have hpass := (firstErr_msgEncChecks_eq_none s).2 ⟨hsrc, hdst, hapart⟩
  have h8 := length_padBytes_whole (sourceBytes s)
  have hlen := length_padBytes_sourceBytes s
  rw [exec_msgEnc_eq_conclude, conclude_none _ s hpass]
  refine ⟨_, _, rfl, toNat_encryptedMessage_result hp hdst, fun j hj => ?_, ?_⟩
  · rw [← be32_padBytes_sourceBytes s (by omega), ← be32_padBytes_sourceBytes s (by omega)]
    exact words_writeBytes_ecbBlocks _ _ hw h8 (hlen ▸ hj)
  · exact hlen ▸ sameOutside_writeBytes_ecbBlocks _ _ hw h8

/-! ## MSG_DEC after MSG_ENC -/

/-- The last byte of a padded string is the length of its padding (R150). -/
theorem getD_padBytes_last (l : List Byte) :
    (padBytes l).getD ((padBytes l).length - 1) 0#8 = BitVec.ofNat 8 (padLength l.length) := by
  obtain ⟨hpos, -⟩ := padLength_range l.length
  rw [length_padBytes, padBytes, List.getD_append_right _ _ _ _ (by omega)]
  exact List.getD_replicate _ (by omega)

/-- `unpad` of a padded string is the string (R154). -/
theorem unpadBytes_padBytes (l : List Byte) : unpadBytes (padBytes l) = (l, true) := by
  obtain ⟨hpos, hle⟩ := padLength_range l.length
  have hp : (BitVec.ofNat 8 (padLength l.length)).toNat = padLength l.length := by
    rw [BitVec.toNat_ofNat, Nat.mod_eq_of_lt (by omega)]
  have hall : (padding l.length).all (· == BitVec.ofNat 8 (padLength l.length)) = true := by simp [padding, rep]
  have hlen := length_padBytes l
  rw [unpadBytes, getD_padBytes_last]
  dsimp only
  rw [hp, if_neg (by omega), if_neg (by omega), if_neg (by omega), hlen, Nat.add_sub_cancel, padBytes, List.drop_left, if_pos hall,
    List.take_left]

/-- MSG_DEC of a ciphertext whose plaintext is a padded string gives the string (R184). -/
theorem exec_msgDec_padded {s t : State} {l : List Byte} (hw : Memory.wf s.mem = true) (hpass : firstErr (blockChecks s) = none)
    (hplain : ecbDec (keyOf s) (sourceBytes s) = padBytes l) (h : exec .msgDec s = .next t) :
    t.status.errcode = 0#8 ∧ t.status.padbad = false ∧ t.result = BitVec.ofNat 32 l.length
      ∧ ∀ (j : Nat) (hj : j < l.length), t.mem.read (s.dst.toNat + j) = l[j] := by
  rw [exec_msgDec_eq_conclude] at h
  cases h.symm.trans (conclude_none _ s hpass)
  have hmem : (decryptedMessage s).mem = writeBytes s.mem s.dst.toNat (padBytes l) :=
    congrArg (writeBytes s.mem s.dst.toNat) hplain
  have hlen := length_padBytes l
  rw [hmem, decryptedMessage, hplain, unpadBytes_padBytes]
  refine ⟨rfl, rfl, rfl, fun j hj => ?_⟩
  rw [read_writeBytes_at _ _ _ _ hw (by omega)]
  exact List.getElem_append_left hj

/-- The machine that MSG_ENC left, with the ciphertext as the source of a MSG_DEC into `d` (R185). -/
def readyToDecrypt (s : State) (d : Word) : State :=
  { encryptedMessage s with src := s.dst, dst := d, len := (encryptedMessage s).result }

theorem readyToDecrypt_passes {s : State} {d : Word} (hp : s.plat.wf = true) (hdst : Fits s s.dst.toNat (padded s.len.toNat))
    (hfit : Fits s d.toNat (padded s.len.toNat))
    (hapart : d = s.dst ∨ ¬ Shares s.dst.toNat (padded s.len.toNat) d.toNat (padded s.len.toNat)) :
    firstErr (blockChecks (readyToDecrypt s d)) = none := by
  have hr : (readyToDecrypt s d).len.toNat = padded s.len.toNat := toNat_encryptedMessage_result hp hdst
  rw [firstErr_blockChecks_eq_none, hr]
  exact ⟨hdst, hfit, hapart.imp_left Eq.symm, add_padLength s.len.toNat⟩

theorem sourceBytes_readyToDecrypt {s : State} (d : Word) (hw : Memory.wf s.mem = true) (hp : s.plat.wf = true)
    (hdst : Fits s s.dst.toNat (padded s.len.toNat)) :
    sourceBytes (readyToDecrypt s d) = ecbEnc (keyOf s) (padBytes (sourceBytes s)) := by
  have hlen : (ecbEnc (keyOf s) (padBytes (sourceBytes s))).length = padded s.len.toNat :=
    (length_ecbBlocks_whole _ (length_padBytes_whole _)).trans (length_padBytes_sourceBytes s)
  exact readBytes_writeBytes hw ((toNat_encryptedMessage_result hp hdst).trans hlen.symm)

/-- Settles O41: what MSG_DEC decrypts is the padded plaintext, and `unpad` of it is the plaintext. -/
theorem msgDecInvertsMsgEnc : Obligations.MsgDecInvertsMsgEnc := by
  intro s t u d hw hp henc hok hfit hapart hdec
  rw [exec_msgEnc_eq_conclude] at henc
  obtain ⟨hpass, rfl⟩ := conclude_success henc hok
  obtain ⟨-, hdst, -⟩ := (firstErr_msgEncChecks_eq_none s).1 hpass
  have hplain : ecbDec (keyOf s) (sourceBytes (readyToDecrypt s d)) = padBytes (sourceBytes s) := by
    rw [sourceBytes_readyToDecrypt d hw hp hdst, ecbDec_ecbEnc _ (length_padBytes_whole _)]
  obtain ⟨herr, hpad, hresult, hbytes⟩ := exec_msgDec_padded (s := readyToDecrypt s d) (writeBytes_wf _ _ _ hw)
    (readyToDecrypt_passes hp hdst hfit hapart) hplain hdec
  refine ⟨herr, hpad, ?_, fun j hj => ?_⟩
  · rw [hresult, length_sourceBytes, BitVec.ofNat_toNat, BitVec.setWidth_eq]
  · exact (hbytes j (by rwa [length_sourceBytes])).trans (getElem_readBytes ..)

end Sys2Proof.Proofs
end

section
/-! SUPPORT. The framer (`45_framer.md` R190 to R192): the checks and the write of FR_WRAP, the header FR_UNWRAP reads, and why
FR_UNWRAP finds what FR_WRAP wrote. -/

namespace Sys2Proof.Proofs

open Sys2Proof.Machine Sys2Proof.Laws Sys2Proof.Spec

/-! ## FR_WRAP -/

/-- FR_WRAP runs in place or its ranges are apart (R190). -/
abbrev WrapsInPlaceOrApart (s : State) : Prop :=
  s.src.toNat = s.dst.toNat + 4 ∨ ¬ Shares s.src.toNat s.len.toNat s.dst.toNat (s.len.toNat + 4)

/-- The checks of FR_WRAP, in their order (R190, R252). -/
def frWrapChecks (s : State) : List (Option Err) :=
  [rangeCheck s s.src s.len.toNat, rangeCheck s s.dst (s.len.toNat + 4),
    if wrapInPlace s then none else overlapCheck s s.len.toNat (s.len.toNat + 4)]

/-- The header and the body, as one string (R190). -/
def payload (s : State) : List Byte := bytes32 s.len ++ sourceBytes s

/-- `s` after a FR_WRAP that succeeds (R190). -/
def framed (s : State) : State :=
  afterSuccess false
    { s with
      mem := writeBytes s.mem s.dst.toNat (payload s)
      result := BitVec.ofNat 32 (s.len.toNat + 4) }

theorem exec_frWrap_eq_conclude (s : State) : exec .frWrap s = conclude (frWrapChecks s) framed s := rfl

/-- The overlap check of FR_WRAP is made only when it does not run in place (R65). -/
theorem wrapOverlap_eq_none (s : State) :
    (if wrapInPlace s then none else overlapCheck s s.len.toNat (s.len.toNat + 4)) = none ↔ WrapsInPlaceOrApart s := by
  simp only [wrapInPlace, decide_eq_true_eq]
  split_ifs with hplace
  · exact iff_of_true rfl (.inl hplace)
  · exact (overlapCheck_eq_none ..).trans (or_iff_right hplace).symm

/-- The checks of FR_WRAP pass exactly under the premises of R190. -/
theorem firstErr_frWrapChecks_eq_none (s : State) : firstErr (frWrapChecks s) = none ↔
    Fits s s.src.toNat s.len.toNat ∧ Fits s s.dst.toNat (s.len.toNat + 4) ∧ WrapsInPlaceOrApart s := by
  simp only [frWrapChecks, firstErr_cons_eq_none, rangeCheck_eq_none, wrapOverlap_eq_none, firstErr, and_true]

/-- The end of a payload in memory is an address of 32 bits (R6, R64). -/
theorem payloadEnd_lt_of_fits {s : State} {a n : Nat} (hp : s.plat.wf = true) (h : Fits s a (n + 4)) : a + (n + 4) < 2 ^ 32 := by
  simp only [Platform.wf, Bool.and_eq_true, decide_eq_true_eq] at hp
  omega

@[simp] theorem length_payload (s : State) : (payload s).length = s.len.toNat + 4 := by
  rw [payload, List.length_append, length_bytes32, length_sourceBytes, Nat.add_comm]

/-- The body stands behind the header's four bytes. -/
theorem getElem_payload_body (s : State) {j : Nat} (hj : j < s.len.toNat) :
    (payload s)[j + 4]'(by rw [length_payload]; omega) = s.mem.read (s.src.toNat + j) := by
  have hj' : j < (sourceBytes s).length := by rwa [length_sourceBytes]
  calc (payload s)[j + 4]'_
    _ = (sourceBytes s)[j] := (List.getElem_append_right' (bytes32 s.len) hj').symm
    _ = s.mem.read (s.src.toNat + j) := getElem_readBytes ..

section
variable {s : State} (hw : Memory.wf s.mem = true)
include hw

/-- The header reads back as LEN. -/
theorem wordAt_framed_header : wordAt (framed s).mem s.dst.toNat = s.len := by
  calc wordAt (framed s).mem s.dst.toNat
    _ = be32 (payload s) 0 := wordAt_writeBytes _ (j := 0) hw (by rw [length_payload]; omega)
    _ = s.len := be32_bytes32 ..

/-- The bytes behind the header are those the source held before the command, apart or in place (R190). -/
theorem read_framed_body {j : Nat} (hj : j < s.len.toNat) :
    (framed s).mem.read (s.dst.toNat + 4 + j) = s.mem.read (s.src.toNat + j) := by
  have hbound : j + 4 < (payload s).length := by rw [length_payload]; omega
  calc (framed s).mem.read (s.dst.toNat + 4 + j)
    _ = (framed s).mem.read (s.dst.toNat + (j + 4)) := by rw [Nat.add_assoc, Nat.add_comm 4]
    _ = (payload s)[j + 4] := read_writeBytes_at _ _ _ _ hw hbound
    _ = s.mem.read (s.src.toNat + j) := getElem_payload_body s hj

theorem sameOutside_framed : SameOutside s.mem (framed s).mem s.dst.toNat (s.len.toNat + 4) :=
  length_payload s ▸ sameOutside_writeBytes _ _ hw

end

/-- Settles O43: past the checks FR_WRAP writes the header and the source's bytes as one string. -/
theorem frWrapWritesHeaderAndBody : Obligations.FrWrapWritesHeaderAndBody := by
  intro s hw hp hsrc hdst hplace
  have hend := payloadEnd_lt_of_fits hp hdst
  rw [exec_frWrap_eq_conclude, conclude_none _ s ((firstErr_frWrapChecks_eq_none s).2 ⟨hsrc, hdst, hplace⟩)]
  refine ⟨_, _, rfl, ?_, wordAt_framed_header hw, fun j hj => read_framed_body hw hj, sameOutside_framed hw⟩
  rw [BitVec.toNat_ofNat, Nat.mod_eq_of_lt (by omega)]

/-! ## FR_UNWRAP -/

/-- The length a header declares is the big-endian word at SRC (R191). -/
theorem declaredLength_eq_wordAt (s : State) : declaredLength s = wordAt s.mem s.src.toNat :=
  be32_readBytes s.mem s.src.toNat 4 0 le_rfl

/-- The address behind the header, modulo 2^32 (R191). -/
theorem ofNat_toNat_add_four (a : Word) : BitVec.ofNat 32 (a.toNat + 4) = a + 4#32 := by
  rw [BitVec.ofNat_add, BitVec.ofNat_toNat, BitVec.setWidth_eq]

/-- Settles O44: each clause skips the checks that pass, and ends at the first that fails or in the effect. -/
theorem frUnwrapLocatesTheBody : Obligations.FrUnwrapLocatesTheBody := by
  intro s
  rw [exec_frUnwrap, execFrUnwrap, declaredLength_eq_wordAt]
  refine ⟨fun hsrc h4 hbody => ?_, conclude_rangeCheck_fail, fun hsrc h4 => ?_, fun hsrc h4 hbody => ?_⟩
    <;> rw [conclude_rangeCheck_skip hsrc]
  · rw [decide_eq_false h4.not_gt, decide_eq_false hbody.not_gt, ← ofNat_toNat_add_four]
    rfl
  · rw [decide_eq_true h4]
    exact conclude_fail (failIf_true ..)
  · rw [decide_eq_false h4.not_gt, conclude_skip (failIf_false ..), decide_eq_true hbody]
    exact conclude_fail (failIf_true ..)

/-! ## FR_UNWRAP after FR_WRAP -/

/-- Settles O45: the payload is LEN + 4 bytes long and its header declares LEN, so every check of FR_UNWRAP passes. -/
theorem frUnwrapInvertsFrWrap : Obligations.FrUnwrapInvertsFrWrap := by
  intro s t u hw hp hwrap hok hunwrap
  obtain ⟨hpass, -⟩ := conclude_success ((exec_frWrap_eq_conclude s).symm.trans hwrap) hok
  obtain ⟨hsrc, hdst, hplace⟩ := (firstErr_frWrapChecks_eq_none s).1 hpass
  obtain ⟨m, r, hwrap', hr, hheader, hbody, -⟩ := frWrapWritesHeaderAndBody s hw hp hsrc hdst hplace
  cases hwrap.symm.trans hwrap'
  obtain ⟨hlocates, -⟩ :=
    frUnwrapLocatesTheBody { afterSuccess false { s with mem := m, result := r } with src := s.dst, len := r }
  have hunwrap' := hlocates (hr ▸ hdst) (hr ▸ Nat.le_add_left 4 _) (hr ▸ hheader ▸ le_rfl)
  cases hunwrap.symm.trans hunwrap'
  have hend := payloadEnd_lt_of_fits hp hdst
  have hraddr : (s.dst + 4#32).toNat = s.dst.toNat + 4 := by
    rw [BitVec.toNat_add, BitVec.toNat_ofNat]
    omega
  exact ⟨rfl, hheader, rfl, fun j hj => hraddr ▸ hbody j hj⟩

end Sys2Proof.Proofs
end

section
/-! SUPPORT. The LSB codec (`46_lsb.md` R200 to R205, `60_exceptions.md` R252): the checks of LSB_EMBED and LSB_EXTRACT in order, the
bits the one writes and the other reads, and why LSB_EXTRACT gives back what LSB_EMBED put in. -/

namespace Sys2Proof.Proofs

open Sys2Proof.Machine Sys2Proof.Laws Sys2Proof.Spec

/-! ## Bit strings read from channels -/

/-- The first bit of an embedded number is its most significant one (R204). -/
theorem stegoNumber_succ (m : Memory) (base i n : Nat) :
    stegoNumber m base i (n + 1) = 2 ^ n * (stegoBit m base i).toNat + stegoNumber m base (i + 1) n := by
  have hterm : (fun b => (stegoBit m base (i + b)).toNat * 2 ^ (n + 1 - 1 - b)) ∘ Nat.succ
      = fun b => (stegoBit m base (i + 1 + b)).toNat * 2 ^ (n - 1 - b) := funext fun b => by
    rw [Function.comp_apply, Nat.succ_eq_one_add, ← Nat.add_assoc, Nat.add_sub_cancel, Nat.sub_sub]
  rw [stegoNumber, List.range_succ_eq_map, List.map_cons, List.map_map, hterm, List.sum_cons, Nat.mul_comm]
  rfl

/-- `n` embedded bits are a number below `2 ^ n`. -/
theorem stegoNumber_lt (m : Memory) (base i n : Nat) : stegoNumber m base i n < 2 ^ n := by
  induction n generalizing i with
  | zero => exact Nat.one_pos
  | succ n ih =>
    have hbit := Nat.mul_le_mul_left (2 ^ n) (Bool.toNat_le (stegoBit m base i))
    have hrest := ih (i + 1)
    rw [stegoNumber_succ, Nat.pow_succ]
    omega

/-- Bit `b` of an embedded number, counted from its most significant end, is embedded bit `i + b` (R204). -/
theorem testBit_stegoNumber (m : Memory) (base i : Nat) {n b : Nat} (hb : b < n) :
    (stegoNumber m base i n).testBit (n - 1 - b) = stegoBit m base (i + b) := by
  induction n generalizing i b with
  | zero => exact absurd hb b.not_lt_zero
  | succ n ih =>
    rw [stegoNumber_succ, Nat.testBit_two_pow_mul_add _ (stegoNumber_lt ..)]
    cases b with
    | zero => cases stegoBit m base i <;> simp
    | succ b =>
      rw [if_pos (by omega), show n + 1 - 1 - (b + 1) = n - 1 - b by omega, ih (i + 1) (by omega), Nat.add_right_comm, Nat.add_assoc]

/-- An embedded number as a bit vector: its bits, most significant first, are the embedded bits. -/
theorem getMsbD_ofNat_stegoNumber (m : Memory) (base i : Nat) {n b : Nat} (hb : b < n) :
    (BitVec.ofNat n (stegoNumber m base i n)).getMsbD b = lsbAt m base (i + b) := by
  rw [BitVec.getMsbD, decide_eq_true hb, Bool.true_and, BitVec.getLsbD_ofNat, decide_eq_true (by omega), Bool.true_and,
    testBit_stegoNumber _ _ _ hb]
  rfl

/-- Bit `i` of a byte, counted from its most significant end. -/
theorem getMsbD_byte (x : Byte) {i : Nat} (h : i < 8) : x.getMsbD i = x.getLsbD (7 - i) := by
  rw [BitVec.getMsbD, decide_eq_true h, Bool.true_and]

/-- Bit `i` of the big-endian word at `a`, counted from its most significant end, stands in the byte at `a + i / 8` (R62). -/
theorem getMsbD_wordAt (m : Memory) (a : Nat) {i : Nat} (h : i < 32) :
    (wordAt m a).getMsbD i = (m.read (a + i / 8)).getLsbD (7 - i % 8) := by
  rw [← getMsbD_byte _ (Nat.mod_lt i (by decide))]
  obtain ⟨k, r, hr, hk, rfl⟩ : ∃ k r, r < 8 ∧ k < 4 ∧ i = 8 * k + r := ⟨i / 8, i % 8, by omega, by omega, by omega⟩
  rw [show (8 * k + r) / 8 = k by omega, show (8 * k + r) % 8 = r by omega]
  simp only [wordAt, BitVec.getMsbD_append]
  -- one case for each byte of the word
  interval_cases k <;> grind

/-- The header read bit by bit is the number the model reads (R204). -/
theorem stegoLength_eq_headerAt (m : Memory) (base : Nat) : stegoLength m base = headerAt m base := by
  have hindex : ∀ b, stegoBit m base (0 + b) = lsbAt m base b := fun b => congrArg (stegoBit m base) (Nat.zero_add b)
  rw [stegoLength, stegoNumber]
  simp only [hindex]
  exact sumPixels_eq 32 _

theorem headerAt_lt (m : Memory) (base : Nat) : headerAt m base < 2 ^ 32 :=
  stegoLength_eq_headerAt m base ▸ stegoNumber_lt m base 0 32

/-- Pixels whose first 32 embedded bits are those of the word at `a` declare that word as their header (R200, R204). -/
theorem headerAt_eq_wordAt {m m' : Memory} {base a : Nat}
    (h : ∀ i < 32, lsbAt m' base i = (m.read (a + i / 8)).getLsbD (7 - i % 8)) : headerAt m' base = (wordAt m a).toNat := by
  have hword : BitVec.ofNat 32 (stegoNumber m' base 0 32) = wordAt m a := BitVec.eq_of_getMsbD_eq fun i hi => by
    rw [getMsbD_ofNat_stegoNumber _ _ _ hi, getMsbD_wordAt _ _ hi, Nat.zero_add, h i hi]
  rw [← hword, ← stegoLength_eq_headerAt, BitVec.toNat_ofNat]
  exact (Nat.mod_eq_of_lt (stegoNumber_lt ..)).symm

/-! ## The commands as checks and an effect -/

/-- The checks of LSB_EMBED, in their order (R203, R252). -/
def lsbEmbedChecks (s : State) : List (Option Err) :=
  [rangeCheck s s.src s.len.toNat, rangeCheck s s.dst (4 * s.pixcnt.toNat), overlapCheck s s.len.toNat (4 * s.pixcnt.toNat),
    failIf (decide (3 * s.pixcnt.toNat / 8 < s.len.toNat)) .capacity (BitVec.ofNat 32 (3 * s.pixcnt.toNat / 8))]

/-- Memory after a LSB_EMBED that succeeds (R203). -/
def embeddedMem (s : State) : Memory := embedBits s.dst.toNat (sourceBytes s) (List.range (8 * s.len.toNat)) s.mem

/-- `s` after a LSB_EMBED that succeeds (R203). -/
def embedded (s : State) : State := afterSuccess false { s with mem := embeddedMem s, result := s.len }

/-- The checks of LSB_EXTRACT, in their order (R204, R252). -/
def lsbExtractChecks (s : State) : List (Option Err) :=
  [rangeCheck s s.src (4 * s.pixcnt.toNat), failIf (decide (3 * s.pixcnt.toNat < 32)) .toosmall s.pixcnt,
    failIf (decide (headerAt s.mem s.src.toNat = 0 ∨ (3 * s.pixcnt.toNat - 32) / 8 < headerAt s.mem s.src.toNat)) .invlen
      (BitVec.ofNat 32 (headerAt s.mem s.src.toNat)),
    rangeCheck s s.dst (4 + headerAt s.mem s.src.toNat),
    overlapCheck s (4 * s.pixcnt.toNat) (4 + headerAt s.mem s.src.toNat)]

/-- The framed payload that the pixels at SRC hold (R204). -/
def stegoPayload (s : State) : List Byte :=
  bytes32 (BitVec.ofNat 32 (headerAt s.mem s.src.toNat)) ++ stegoBody s.mem s.src.toNat (headerAt s.mem s.src.toNat)

/-- Memory after a LSB_EXTRACT that succeeds (R204). -/
def extractedMem (s : State) : Memory := writeBytes s.mem s.dst.toNat (stegoPayload s)

/-- `s` after a LSB_EXTRACT that succeeds (R204). -/
def extracted (s : State) : State :=
  afterSuccess false { s with mem := extractedMem s, result := BitVec.ofNat 32 (4 + headerAt s.mem s.src.toNat) }

theorem exec_lsbEmbed_eq_conclude (s : State) : exec .lsbEmbed s = conclude (lsbEmbedChecks s) embedded s := rfl

/-- A command's effect matters only at the state it runs in. -/
theorem conclude_congr {cs : List (Option Err)} {effect effect' : State → State} {s : State} (h : effect s = effect' s) :
    conclude cs effect s = conclude cs effect' s := by
  rw [conclude, conclude, h]

theorem exec_lsbExtract_eq_conclude (s : State) : exec .lsbExtract s = conclude (lsbExtractChecks s) extracted s := by
  rw [exec_lsbExtract, execLsbExtract, stegoLength_eq_headerAt, lsbExtractChecks, Bool.decide_or]
  exact conclude_congr rfl

/-- The checks of LSB_EMBED pass exactly under the premises of R203. -/
theorem firstErr_lsbEmbedChecks_eq_none (s : State) : firstErr (lsbEmbedChecks s) = none ↔
    Fits s s.src.toNat s.len.toNat ∧ Fits s s.dst.toNat (4 * s.pixcnt.toNat)
      ∧ ¬ Shares s.src.toNat s.len.toNat s.dst.toNat (4 * s.pixcnt.toNat) ∧ s.len.toNat ≤ 3 * s.pixcnt.toNat / 8 := by
  simp only [lsbEmbedChecks, firstErr_cons_eq_none, rangeCheck_eq_none, overlapCheck_eq_none, failIf_eq_none,
    decide_eq_false_iff_not, not_lt, firstErr, and_true]

/-- The checks of LSB_EXTRACT pass exactly under the premises of R204. -/
theorem firstErr_lsbExtractChecks_eq_none (s : State) : firstErr (lsbExtractChecks s) = none ↔
    Fits s s.src.toNat (4 * s.pixcnt.toNat) ∧ 32 ≤ 3 * s.pixcnt.toNat
      ∧ (headerAt s.mem s.src.toNat ≠ 0 ∧ headerAt s.mem s.src.toNat ≤ (3 * s.pixcnt.toNat - 32) / 8)
      ∧ Fits s s.dst.toNat (4 + headerAt s.mem s.src.toNat)
      ∧ ¬ Shares s.src.toNat (4 * s.pixcnt.toNat) s.dst.toNat (4 + headerAt s.mem s.src.toNat) := by
  simp only [lsbExtractChecks, firstErr_cons_eq_none, rangeCheck_eq_none, overlapCheck_eq_none, failIf_eq_none,
    decide_eq_false_iff_not, not_or, not_lt, ne_eq, firstErr, and_true]

/-! ## The errors -/

/-- A check of a condition that holds is the error the command ends in (R252). -/
theorem conclude_failIf_fail {p : Prop} [Decidable p] {e : ErrCode} {info : Word} {cs : List (Option Err)} {effect : State → State}
    {s : State} (h : p) : conclude (failIf (decide p) e info :: cs) effect s = .next (raiseErr e info s) := by
  rw [decide_eq_true h]
  exact conclude_fail (failIf_true ..)

/-- A check of a condition that does not hold drops out. -/
theorem conclude_failIf_skip {p : Prop} [Decidable p] {e : ErrCode} {info : Word} {cs : List (Option Err)} {effect : State → State}
    {s : State} (h : ¬ p) : conclude (failIf (decide p) e info :: cs) effect s = conclude cs effect s := by
  rw [decide_eq_false h]
  exact conclude_skip (failIf_false ..)

/-- Settles O48: each clause skips the checks that pass and ends at the first that fails. -/
theorem lsbErrorOrder : Obligations.LsbErrorOrder := by
  intro s
  rw [exec_lsbEmbed_eq_conclude, lsbEmbedChecks, exec_lsbExtract_eq_conclude, lsbExtractChecks]
  refine ⟨conclude_rangeCheck_fail, fun hsrc hdst => ?_, fun hsrc hdst hshare => ?_, fun hsrc hdst hapart hcap => ?_,
    conclude_rangeCheck_fail, fun hsrc hsmall => ?_, fun hsrc hbits hlen => ?_, fun hsrc hbits hzero havail hdst => ?_,
    fun hsrc hbits hzero havail hdst hshare => ?_⟩ <;> rw [conclude_rangeCheck_skip hsrc]
  · exact conclude_rangeCheck_fail hdst
  · rw [conclude_rangeCheck_skip hdst]
    exact conclude_overlapCheck_fail hshare
  · rw [conclude_rangeCheck_skip hdst, conclude_skip ((overlapCheck_eq_none ..).2 hapart)]
    exact conclude_failIf_fail hcap
  · exact conclude_failIf_fail hsmall
  · rw [conclude_failIf_skip hbits.not_gt]
    exact conclude_failIf_fail hlen
  · rw [conclude_failIf_skip hbits.not_gt, conclude_failIf_skip (not_or.2 ⟨hzero, havail.not_gt⟩)]
    exact conclude_rangeCheck_fail hdst
  · rw [conclude_failIf_skip hbits.not_gt, conclude_failIf_skip (not_or.2 ⟨hzero, havail.not_gt⟩), conclude_rangeCheck_skip hdst]
    exact conclude_overlapCheck_fail hshare

/-! ## LSB_EMBED -/

/-- Bit `i` of the payload stands in byte `i / 8` of the source (R200). -/
theorem payloadBit_sourceBytes (s : State) {i : Nat} (hi : i < 8 * s.len.toNat) :
    payloadBit (sourceBytes s) i = (s.mem.read (s.src.toNat + i / 8)).getLsbD (7 - i % 8) := by
  rw [payloadBit, sourceBytes, getD_readBytes _ _ _ _ (by omega)]

/-- An embedded channel is the old one with the payload's bit in bit 0 (R203). -/
theorem read_embeddedMem_channel {s : State} (hw : Memory.wf s.mem = true) {i : Nat} (hi : i < 8 * s.len.toNat) :
    (embeddedMem s).read (chanAddr s.dst.toNat i)
      = withLsb (s.mem.read (chanAddr s.dst.toNat i)) ((s.mem.read (s.src.toNat + i / 8)).getLsbD (7 - i % 8)) := by
  rw [embeddedMem, read_embedBits_in _ _ _ _ hw List.nodup_range (List.mem_range.2 hi), payloadBit_sourceBytes s hi]

/-- The bits of a channel byte above bit 0 are kept, and there is none above bit 7 (R203). -/
theorem getLsbD_withLsb_pos (c : Byte) (b : Bool) {i : Nat} (h : 1 ≤ i) : (withLsb c b).getLsbD i = c.getLsbD i := by
  by_cases h8 : i < 8
  · exact withLsb_other c b i h h8
  · rw [BitVec.getLsbD_of_ge _ _ (not_lt.1 h8), BitVec.getLsbD_of_ge _ _ (not_lt.1 h8)]

/-- Settles O46: past the checks LSB_EMBED replaces bit 0 of the channels of the payload's bits, and no two of them are one. -/
theorem embedWritesOnlyTheLsbs : Obligations.EmbedWritesOnlyTheLsbs := by
  intro s hw hsrc hdst hapart hcap
  rw [exec_lsbEmbed_eq_conclude, conclude_none _ s ((firstErr_lsbEmbedChecks_eq_none s).2 ⟨hsrc, hdst, hapart, hcap⟩)]
  refine ⟨_, rfl, fun i hi => ⟨?_, fun b hb => ?_⟩, fun x hx => ?_⟩
  · exact (congrArg (·.getLsbD 0) (read_embeddedMem_channel hw hi)).trans (withLsb_bit0 ..)
  · exact (congrArg (·.getLsbD b) (read_embeddedMem_channel hw hi)).trans (getLsbD_withLsb_pos _ _ hb)
  · exact read_embedBits_out _ _ _ _ x hw fun i hi => hx i (List.mem_range.1 hi)

/-! ## LSB_EXTRACT -/

@[simp] theorem length_stegoPayload (s : State) : (stegoPayload s).length = 4 + headerAt s.mem s.src.toNat := by
  simp [stegoPayload, stegoBody]

/-- Byte `j` of the body stands behind the header's four bytes (R204). -/
theorem getElem_stegoPayload_body (s : State) {j : Nat} (hj : j < headerAt s.mem s.src.toNat) :
    (stegoPayload s)[4 + j]'(by rw [length_stegoPayload]; omega)
      = BitVec.ofNat 8 (stegoNumber s.mem s.src.toNat (32 + 8 * j) 8) := by
  have hhead : (bytes32 (BitVec.ofNat 32 (headerAt s.mem s.src.toNat))).length ≤ 4 + j := Nat.le_add_right 4 j
  simp [stegoPayload, stegoBody, List.getElem_append_right hhead]

section
variable {s : State} (hw : Memory.wf s.mem = true)
include hw

/-- The header reads back as the number it is embedded as. -/
theorem wordAt_extractedMem_header : (wordAt (extractedMem s) s.dst.toNat).toNat = headerAt s.mem s.src.toNat := by
  have hword : wordAt (extractedMem s) s.dst.toNat = BitVec.ofNat 32 (headerAt s.mem s.src.toNat) :=
    (wordAt_writeBytes _ (j := 0) hw (by rw [length_stegoPayload]; omega)).trans (be32_bytes32 ..)
  rw [hword, BitVec.toNat_ofNat, Nat.mod_eq_of_lt (headerAt_lt ..)]

/-- The bits of the body's bytes are the embedded bits behind the header, most significant bit first (R204). -/
theorem getLsbD_extractedMem_body {j b : Nat} (hj : j < headerAt s.mem s.src.toNat) (hb : b < 8) :
    ((extractedMem s).read (s.dst.toNat + 4 + j)).getLsbD (7 - b) = lsbAt s.mem s.src.toNat (32 + 8 * j + b) := by
  have hread : (extractedMem s).read (s.dst.toNat + 4 + j) = (stegoPayload s)[4 + j]'(by rw [length_stegoPayload]; omega) := by
    rw [Nat.add_assoc]
    exact read_writeBytes_at _ _ _ _ hw _
  rw [hread, getElem_stegoPayload_body s hj, ← getMsbD_byte _ hb, getMsbD_ofNat_stegoNumber _ _ _ hb]

end

/-- Settles O47: past the checks LSB_EXTRACT writes the header and the body as one string, whose length fits in RESULT. -/
theorem extractReadsTheFramedPayload : Obligations.ExtractReadsTheFramedPayload := by
  intro s hw hp hsrc hbits hzero havail hdst hapart
  have hpass := (firstErr_lsbExtractChecks_eq_none s).2 ⟨hsrc, hbits, ⟨hzero, havail⟩, hdst, hapart⟩
  have hend := payloadEnd_lt_of_fits hp (Nat.add_comm 4 _ ▸ hdst)
  rw [exec_lsbExtract_eq_conclude, conclude_none _ s hpass]
  refine ⟨_, _, rfl, ?_, wordAt_extractedMem_header hw, fun j hj b hb => getLsbD_extractedMem_body hw hj hb,
    length_stegoPayload s ▸ sameOutside_writeBytes _ _ hw⟩
  rw [BitVec.toNat_ofNat, Nat.mod_eq_of_lt (by omega)]

/-! ## LSB_EXTRACT after LSB_EMBED -/

/-- Equal big-endian words have equal bytes (R62). -/
theorem read_eq_of_wordAt_eq {m m' : Memory} {a a' : Nat} (h : wordAt m' a' = wordAt m a) {j : Nat} (hj : j < 4) :
    m'.read (a' + j) = m.read (a + j) := by
  obtain ⟨h012, h3⟩ := (append_eq_append_iff (v := 24)).1 h
  obtain ⟨h01, h2⟩ := (append_eq_append_iff (v := 16)).1 h012
  obtain ⟨h0, h1⟩ := append_eq_append_iff.1 h01
  interval_cases j <;> assumption

/-- Settles O49: the embedded bits are those of the payload, so the header is the payload's, every check of LSB_EXTRACT passes, and
each body byte has the payload byte's bits. -/
theorem extractInvertsEmbed : Obligations.ExtractInvertsEmbed := by
  intro s t u d hw hp hembed hok h5 hlen hfit hshare hextract
  obtain ⟨hpass, -⟩ := conclude_success ((exec_lsbEmbed_eq_conclude s).symm.trans hembed) hok
  obtain ⟨hsrc, hdst, hapart, hcap⟩ := (firstErr_lsbEmbedChecks_eq_none s).1 hpass
  have hwt := exec_mem_wf hembed hw
  obtain ⟨m, hembed', hbits, -⟩ := embedWritesOnlyTheLsbs s hw hsrc hdst hapart hcap
  cases hembed.symm.trans hembed'
  have hheader : headerAt m s.dst.toNat = (wordAt s.mem s.src.toNat).toNat :=
    headerAt_eq_wordAt fun i hi => (hbits i (by omega)).1
  have htotal : 4 + headerAt m s.dst.toNat = s.len.toNat := by omega
  have hpixels : 32 ≤ 3 * s.pixcnt.toNat := by omega
  have hzero : headerAt m s.dst.toNat ≠ 0 := by omega
  have havail : headerAt m s.dst.toNat ≤ (3 * s.pixcnt.toNat - 32) / 8 := by omega
  obtain ⟨m', r, hextract', hr, hword, hbody, -⟩ := extractReadsTheFramedPayload
    { afterSuccess false { s with mem := m, result := s.len } with src := s.dst, dst := d } hwt hp hdst hpixels hzero havail
    (htotal ▸ hfit) (htotal ▸ hshare)
  cases hextract.symm.trans hextract'
  refine ⟨rfl, BitVec.eq_of_toNat_eq (hr.trans htotal), fun j hj => ?_⟩
  by_cases hj4 : j < 4
  · exact read_eq_of_wordAt_eq (BitVec.eq_of_toNat_eq (hword.trans hheader)) hj4
  · obtain ⟨k, rfl⟩ := Nat.exists_eq_add_of_le (not_lt.1 hj4)
    refine BitVec.eq_of_getMsbD_eq fun b hb => ?_
    have hk : k < headerAt m s.dst.toNat := by omega
    obtain ⟨hbit, -⟩ := hbits (32 + 8 * k + b) (by omega)
    rw [show (32 + 8 * k + b) / 8 = 4 + k by omega, show (32 + 8 * k + b) % 8 = b by omega] at hbit
    rw [getMsbD_byte _ hb, getMsbD_byte _ hb, ← hbit, ← Nat.add_assoc]
    exact hbody k hk b hb

end Sys2Proof.Proofs
end

section
/-! SUPPORT. The metrics (`48_metrics.md` R230 to R232, R236, `10_state.md` R35, `60_exceptions.md` R252): the checks of MET_DIFF and
MET_HIST in order, the exact sums behind the accumulators, and the counts of the histogram. -/

namespace Sys2Proof.Proofs

open Sys2Proof.Machine Sys2Proof.Laws Sys2Proof.Spec

/-! ## The luminance -/

/-- Settles O50: the quotient is the nearest integer because half the divisor is added before the division. -/
theorem luminanceRoundsTiesUpward : Obligations.LuminanceRoundsTiesUpward := by
  refine fun r g b => ⟨lum_le r g b, ?_⟩
  rw [lum]
  omega

/-! ## The commands as checks and an effect -/

/-- The checks of MET_DIFF, in their order (R231, R252). -/
def metDiffChecks (s : State) : List (Option Err) :=
  [rangeCheck s s.src (4 * s.pixcnt.toNat), rangeCheck s s.dst (4 * s.pixcnt.toNat)]

/-- `s` after a MET_DIFF that succeeds (R231). -/
def compared (s : State) : State :=
  afterSuccess false
    { s with metrics := diffMetrics s.mem s.src.toNat s.dst.toNat s.pixcnt.toNat, result := s.pixcnt }

/-- The checks of MET_HIST, in their order (R232, R252). -/
def metHistChecks (s : State) : List (Option Err) :=
  [rangeCheck s s.src (4 * s.pixcnt.toNat), rangeCheck s s.dst 1024, overlapCheck s (4 * s.pixcnt.toNat) 1024]

/-- Memory after a MET_HIST that succeeds (R232). -/
def histogramMem (s : State) : Memory :=
  writeBytes s.mem s.dst.toNat (histBytes (lumList s.mem s.src.toNat s.pixcnt.toNat))

/-- `s` after a MET_HIST that succeeds (R232). -/
def counted (s : State) : State := afterSuccess false { s with mem := histogramMem s, result := s.pixcnt }

theorem exec_metDiff_eq_conclude (s : State) : exec .metDiff s = conclude (metDiffChecks s) compared s := by
  rw [exec_metDiff, execMetDiff]
  exact conclude_congr rfl

theorem exec_metHist_eq_conclude (s : State) : exec .metHist s = conclude (metHistChecks s) counted s := by
  rw [exec_metHist, execMetHist]
  exact conclude_congr rfl

/-- The checks of MET_HIST pass exactly under the premises of R232. -/
theorem firstErr_metHistChecks_eq_none (s : State) : firstErr (metHistChecks s) = none ↔
    Fits s s.src.toNat (4 * s.pixcnt.toNat) ∧ Fits s s.dst.toNat 1024
      ∧ ¬ Shares s.src.toNat (4 * s.pixcnt.toNat) s.dst.toNat 1024 := by
  simp only [metHistChecks, firstErr_cons_eq_none, rangeCheck_eq_none, overlapCheck_eq_none, firstErr, and_true]

/-- MET_DIFF succeeds when both buffers are in memory (R231). -/
theorem exec_metDiff_of_fits {s : State} (hsrc : Fits s s.src.toNat (4 * s.pixcnt.toNat))
    (hdst : Fits s s.dst.toNat (4 * s.pixcnt.toNat)) : exec .metDiff s = .next (compared s) := by
  rw [exec_metDiff_eq_conclude, metDiffChecks, conclude_rangeCheck_skip hsrc]
  exact conclude_rangeCheck_pass hdst

/-- Settles O54: each clause skips the checks that pass and ends at the first that fails. -/
theorem metricErrorOrder : Obligations.MetricErrorOrder := by
  intro s
  rw [exec_metDiff_eq_conclude, metDiffChecks, exec_metHist_eq_conclude, metHistChecks]
  refine ⟨fun hsrc => ⟨conclude_rangeCheck_fail hsrc, conclude_rangeCheck_fail hsrc⟩, fun hsrc hdst => ?_, fun hsrc hdst => ?_,
    fun hsrc hdst hshare => ?_⟩ <;> rw [conclude_rangeCheck_skip hsrc]
  · exact conclude_rangeCheck_fail hdst
  · exact conclude_rangeCheck_fail hdst
  · rw [conclude_rangeCheck_skip hdst]
    exact conclude_overlapCheck_fail hshare

/-! ## Exact sums -/

theorem popcount8_eq_sum (b : Byte) : popcount8 b = ∑ i ∈ Finset.range 8, (b.getLsbD i).toNat := sumPixels_eq 8 _

theorem channelDiff_eq_natAbs (a b : Byte) : channelDiff a b = ((a.toNat : Int) - b.toNat).natAbs := by
  rw [channelDiff]
  omega

/-- The channels of a pixel are the bytes at offsets 0, 1 and 2 of it (R231). -/
theorem sumChannels_eq (m : Memory) (a b p : Nat) (f : Byte → Byte → Nat) : sumChannels m a b p f
    = ∑ i ∈ Finset.range p, ∑ c ∈ Finset.range 3, f (m.read (a + 4 * i + c)) (m.read (b + 4 * i + c)) := by
  rw [sumChannels, sumPixels_eq]
  exact Finset.sum_congr rfl fun i _ => by simp only [Finset.sum_range_succ, Finset.sum_range_zero, Nat.zero_add, Nat.add_zero]

/-- A pixel counts as changed when one of its three channels differs (R231). -/
theorem pixelChanged_iff (m : Memory) (a b i : Nat) :
    pixelChanged m a b i = true ↔ ∃ c ∈ Finset.range 3, m.read (a + 4 * i + c) ≠ m.read (b + 4 * i + c) := by
  have hchannels : Finset.range 3 = {0, 1, 2} := rfl
  simp only [pixelChanged, Bool.or_eq_true, bne_iff_ne, or_assoc, hchannels, Finset.exists_mem_insert, Finset.mem_singleton,
    exists_eq_left, Nat.add_zero]

/-- A sum over pixels that is bounded below `2 ^ w` does not wrap in `w` bits (R35). -/
theorem toNat_ofNat_sumPixels {w p b : Nat} {f : Nat → Nat} (h : ∀ i, f i ≤ b) (hw : b * p < 2 ^ w) :
    (BitVec.ofNat w (sumPixels p f)).toNat = ∑ i ∈ Finset.range p, f i := by
  rw [BitVec.toNat_ofNat, Nat.mod_eq_of_lt ((sumPixels_le p f b h).trans_lt hw), sumPixels_eq]

/-- A sum over channels that is bounded below `2 ^ w` does not wrap in `w` bits (R35). -/
theorem toNat_ofNat_sumChannels {w x y p b : Nat} {m : Memory} {f : Byte → Byte → Nat} (h : ∀ u v, f u v ≤ b)
    (hw : (b + b + b) * p < 2 ^ w) : (BitVec.ofNat w (sumChannels m x y p f)).toNat
      = ∑ i ∈ Finset.range p, ∑ c ∈ Finset.range 3, f (m.read (x + 4 * i + c)) (m.read (y + 4 * i + c)) := by
  rw [BitVec.toNat_ofNat, Nat.mod_eq_of_lt ((sumChannels_le m x y p f b h).trans_lt hw), sumChannels_eq]

/-- The sum of the pixels' flags is the number of changed pixels. -/
theorem toNat_diffMetrics_chgpix (m : Memory) (a b : Nat) {p : Nat} (hp : p < 2 ^ 32) : (diffMetrics m a b p).chgpix.toNat
    = ((Finset.range p).filter fun i => ∃ c ∈ Finset.range 3, m.read (a + 4 * i + c) ≠ m.read (b + 4 * i + c)).card := by
  calc (diffMetrics m a b p).chgpix.toNat
    _ = ∑ i ∈ Finset.range p, (pixelChanged m a b i).toNat :=
      toNat_ofNat_sumPixels (fun _ => Bool.toNat_le _) ((Nat.one_mul p).symm ▸ hp)
    _ = ((Finset.range p).filter fun i => pixelChanged m a b i = true).card := by
      rw [Finset.card_filter]
      exact Finset.sum_congr rfl fun i _ => by cases pixelChanged m a b i <;> rfl
    _ = _ := by simp only [pixelChanged_iff]

/-- Settles O51: fewer than 2^32 pixels keep every sum below 2^64, so each accumulator is its sum. -/
theorem metDiffSumsExactly : Obligations.MetDiffSumsExactly := by
  intro s hsrc hdst
  have hp : s.pixcnt.toNat < 2 ^ 32 := s.pixcnt.isLt
  refine ⟨_, exec_metDiff_of_fits hsrc hdst, ?_, toNat_diffMetrics_chgpix _ _ _ hp, ?_, ?_,
    toNat_ofNat_sumPixels (pixelLum_le _ _) (by omega), toNat_ofNat_sumPixels (pixelLum_le _ _) (by omega),
    toNat_ofNat_sumPixels (b := 255 * 255) (fun i => Nat.mul_le_mul (pixelLum_le _ _ i) (pixelLum_le _ _ i)) (by omega),
    toNat_ofNat_sumPixels (b := 255 ^ 2) (fun i => Nat.pow_le_pow_left (pixelLum_le _ _ i) 2) (by omega),
    toNat_ofNat_sumPixels (b := 255 ^ 2) (fun i => Nat.pow_le_pow_left (pixelLum_le _ _ i) 2) (by omega),
    diffMetrics_within _ _ _ _⟩
  · simp only [← popcount8_eq_sum]
    exact toNat_ofNat_sumChannels (fun _ _ => popcount8_le _) (by omega)
  · simp only [← channelDiff_eq_natAbs]
    exact toNat_ofNat_sumChannels channelDiff_le (by omega)
  · simp only [← channelDiff_eq_natAbs]
    exact toNat_ofNat_sumChannels (b := 255 ^ 2) (fun u v => Nat.pow_le_pow_left (channelDiff_le u v) 2) (by omega)

/-! ## A buffer against itself -/

/-- A measure that is 0 on equal channels sums to 0 over a buffer and itself. -/
theorem sumChannels_self (m : Memory) (a p : Nat) {f : Byte → Byte → Nat} (h : ∀ u, f u u = 0) : sumChannels m a a p f = 0 := by
  rw [sumChannels_eq]
  exact Finset.sum_eq_zero fun _ _ => Finset.sum_eq_zero fun _ _ => h _

theorem channelDiff_self (u : Byte) : channelDiff u u = 0 := by simp [channelDiff]

theorem pixelChanged_self (m : Memory) (a i : Nat) : pixelChanged m a a i = false := by simp [pixelChanged]

/-- The accumulators of a buffer and itself: no difference, and one luminance for both (R231). -/
theorem diffMetrics_self (m : Memory) (a p : Nat) :
    let d := diffMetrics m a a p
    d.biterr = 0#64 ∧ d.chgpix = 0#32 ∧ d.absdiff = 0#64 ∧ d.sqdiff = 0#64 ∧ d.la = d.lb ∧ d.la2 = d.lb2 ∧ d.la2 = d.lalb := by
  refine ⟨?_, ?_, ?_, ?_, rfl, rfl, ?_⟩ <;> refine congrArg (BitVec.ofNat _) ?_
  · exact sumChannels_self m a p fun u => by rw [BitVec.xor_self]; rfl
  · simp [sumPixels_eq, pixelChanged_self]
  · exact sumChannels_self m a p channelDiff_self
  · exact sumChannels_self m a p fun u => by rw [channelDiff_self]; rfl
  · exact sumPixels_congr fun i _ => sq _

/-- Settles O52: with SRC = DST the accumulators are those of a buffer and itself. -/
theorem metDiffOfABufferWithItself : Obligations.MetDiffOfABufferWithItself := by
  intro s hsame hfit
  have hself := diffMetrics_self s.mem s.src.toNat s.pixcnt.toNat
  refine ⟨_, exec_metDiff_of_fits hfit (hsame ▸ hfit), ?_⟩
  rwa [← hsame]

/-! ## The histogram -/

/-- Word `j` of a string of big-endian words (R9). -/
theorem be32_flatMap_bytes32 (ws : List Word) {j : Nat} (hj : j < ws.length) : be32 (ws.flatMap bytes32) (4 * j) = ws[j] := by
  induction ws generalizing j with
  | nil => exact absurd hj j.not_lt_zero
  | cons w ws ih =>
    rw [List.flatMap_cons]
    cases j with
    | zero => exact be32_bytes32 w _
    | succ j =>
      rw [Nat.mul_succ, Nat.add_comm, ← length_bytes32 w, be32_append_right]
      exact ih _

/-- Entry `j` of the histogram's bytes is the count of luminance `j` (R232). -/
theorem be32_histBytes (ls : List Nat) {j : Nat} (hj : j < 256) : be32 (histBytes ls) (4 * j) = BitVec.ofNat 32 (ls.count j) := by
  have hwords : histBytes ls = ((List.range 256).map fun j => BitVec.ofNat 32 (ls.count j)).flatMap bytes32 :=
    (List.flatMap_map ..).symm
  rw [hwords, be32_flatMap_bytes32 _ (by simpa using hj), List.getElem_map, List.getElem_range]

/-- The count of a luminance is the number of pixels that have it. -/
theorem count_lumList (m : Memory) (base p j : Nat) :
    (lumList m base p).count j = ((Finset.range p).filter fun i => lumAt m (base + 4 * i) = j).card := by
  rw [lumList, List.count, List.countP_map, List.countP_eq_length_filter]
  rfl

/-- Entry `j` of the histogram in memory is the number of pixels of luminance `j`: at most P, so it fits in the word (R232). -/
theorem toNat_wordAt_histogramMem {s : State} (hw : Memory.wf s.mem = true) {j : Nat} (hj : j < 256) :
    (wordAt (histogramMem s) (s.dst.toNat + 4 * j)).toNat
      = ((Finset.range s.pixcnt.toNat).filter fun p => lumAt s.mem (s.src.toNat + 4 * p) = j).card := by
  have hcount := Finset.card_filter_le (Finset.range s.pixcnt.toNat) fun p => lumAt s.mem (s.src.toNat + 4 * p) = j
  rw [Finset.card_range] at hcount
  rw [histogramMem, wordAt_writeBytes _ hw (by rw [length_histBytes]; omega), be32_histBytes _ hj, count_lumList,
    BitVec.toNat_ofNat, Nat.mod_eq_of_lt (hcount.trans_lt s.pixcnt.isLt)]

/-- Settles O53: past the checks each entry is a count of pixels, and every pixel is counted in the one entry of its luminance. -/
theorem metHistCountsLuminances : Obligations.MetHistCountsLuminances := by
  intro s hw hsrc hdst hapart
  have hlum : Set.MapsTo (fun p => lumAt s.mem (s.src.toNat + 4 * p)) (Finset.range s.pixcnt.toNat) (Finset.range 256) :=
    fun p _ => Finset.mem_coe.2 (Finset.mem_range.2 (Nat.lt_succ_of_le (pixelLum_le s.mem s.src.toNat p)))
  rw [exec_metHist_eq_conclude, conclude_none _ s ((firstErr_metHistChecks_eq_none s).2 ⟨hsrc, hdst, hapart⟩)]
  refine ⟨_, rfl, fun j hj => toNat_wordAt_histogramMem hw hj, ?_, ?_⟩
  · rw [Finset.sum_congr rfl fun j hj => toNat_wordAt_histogramMem hw (Finset.mem_range.1 hj),
      ← Finset.card_eq_sum_card_fiberwise hlum, Finset.card_range]
  · exact length_histBytes _ ▸ sameOutside_writeBytes _ _ hw

end Sys2Proof.Proofs
end

section
/-! SUPPORT. Reset and abort (`70_reset_and_hazards.md` R280 to R282): a reset from any state, the soundness of the reset state, and
the bytes an abort leaves. -/

namespace Sys2Proof.Proofs

open Sys2Proof.Machine Sys2Proof.Laws

/-! ## Reset -/

/-- Every register reads its reset value after a reset, a command in flight or not (R22, R280). -/
theorem value_hardReset (r : Reg) (s : State) : r.value (hardReset s) = if r = .id then idValue else 0#32 :=
  value_resetRegisters r (abort s)

/-- A reset leaves the host alone (log 14). -/
theorem hardReset_host (s : State) : (hardReset s).host = s.host := by
  change (abort s).host = s.host
  rw [abort_frame]

/-- A reset of an idle block leaves memory alone (R280). -/
theorem hardReset_mem_idle {s : State} (h : s.status.busy = false) : (hardReset s).mem = s.mem :=
  (hardReset_mem s).trans (if_neg (Bool.eq_false_iff.1 h))

/-- Settles O56: an abort changes memory and the count of draws alone, and a reset overwrites every register whatever it held. -/
theorem resetFromAnyState : Obligations.ResetFromAnyState := fun s =>
  ⟨fun r => value_hardReset r s, rfl, rfl, hardReset_plat s, hardReset_host s, hardReset_mem_idle,
    fun _ hsrst => hostWriteReg_ctrl_reset hsrst s, fun _ hturn => step_scheduled hturn⟩

/-- Settles O58: the reset state is idle, shows no outcome and lists no byte. -/
theorem resetIsSound : Obligations.ResetIsSound where
  platform := by decide
  canonical := rfl
  inside := rfl
  knownCode := by decide
  busyClean := fun _ => ⟨rfl, rfl, rfl⟩
  padNoError := fun _ => rfl
  quietDetail := fun _ _ => rfl

/-! ## Abort -/

/-- ERR reads 0 exactly when ERRCODE is 0 (R24). -/
theorem err_eq_false_iff (st : Status) : st.err = false ↔ st.errcode = 0#8 := bne_eq_false_iff_eq

/-- Settles O57: a reset leaves memory alone or is the abort of a command that would succeed, whose bytes are each old or new. -/
theorem abortLeavesOldOrNewBytes : Obligations.AbortLeavesOldOrNewBytes := by
  intro s x hw _
  rcases hardReset_mem_cases s with hmem | ⟨-, i, t, hi, ht, herr, hmem⟩ <;> rw [hmem]
  · exact .inl rfl
  · refine (read_abortRanges t.mem (writeRanges i s) (s.mem, s.draws) x hw).imp_right fun ⟨hin, hnew⟩ => ?_
    exact ⟨i, t, hi, ht, (err_eq_false_iff _).1 herr, hin, hnew⟩

end Sys2Proof.Proofs
end

section
/-! SUPPORT. The write footprint (`70_reset_and_hazards.md` R287): each command leaves every byte outside it as it was. -/

namespace Sys2Proof.Proofs

open Sys2Proof.Machine Sys2Proof.Laws Sys2Proof.Spec

theorem extracted_mem (s : State) : (extracted s).mem = extractedMem s := by
  dsimp only [extracted, afterSuccess]

theorem counted_mem (s : State) : (counted s).mem = histogramMem s := by
  dsimp only [counted, afterSuccess]

/-- `MemWrite` of `n` bytes changes none outside its range (R10). -/
theorem sameOutside_writeBytes_length {m : Memory} {a n : Nat} {l : List Byte} (hw : Memory.wf m = true) (hlen : l.length = n) :
    SameOutside m (writeBytes m a l) a n :=
  hlen ▸ sameOutside_writeBytes a l hw

/-- A command that ends in an error changes no byte, so its effect bounds what it changes (R117). -/
theorem read_conclude {cs : List (Option Err)} {effect : State → State} {s t : State} {a n x : Nat}
    (h : conclude cs effect s = .next t) (heffect : firstErr cs = none → SameOutside s.mem (effect s).mem a n)
    (hx : ¬ Within x a n) : t.mem.read x = s.mem.read x := by
  rcases conclude_cases h with ⟨hpass, rfl⟩ | ⟨e, info, -, rfl⟩
  · exact heffect hpass x (by omega)
  · rfl

section
variable {s : State} (hw : Memory.wf s.mem = true)
include hw

/-- In place, FR_WRAP writes the body where it stands, so only the header's four bytes change (R190, R287). -/
theorem sameOutside_framed_inPlace (hplace : s.src.toNat = s.dst.toNat + 4) :
    SameOutside s.mem (framed s).mem s.dst.toNat 4 := by
  intro x hx
  by_cases hbody : Within x (s.dst.toNat + 4) s.len.toNat
  · obtain ⟨j, rfl⟩ := Nat.exists_eq_add_of_le hbody.1
    rw [read_framed_body hw (by omega), hplace]
  · exact sameOutside_framed hw x (by omega)

/-- What FR_WRAP writes, in place or not (R287). -/
theorem sameOutside_framed_footprint :
    SameOutside s.mem (framed s).mem s.dst.toNat (if s.src.toNat = s.dst.toNat + 4 then 4 else 4 + s.len.toNat) := by
  split
  · next hplace => exact sameOutside_framed_inPlace hw hplace
  · exact Nat.add_comm .. ▸ sameOutside_framed hw

/-- The channels of a payload that fits in the pixels are bytes of the pixels (R203). -/
theorem sameOutside_embedded (hcap : s.len.toNat ≤ 3 * s.pixcnt.toNat / 8) :
    SameOutside s.mem (embedded s).mem s.dst.toNat (4 * s.pixcnt.toNat) := by
  intro x hx
  refine read_embedBits_out _ _ _ _ x hw fun i hi => ?_
  have hi' := List.mem_range.1 hi
  have hchan := chanAddr_bounds s.dst.toNat (i := i) (p := s.pixcnt.toNat) (by omega)
  omega

/-- A payload whose declared length passes its check ends inside the footprint (R204, R287). -/
theorem sameOutside_extracted (havail : headerAt s.mem s.src.toNat ≤ (3 * s.pixcnt.toNat - 32) / 8) :
    SameOutside s.mem (extracted s).mem s.dst.toNat (4 + (3 * s.pixcnt.toNat - 32) / 8) := by
  intro x hx
  rw [extracted_mem]
  refine read_writeBytes_out s.mem s.dst.toNat (stegoPayload s) x hw ?_
  rw [length_stegoPayload]
  omega

theorem sameOutside_encryptedMessage : SameOutside s.mem (encryptedMessage s).mem s.dst.toNat (padded s.len.toNat) :=
  length_padBytes_sourceBytes s ▸ sameOutside_writeBytes_ecbBlocks _ s.dst.toNat hw (length_padBytes_whole _)

theorem sameOutside_counted : SameOutside s.mem (counted s).mem s.dst.toNat 1024 := by
  rw [counted_mem]
  exact sameOutside_writeBytes_length hw (length_histBytes _)

/-- A command on whole blocks writes its blocks alone (R181, R182, R184). -/
theorem read_blockChecks {f : Word → Word → Word × Word} {effect : State → State} {t : State} {x : Nat}
    (h : conclude (blockChecks s) effect s = .next t) (heffect : (effect s).mem = blocksWritten f s)
    (hx : ¬ Within x s.dst.toNat s.len.toNat) : t.mem.read x = s.mem.read x := by
  refine read_conclude h (fun hpass => ?_) hx
  obtain ⟨-, -, -, h8⟩ := (firstErr_blockChecks_eq_none s).1 hpass
  exact heffect ▸ sameOutside_blocksWritten f hw h8

/-- A command changes no byte outside the ranges that the table of R287 lists for it. -/
theorem read_exec_of_not_writesAt {i : Instr} {t : State} {x : Nat} (h : exec i s = .next t) (hx : ¬ WritesAt s x i) :
    t.mem.read x = s.mem.read x := by
  cases i
  case nop | teaEnc | teaDec | teaErnd | teaDrnd | zero | lsbCap | keyLd | blkLd | wLd | unpad | frUnwrap | metDiff =>
    exact congrArg (·.mem.read x) (exec_withWritten h)
  case blkSt | wSt =>
    dsimp only [exec, execBlkSt, execWSt] at h
    exact read_conclude h (fun _ => sameOutside_writeBytes _ _ hw) hx
  case pad =>
    rw [exec_pad, execPad] at h
    exact read_conclude h (fun _ => sameOutside_writeBytes_length hw (length_padding _)) hx
  case ecbEnc => exact read_blockChecks hw (exec_ecbEnc_eq_conclude s ▸ h) rfl hx
  case ecbDec => exact read_blockChecks hw (exec_ecbDec_eq_conclude s ▸ h) rfl hx
  case msgDec => exact read_blockChecks hw (exec_msgDec_eq_conclude s ▸ h) rfl hx
  case msgEnc =>
    rw [exec_msgEnc_eq_conclude] at h
    exact read_conclude h (fun _ => sameOutside_encryptedMessage hw) hx
  case frWrap =>
    rw [exec_frWrap_eq_conclude] at h
    exact read_conclude h (fun _ => sameOutside_framed_footprint hw) hx
  case lsbEmbed =>
    rw [exec_lsbEmbed_eq_conclude] at h
    refine read_conclude h (fun hpass => ?_) hx
    obtain ⟨-, -, -, hcap⟩ := (firstErr_lsbEmbedChecks_eq_none s).1 hpass
    exact sameOutside_embedded hw hcap
  case lsbExtract =>
    rw [exec_lsbExtract_eq_conclude] at h
    rcases conclude_cases h with ⟨hpass, rfl⟩ | ⟨e, info, -, rfl⟩
    · obtain ⟨-, hbits, ⟨-, havail⟩, -⟩ := (firstErr_lsbExtractChecks_eq_none s).1 hpass
      have hout : ¬ Within x s.dst.toNat (4 + (3 * s.pixcnt.toNat - 32) / 8) := fun hin => hx ⟨hbits, hin⟩
      exact sameOutside_extracted hw havail x (by omega)
    · rfl
  case metHist =>
    rw [exec_metHist_eq_conclude] at h
    exact read_conclude h (fun _ => sameOutside_counted hw) hx

end

/-- Settles O12: the model's write ranges are the table's, and each command's effect stays inside them. -/
theorem storesStayInTheWriteFootprint : Obligations.StoresStayInTheWriteFootprint := by
  intro i s t x hw h hout
  refine read_exec_of_not_writesAt hw h fun hx => ?_
  obtain ⟨r, hr, hrx⟩ := (writeRanges_hold_iff i s x).2 hx
  exact absurd hrx (Bool.eq_false_iff.1 (hout r hr))

end Sys2Proof.Proofs
end

section
/-! SUPPORT. The error codes of each command (`60_exceptions.md` R250, R251): the codes its checks report. -/

namespace Sys2Proof.Proofs

open Sys2Proof.Machine Sys2Proof.Laws

/-- An error that the check `c` reports has one of the codes `codes` (R250). -/
def Reports (codes : List (BitVec 8)) (c : Option Err) : Prop := ∀ e info, c = some (e, info) → errCodeBits e ∈ codes

section
variable {codes : List (BitVec 8)}

theorem reports_none : Reports codes none := fun _ _ h => nomatch h

theorem reports_failIf {e : ErrCode} (h : errCodeBits e ∈ codes) (b : Bool) (info : Word) :
    Reports codes (failIf b e info) := by
  intro e' info' he
  cases b with
  | false => cases he
  | true => cases he; exact h

theorem reports_rangeCheck (h : 0x02#8 ∈ codes) (s : State) (a : Word) (n : Nat) : Reports codes (rangeCheck s a n) :=
  reports_failIf h _ _

theorem reports_overlapCheck (h : 0x03#8 ∈ codes) (s : State) (n m : Nat) : Reports codes (overlapCheck s n m) :=
  reports_failIf h _ _

/-- The overlap check that a command running in place leaves out (R65). -/
theorem reports_overlapUnless (h : 0x03#8 ∈ codes) (p : Prop) [Decidable p] (s : State) (n m : Nat) :
    Reports codes (if p then none else overlapCheck s n m) := by
  split
  · exact reports_none
  · exact reports_overlapCheck h s n m

/-- A command ends in success or in a code that its checks report (R115 to R117). -/
theorem errcode_conclude {cs : List (Option Err)} {effect : State → State} {s t : State} (h : conclude cs effect s = .next t)
    (heffect : (effect s).status.errcode = 0#8) (hcs : ∀ c ∈ cs, Reports codes c) :
    t.status.errcode = 0#8 ∨ t.status.errcode ∈ codes := by
  rcases conclude_cases h with ⟨-, rfl⟩ | ⟨e, info, he, rfl⟩
  · exact .inl heffect
  · exact .inr (hcs _ (firstErr_mem he) e info rfl)

end

/-- Settles O10: the codes of the table are those of the command's checks. -/
theorem errorCodesByCommand : Obligations.ErrorCodesByCommand := by
  intro i s t h
  cases i
  case nop | teaEnc | teaDec | teaErnd | teaDrnd | zero | lsbCap =>
    dsimp only [exec, execNop, execTeaEnc, execTeaDec, execTeaErnd, execTeaDrnd, execZero, execLsbCap] at h
    exact errcode_conclude h rfl (List.forall_mem_nil _)
  case keyLd | blkLd | wLd | unpad | blkSt | wSt | pad | metDiff =>
    dsimp only [exec, execKeyLd, execBlkLd, execWLd, execUnpad, execBlkSt, execWSt, execPad, execMetDiff] at h
    refine errcode_conclude h rfl ?_
    simp (disch := decide) [reports_rangeCheck]
  case ecbEnc | ecbDec | msgDec =>
    dsimp only [exec, execEcbEnc, execEcbDec, execMsgDec] at h
    refine errcode_conclude h rfl ?_
    simp (disch := decide) [blockChecks, messageOverlap, reports_rangeCheck, reports_overlapUnless, reports_failIf]
  case msgEnc | frWrap | metHist =>
    dsimp only [exec, execMsgEnc, execFrWrap, execMetHist] at h
    refine errcode_conclude h rfl ?_
    simp (disch := decide) [messageOverlap, reports_rangeCheck, reports_overlapCheck, reports_overlapUnless]
  case frUnwrap =>
    dsimp only [exec, execFrUnwrap] at h
    refine errcode_conclude h rfl ?_
    simp (disch := decide) [reports_rangeCheck, reports_failIf]
  case lsbEmbed =>
    dsimp only [exec, execLsbEmbed] at h
    refine errcode_conclude h rfl ?_
    simp (disch := decide) [reports_rangeCheck, reports_overlapCheck, reports_failIf]
  case lsbExtract =>
    rw [exec_lsbExtract_eq_conclude, lsbExtractChecks] at h
    refine errcode_conclude h rfl ?_
    simp (disch := decide) [reports_rangeCheck, reports_overlapCheck, reports_failIf]

end Sys2Proof.Proofs
end
